-- ==== Sys2Proof/Word.lean ====
section
/-! DEFINITION. The word types of the hardware (00_scope.md R11): u8, u16 and u24. -/

namespace Sys2Proof

/-- A u8 (R11): one byte of memory, a bank number, the status byte. -/
abbrev Byte := BitVec 8

/-- A u16 (R11): a register, an address within a bank. -/
abbrev Word := BitVec 16

/-- A u24 (R11): `bank : addr`, the address an `UnmappedAccess` reports (R300). -/
abbrev LongAddr := BitVec 24

end Sys2Proof
end

