-- ==== Sys2Proof/Syntax.lean ====
section
/-! DEFINITION. The instruction set as syntax (30_encoding.md R141, R144): widths, formats and one constructor per row of
spec/opcode_table.json. -/

namespace Sys2Proof

/-- An active width (10_state.md R40): 8 or 16 bits. -/
inductive Width where
  | w8
  | w16
deriving DecidableEq, Repr

/-- The two active widths of a step (R40): `a` is wA (accumulator), `x` is wX (index registers). -/
structure Widths where
  a : Width
  x : Width
deriving DecidableEq, Repr

/-- The instruction formats of R141. -/
inductive Format where
  | implied
  | imm8
  | immM
  | immX
  | dp
  | dpX
  | rel8
  | abs
  | long
deriving DecidableEq, Repr

/-- The 45 instructions of R144. An `imm_m` or `imm_x` immediate is the u16 that R142 assembles: the one operand byte
zero-extended when the selected width is 8, both bytes when it is 16. -/
inductive Instr where
  -- 40_flags_mode.md
  | clc
  | sei
  | cli
  | xce
  | rep (imm8 : Byte)
  | sep (imm8 : Byte)
  -- 41_load_store.md
  | ldaImm (imm : Word)
  | ldxImm (imm : Word)
  | ldyImm (imm : Word)
  | ldaAbs (a : Word)
  | ldxAbs (a : Word)
  | staAbs (a : Word)
  | stxAbs (a : Word)
  | styAbs (a : Word)
  | staDp (dp : Byte)
  | stxDp (dp : Byte)
  | stzAbs (a : Word)
  | stzDpX (dp : Byte)
  -- 42_transfer_compare.md
  | tcd
  | tcs
  | txs
  | inx
  | dex
  | ina
  | xba
  | cmpAbs (a : Word)
  | cmpImm (imm : Word)
  | cpxAbs (a : Word)
  | cpxImm (imm : Word)
  -- 43_stack.md
  | pha
  | phx
  | php
  | phk
  | pla
  | plx
  | pld
  | plb
  | plp
  -- 44_control.md
  | jsr (a : Word)
  | jsl (a : Word) (bank : Byte)
  | rts
  | rtl
  | jmp (a : Word)
  | bne (rel : Byte)
  | stp
deriving DecidableEq, Repr

end Sys2Proof
end

