-- ==== Sys2Proof/WellFormed.lean ====
section
/-! DEFINITION. Which instruction terms the decoder can produce under given widths (R141, R142): an `imm_m` or `imm_x`
immediate has one byte when its width is 8. Every other operand is exactly as wide as its type. -/

namespace Sys2Proof

/-- An immediate fits the selected width: at width 8 only b1 exists and it is zero-extended (R142). -/
def Width.immFits (w : Width) (imm : Word) : Bool :=
  match w with
  | .w8 => decide (imm.toNat < 0x100)
  | .w16 => true

/-- The check on a whole instruction under the widths it is decoded with. -/
def Instr.wellFormed (wd : Widths) (i : Instr) : Bool :=
  match i with
  | .ldaImm imm => wd.a.immFits imm
  | .cmpImm imm => wd.a.immFits imm
  | .ldxImm imm => wd.x.immFits imm
  | .ldyImm imm => wd.x.immFits imm
  | .cpxImm imm => wd.x.immFits imm
  | .clc | .sei | .cli | .xce | .rep _ | .sep _ => true
  | .ldaAbs _ | .ldxAbs _ | .staAbs _ | .stxAbs _ | .styAbs _ | .staDp _ | .stxDp _ | .stzAbs _ | .stzDpX _ => true
  | .tcd | .tcs | .txs | .inx | .dex | .ina | .xba | .cmpAbs _ | .cpxAbs _ => true
  | .pha | .phx | .php | .phk | .pla | .plx | .pld | .plb | .plp => true
  | .jsr _ | .jsl _ _ | .rts | .rtl | .jmp _ | .bne _ | .stp => true

end Sys2Proof
end

