-- ==== Sys2Proof/Decode.lean ====
section
/-! DEFINITION. The instruction decoder and the encoder (30_encoding.md). The decoder reads the opcode map of R144 row by
row; the encoder is written from the same map, one line per instruction. -/

namespace Sys2Proof

/-! ### Bytes and words (R11) -/

/-- `v[7:0]`. -/
def loByte (v : Word) : Byte := v.extractLsb' 0 8

/-- `v[15:8]`. -/
def hiByte (v : Word) : Byte := v.extractLsb' 8 8

/-- `hi : lo` (R11). -/
def joinBytes (hi lo : Byte) : Word := hi ++ lo

/-- `zext_16(v)` (R11). -/
def zext16 (v : Byte) : Word := v.setWidth 16

/-- `sext_16(v)` (R11). -/
def sext16 (v : Byte) : Word := v.signExtend 16

/-- The number of bytes of a width, `n(w) = w / 8`. -/
def Width.bytes : Width → Nat
  | .w8 => 1
  | .w16 => 2

/-! ### The opcode map (R144) -/

/-- How many operand bytes a format has under the widths read at the start of the step (R140, R141, R145). -/
def Format.operandBytes (wd : Widths) : Format → Nat
  | .implied => 0
  | .imm8 => 1
  | .immM => wd.a.bytes
  | .immX => wd.x.bytes
  | .dp => 1
  | .dpX => 1
  | .rel8 => 1
  | .abs => 2
  | .long => 3

/-- The operand bytes as fetched (R141): `b1` and, where the format has them, `b2` and `b3`; a byte the format does not
have is 0. -/
structure OperandBytes where
  b1 : Byte
  b2 : Byte
  b3 : Byte
deriving DecidableEq, Repr

/-- The operand bytes of a list in fetch order. -/
def OperandBytes.ofList : List Byte → OperandBytes
  | [] => ⟨0, 0, 0⟩
  | [b1] => ⟨b1, 0, 0⟩
  | [b1, b2] => ⟨b1, b2, 0⟩
  | b1 :: b2 :: b3 :: _ => ⟨b1, b2, b3⟩

/-- `b2 : b1`, the u16 operand of R142; with b2 absent it is b1 zero-extended. -/
def OperandBytes.u16 (o : OperandBytes) : Word := joinBytes o.b2 o.b1

/-- One row of the opcode map: opcode byte, format, and the instruction its operand bytes make (R142). -/
structure OpcodeRow where
  opcode : Byte
  format : Format
  make : OperandBytes → Instr

/-- Rows of 40_flags_mode.md. -/
def flagModeRows : List OpcodeRow := [
  ⟨0x18, .implied, fun _ => .clc⟩,
  ⟨0x78, .implied, fun _ => .sei⟩,
  ⟨0x58, .implied, fun _ => .cli⟩,
  ⟨0xFB, .implied, fun _ => .xce⟩,
  ⟨0xC2, .imm8, fun o => .rep o.b1⟩,
  ⟨0xE2, .imm8, fun o => .sep o.b1⟩]

/-- Rows of 41_load_store.md. -/
def loadStoreRows : List OpcodeRow := [
  ⟨0xA9, .immM, fun o => .ldaImm o.u16⟩,
  ⟨0xA2, .immX, fun o => .ldxImm o.u16⟩,
  ⟨0xA0, .immX, fun o => .ldyImm o.u16⟩,
  ⟨0xAD, .abs, fun o => .ldaAbs o.u16⟩,
  ⟨0xAE, .abs, fun o => .ldxAbs o.u16⟩,
  ⟨0x8D, .abs, fun o => .staAbs o.u16⟩,
  ⟨0x8E, .abs, fun o => .stxAbs o.u16⟩,
  ⟨0x8C, .abs, fun o => .styAbs o.u16⟩,
  ⟨0x85, .dp, fun o => .staDp o.b1⟩,
  ⟨0x86, .dp, fun o => .stxDp o.b1⟩,
  ⟨0x9C, .abs, fun o => .stzAbs o.u16⟩,
  ⟨0x74, .dpX, fun o => .stzDpX o.b1⟩]

/-- Rows of 42_transfer_compare.md. -/
def transferCompareRows : List OpcodeRow := [
  ⟨0x5B, .implied, fun _ => .tcd⟩,
  ⟨0x1B, .implied, fun _ => .tcs⟩,
  ⟨0x9A, .implied, fun _ => .txs⟩,
  ⟨0xE8, .implied, fun _ => .inx⟩,
  ⟨0xCA, .implied, fun _ => .dex⟩,
  ⟨0x1A, .implied, fun _ => .ina⟩,
  ⟨0xEB, .implied, fun _ => .xba⟩,
  ⟨0xCD, .abs, fun o => .cmpAbs o.u16⟩,
  ⟨0xC9, .immM, fun o => .cmpImm o.u16⟩,
  ⟨0xEC, .abs, fun o => .cpxAbs o.u16⟩,
  ⟨0xE0, .immX, fun o => .cpxImm o.u16⟩]

/-- Rows of 43_stack.md. -/
def stackRows : List OpcodeRow := [
  ⟨0x48, .implied, fun _ => .pha⟩,
  ⟨0xDA, .implied, fun _ => .phx⟩,
  ⟨0x08, .implied, fun _ => .php⟩,
  ⟨0x4B, .implied, fun _ => .phk⟩,
  ⟨0x68, .implied, fun _ => .pla⟩,
  ⟨0xFA, .implied, fun _ => .plx⟩,
  ⟨0x2B, .implied, fun _ => .pld⟩,
  ⟨0xAB, .implied, fun _ => .plb⟩,
  ⟨0x28, .implied, fun _ => .plp⟩]

/-- Rows of 44_control.md. -/
def controlRows : List OpcodeRow := [
  ⟨0x20, .abs, fun o => .jsr o.u16⟩,
  ⟨0x22, .long, fun o => .jsl o.u16 o.b3⟩,
  ⟨0x60, .implied, fun _ => .rts⟩,
  ⟨0x6B, .implied, fun _ => .rtl⟩,
  ⟨0x4C, .abs, fun o => .jmp o.u16⟩,
  ⟨0xD0, .rel8, fun o => .bne o.b1⟩,
  ⟨0xDB, .implied, fun _ => .stp⟩]

/-- The opcode map of R144: exactly these 45 opcode bytes are decoded. -/
def opcodeMap : List OpcodeRow :=
  flagModeRows ++ loadStoreRows ++ transferCompareRows ++ stackRows ++ controlRows

/-- The row of an opcode byte; none when the byte is not in the map (R146). -/
def opcodeRow? (op : Byte) : Option OpcodeRow :=
  opcodeMap.find? (fun r => r.opcode == op)

/-! ### The decoder -/

/-- Why a byte list is not the start of an instruction. -/
inductive DecodeError where
  /-- There is no byte to decode. -/
  | noOpcode
  /-- The opcode byte is in no row of R144 (R146, R147). -/
  | notInMap (op : Byte)
  /-- The list ends before the last operand byte of the opcode's format. -/
  | missingOperand (op : Byte)
deriving DecidableEq, Repr

/-- The decoder (R143, R145): total on any bytes, a function of the opcode byte and the widths, consuming exactly the bytes
the format names and giving back the rest. -/
def decode (wd : Widths) : List Byte → Except DecodeError (Instr × List Byte)
  | [] => .error .noOpcode
  | op :: rest =>
    match opcodeRow? op with
    | none => .error (.notInMap op)
    | some row =>
      let n := row.format.operandBytes wd
      if rest.length < n then .error (.missingOperand op)
      else .ok (row.make (OperandBytes.ofList (rest.take n)), rest.drop n)

/-! ### The encoder -/

/-- The operand bytes of a u16, low byte first (R76, R141). -/
def encodeU16 (v : Word) : List Byte := [loByte v, hiByte v]

/-- The operand bytes of an `imm_m` or `imm_x` immediate at its width (R141). -/
def encodeImm (w : Width) (imm : Word) : List Byte :=
  match w with
  | .w8 => [loByte imm]
  | .w16 => encodeU16 imm

/-- The bytes of an instruction in fetch order, from R141 and R144. -/
def encode (wd : Widths) (i : Instr) : List Byte :=
  match i with
  | .clc => [0x18]
  | .sei => [0x78]
  | .cli => [0x58]
  | .xce => [0xFB]
  | .rep m => [0xC2, m]
  | .sep m => [0xE2, m]
  | .ldaImm v => 0xA9 :: encodeImm wd.a v
  | .ldxImm v => 0xA2 :: encodeImm wd.x v
  | .ldyImm v => 0xA0 :: encodeImm wd.x v
  | .ldaAbs a => 0xAD :: encodeU16 a
  | .ldxAbs a => 0xAE :: encodeU16 a
  | .staAbs a => 0x8D :: encodeU16 a
  | .stxAbs a => 0x8E :: encodeU16 a
  | .styAbs a => 0x8C :: encodeU16 a
  | .staDp dp => [0x85, dp]
  | .stxDp dp => [0x86, dp]
  | .stzAbs a => 0x9C :: encodeU16 a
  | .stzDpX dp => [0x74, dp]
  | .tcd => [0x5B]
  | .tcs => [0x1B]
  | .txs => [0x9A]
  | .inx => [0xE8]
  | .dex => [0xCA]
  | .ina => [0x1A]
  | .xba => [0xEB]
  | .cmpAbs a => 0xCD :: encodeU16 a
  | .cmpImm v => 0xC9 :: encodeImm wd.a v
  | .cpxAbs a => 0xEC :: encodeU16 a
  | .cpxImm v => 0xE0 :: encodeImm wd.x v
  | .pha => [0x48]
  | .phx => [0xDA]
  | .php => [0x08]
  | .phk => [0x4B]
  | .pla => [0x68]
  | .plx => [0xFA]
  | .pld => [0x2B]
  | .plb => [0xAB]
  | .plp => [0x28]
  | .jsr a => 0x20 :: encodeU16 a
  | .jsl a bk => 0x22 :: (encodeU16 a ++ [bk])
  | .rts => [0x60]
  | .rtl => [0x6B]
  | .jmp a => 0x4C :: encodeU16 a
  | .bne rel => [0xD0, rel]
  | .stp => [0xDB]

/-! ### The host's view of the decoder -/

/-- The longest instruction in bytes (R140). -/
def maxInstrBytes : Nat := 4

/-- The widths after reset, wA = wX = 8 (P = 0x34, R60), under which `decodeTableWord` decodes (assumption log 3). -/
def resetWidths : Widths := ⟨.w8, .w8⟩

/-- The bytes of an instruction whose bits, numbered as spec/opcode_table.json numbers them, are the low `nbits` bits of
`w`: byte k is bits 8k+7 to 8k, every bit above `nbits` is 0, and the list has the longest instruction's length. -/
def tableWordBytes (nbits w : Nat) : List Byte :=
  let v := w % 2 ^ nbits
  [BitVec.ofNat 8 v, BitVec.ofNat 8 (v / 0x100), BitVec.ofNat 8 (v / 0x10000), BitVec.ofNat 8 (v / 0x1000000)]

/-- The instruction the decoder reads from a table word at the widths after reset; none where it refuses. -/
def decodeTableWord (nbits w : Nat) : Option Instr :=
  match decode resetWidths (tableWordBytes nbits w) with
  | .ok (i, _) => some i
  | .error _ => none

end Sys2Proof
end

