-- ==== Sys2Proof/Config.lean ====
section
/-! DEFINITION. The named parameters of the model (00_scope.md R10; 93_implementation_defined.md Part 2). They are fixed for
one machine; State carries them so that a statement over every state holds for every value of them (assumption log 4).
`ROM` and `WRAM_INIT` are arguments of power-on (Machine/Reset.lean). -/

namespace Sys2Proof

/-- `DMA_ZERO_SIZE_COUNT` (D27): 0 or 65536 bytes moved when a channel's SIZE is 0. -/
inductive ZeroSizeCount where
  | none
  | all64K
deriving DecidableEq, Repr

/-- The parameters of R10. -/
structure Config where
  /-- `RESET_P` (D17): P after reset; bit 5 is forced to 1 by reset. -/
  resetP : Byte
  /-- `RESET_SP` (D18): S after reset; its high byte must be 0x01. -/
  resetSp : Word
  /-- `EMU_FORCES_WIDTH` (D6). -/
  emuForcesWidth : Bool
  /-- `X_FLAG_CLEARS_INDEX_HIGH` (D8). -/
  xFlagClearsIndexHigh : Bool
  /-- `STORE_SETS_ZN` (D9). -/
  storeSetsZn : Bool
  /-- `RECOGNISED_UNIMPLEMENTED` (D3): opcode byte and addressing-mode name. -/
  recognisedUnimplemented : List (Byte × String)
  /-- `ROM_BANK_MASK` (D21). -/
  romBankMask : Byte
  /-- `OPEN_BUS_PLACEHOLDER` (D23; U9: any value for a proof). -/
  openBusPlaceholder : Byte
  /-- `DMA_ZERO_SIZE_COUNT` (D27). -/
  dmaZeroSizeCount : ZeroSizeCount
  /-- `DMA_WRITEBACK` (D28). -/
  dmaWriteback : Bool
deriving DecidableEq, Repr

/-- The defaults of R10. -/
def Config.default : Config where
  resetP := 0x34
  resetSp := 0x0100
  emuForcesWidth := false
  xFlagClearsIndexHigh := false
  storeSetsZn := true
  recognisedUnimplemented := []
  romBankMask := 0xFF
  openBusPlaceholder := 0x00
  dmaZeroSizeCount := .none
  dmaWriteback := false

end Sys2Proof
end

