-- ==== Sys2Proof/Machine/State.lean ====
section
/-! DEFINITION. The machine state (10_state.md) as plain data, the reasons a step can stop (60_exceptions.md R300) and the
state after power-on and reset (R60, R340, R341). -/

namespace Sys2Proof.Machine

/-! ### Memories -/

/-- A memory of `w`-bit cells as (index, value) pairs in one canonical form: indexes strictly rising, no listed value 0.
A cell that is not listed reads 0 (Machine/Memory.lean; assumption log 2). -/
abbrev Cells (w : Nat) := List (Nat × BitVec w)

/-- A byte memory. -/
abbrev Memory := List Host.Cell

/-- The cartridge ROM (R43, R100): a read-only byte array of `length` bytes; `bytes` lists its nonzero bytes. -/
structure Rom where
  length : Nat
  bytes : Memory
deriving DecidableEq, Repr

/-! ### The hardware register file (R46) -/

/-- A DMA channel record (R47): CTRLn, DESTn, SRCn, SBANKn, SIZEn. -/
structure DmaChannel where
  ctrl : Byte
  dest : Byte
  src : Word
  sbank : Byte
  size : Word
deriving DecidableEq, Repr

/-- The PPU part of the register file with VRAM and CGRAM (R44 to R46, R49 to R51): the PPU state that the presentation
loop reads at step boundaries (R121, R320). -/
structure Ppu where
  disp : Byte
  bgmode : Byte
  bgsc : Vector Byte 4
  bgnba : Vector Byte 2
  vmain : Byte
  vaddr : Word
  cgidx : BitVec 10
  tm : Byte
  ts : Byte
  vram : Cells 16
  cgram : Cells 8
deriving DecidableEq, Repr

/-! ### The whole state -/

/-- The machine state: CPU registers (R30 to R39), memories (R43 to R45), the hardware register file (R46 to R51), the
parameters of R10, and the cycle count the last successful step returned (R351, an output only; assumption log 5). -/
structure State where
  pc : Word
  a : Word
  x : Word
  y : Word
  d : Word
  sp : Word
  pbr : Byte
  dbr : Byte
  p : Byte
  e : Bool
  wram : Memory
  ppu : Ppu
  nmitimen : Byte
  hdmaen : Byte
  memsel : Byte
  dma : Vector DmaChannel 7
  rom : Rom
  config : Config
  cycles : Nat
deriving DecidableEq, Repr

/-! ### The reasons a step can stop -/

/-- The six errors of R300. Each ends the step with no effect (R15, R301). Modelling them as faults is what the spec says;
none stands for behaviour the spec gives an effect. -/
inductive Fault where
  /-- Code 0: the decoder could not classify the opcode byte (R146). Raised by the step. As the spec says; safe. -/
  | unknownOpcode (op : Byte)
  /-- Code 1: a byte of `RECOGNISED_UNIMPLEMENTED`, with its addressing-mode name (R147). Raised by the step. As the spec
  says; safe. -/
  | unimplementedInstruction (op : Byte) (mode : String)
  /-- Code 2: bus decode failed at `bank : addr` (R71 to R73); bank 0x00 for writes. Raised by any bus access. As the spec
  says; safe. -/
  | unmappedAccess (addr : LongAddr)
  /-- Code 3: an unsupported DMA mode of channel 0 to 6, 7 for enable bit 7, 8 for HDMA (R98, R105). Raised by register
  writes to 0x420B and 0x420C. As the spec says; safe. -/
  | unsupportedDmaMode (channel : Nat)
  /-- Code 4: a VRAM data port written while VMAIN selects a remap mode (R94). Raised by register writes to 0x2118 and
  0x2119. As the spec says; safe. -/
  | unsupportedRemap (vmain : Byte)
  /-- Code 5: the halt instruction (R276), the deliberate end of a run. Raised by STP. As the spec says; safe. -/
  | halted
deriving DecidableEq, Repr

/-- Inputs the model has no meaning for. No step answers one of these; power-on answers the last two. -/
inductive Refusal where
  /-- An instruction with no meaning yet: answered by exec's refused arms only (none remains). Safe. -/
  | notModelled (mnemonic : String)
  /-- A ROM image shorter than 0x8000 bytes (R341, U10). Raised by power-on. As the spec says; safe. -/
  | romTooShort (length : Nat)
  /-- Parameters outside the bounds R10 gives them (assumption log 8). Raised by power-on. Safe. -/
  | parametersOutOfBounds
deriving DecidableEq, Repr

/-! ### Reset -/

/-- The blank cartridge image of State.reset: 0x8000 bytes, every one 0x00 (DESIGN CHOICE, assumption log 1). -/
def Rom.blank : Rom := ⟨0x8000, []⟩

/-- The register file of the PPU after power-on (R60). -/
def Ppu.powerOn : Ppu where
  disp := 0x00
  bgmode := 0x00
  bgsc := Vector.replicate 4 0x00
  bgnba := Vector.replicate 2 0x00
  vmain := 0x00
  vaddr := 0x0000
  cgidx := 0
  tm := 0x00
  ts := 0x00
  vram := []
  cgram := []

/-- A DMA channel after reset: zeroed (R47, R60). -/
def DmaChannel.zero : DmaChannel := ⟨0x00, 0x00, 0x0000, 0x00, 0x0000⟩

/-- The machine right after power-on and reset (R60, R340, R341) with the default parameters of R10 and the blank image
(assumption log 1). PC is the image's reset vector ROM[0x7FFD] : ROM[0x7FFC] = 0x0000. -/
def State.reset : State where
  pc := 0x0000
  a := 0x0000
  x := 0x0000
  y := 0x0000
  d := 0x0000
  sp := 0x0100
  pbr := 0x00
  dbr := 0x00
  p := 0x34
  e := true
  wram := []
  ppu := Ppu.powerOn
  nmitimen := 0x00
  hdmaen := 0x00
  memsel := 0x00
  dma := Vector.replicate 7 DmaChannel.zero
  rom := Rom.blank
  config := Config.default
  cycles := 0

end Sys2Proof.Machine
end

