-- ==== Sys2Proof/Machine/Flags.lean ====
section
/-! DEFINITION. The status byte P (10_state.md R36), the active widths (R40), and every flag computation of the spec: setZN
(00_scope.md R13) and Compare (42_transfer_compare.md R230). -/

namespace Sys2Proof.Machine

/-- The eight flags of P (R36). -/
inductive Flag where
  | c
  | z
  | i
  | d
  | x
  | m
  | v
  | n
deriving DecidableEq, Repr

/-- The bit position of a flag in P (R36). -/
def Flag.bit : Flag → Nat
  | .c => 0
  | .z => 1
  | .i => 2
  | .d => 3
  | .x => 4
  | .m => 5
  | .v => 6
  | .n => 7

/-- The byte with only the flag's bit set. -/
def Flag.mask (f : Flag) : Byte := 1#8 <<< f.bit

/-- `P.f`. -/
def getFlag (p : Byte) (f : Flag) : Bool := p.getLsbD f.bit

/-- `P.f <- b`. -/
def setFlag (p : Byte) (f : Flag) (b : Bool) : Byte :=
  if b then p ||| f.mask else p &&& ~~~f.mask

/-! ### Widths (R12, R40) -/

/-- The width a width flag selects: 8 when it is 1, or when E = 1 and `EMU_FORCES_WIDTH` (R40). -/
def widthOf (narrow : Bool) (s : State) : Width :=
  if narrow || (s.config.emuForcesWidth && s.e) then .w8 else .w16

/-- The active widths wA and wX (R40). -/
def State.widths (s : State) : Widths where
  a := widthOf (getFlag s.p .m) s
  x := widthOf (getFlag s.p .x) s

/-- `low(v, w) = v & mask(w)` (R12). -/
def low (v : Word) (w : Width) : Word :=
  match w with
  | .w8 => zext16 (loByte v)
  | .w16 => v

/-- `setlow(r, w, v)`: the register after a write at width w; an 8-bit write keeps bits 15:8 (R12). -/
def setLow (r : Word) (w : Width) (v : Word) : Word :=
  match w with
  | .w8 => joinBytes (hiByte r) (loByte v)
  | .w16 => v

/-- `v[w-1]`. -/
def topBit (v : Word) (w : Width) : Bool :=
  match w with
  | .w8 => v.getLsbD 7
  | .w16 => v.getLsbD 15

/-- A count that depends on the width: `w == 8 ? at8 : at16`. -/
def byWidth {α : Type} (w : Width) (at8 at16 : α) : α :=
  match w with
  | .w8 => at8
  | .w16 => at16

/-! ### Flag computations -/

/-- `setZN(v, w)` on P (R13). -/
def setZN (p : Byte) (v : Word) (w : Width) : Byte :=
  setFlag (setFlag p .z (low v w == 0)) .n (topBit v w)

/-- `Compare(r, m, w)` on P (R230): C when a >= b unsigned, Z and N of the difference at width w. -/
def compareFlags (p : Byte) (r m : Word) (w : Width) : Byte :=
  let a := low r w
  let b := low m w
  setZN (setFlag p .c (decide (b.toNat ≤ a.toNat))) (low (a - b) w) w

end Sys2Proof.Machine
end

