-- ==== Sys2Proof/Machine/Memory.lean ====
section
/-! DEFINITION. Reading and writing the cell memories (10_state.md R43 to R45) in their canonical form, and the cartridge ROM. -/

namespace Sys2Proof.Machine

/-- Cell `a`: its listed value, 0 when it is not listed (assumption log 2). -/
def Cells.read {w : Nat} : Cells w → Nat → BitVec w
  | [], _ => 0
  | (b, v) :: rest, a => if a = b then v else Cells.read rest a

/-- The memory without an entry for cell `a`. -/
def Cells.erase {w : Nat} : Cells w → Nat → Cells w
  | [], _ => []
  | (b, v) :: rest, a => if a = b then Cells.erase rest a else (b, v) :: Cells.erase rest a

/-- The memory with an entry added before the first index above it. -/
def Cells.insert {w : Nat} : Cells w → Nat → BitVec w → Cells w
  | [], a, v => [(a, v)]
  | (b, x) :: rest, a, v => if a < b then (a, v) :: (b, x) :: rest else (b, x) :: Cells.insert rest a v

/-- Store `v` in cell `a`, keeping the canonical form: storing 0 removes the entry. -/
def Cells.write {w : Nat} (m : Cells w) (a : Nat) (v : BitVec w) : Cells w :=
  if v = 0 then Cells.erase m a else Cells.insert (Cells.erase m a) a v

/-- Indexes rise strictly from `lo` on, lie below `size`, and no value is 0. -/
def Cells.wfFrom {w : Nat} (size : Nat) : Nat → Cells w → Bool
  | _, [] => true
  | lo, (a, v) :: rest => decide (lo ≤ a) && decide (a < size) && decide (v ≠ 0) && Cells.wfFrom size (a + 1) rest

/-- The canonical form of a memory of `size` cells. -/
def Cells.wf {w : Nat} (size : Nat) (m : Cells w) : Bool := Cells.wfFrom size 0 m

/-- The number of bytes of work RAM (R43). -/
def wramSize : Nat := 0x2000

/-- The number of words of VRAM (R44). -/
def vramSize : Nat := 0x10000

/-- The number of bytes of CGRAM (R45). -/
def cgramSize : Nat := 0x400

/-- The canonical form of work RAM. -/
def Memory.wf (m : Memory) : Bool := Cells.wf wramSize m

/-- The byte of the ROM image at an offset; none at or beyond the image's length (R71). -/
def Rom.read (r : Rom) (off : Nat) : Option Byte :=
  if off < r.length then some (Cells.read r.bytes off) else none

end Sys2Proof.Machine
end

