-- ==== Sys2Proof/Machine/Registers.lean ====
section
/-! DEFINITION. The memory-mapped registers (10_state.md R46 to R50): their addresses, what a bus read of one returns
(20_memory.md R89, R90) and what a write does (R91 to R98). The write of 0x420B runs the DMA sequencer and stands in
Machine/Ops.lean. -/

namespace Sys2Proof.Machine

/-! ### Which register an address names (R46) -/

/-- The PPU registers of R46, 0x2100 to 0x212D. -/
inductive PpuReg where
  | disp
  | bgmode
  | bgsc (i : Fin 4)
  | bgnba (i : Fin 2)
  | vmain
  | vmaddl
  | vmaddh
  | vmdatal
  | vmdatah
  | cgadd
  | cgdata
  | tm
  | ts
deriving DecidableEq, Repr

/-- The system registers of R46, 0x4200 to 0x4366: `dma n k` is byte k of channel n, at 0x43nk. -/
inductive SysReg where
  | nmitimen
  | mdmaen
  | hdmaen
  | memsel
  | dma (n : Fin 7) (k : Fin 7)
deriving DecidableEq, Repr

/-- What the bus decoder finds at a 16-bit address (R71, R73, R103). -/
inductive BusTarget where
  | wram
  | rom
  | ppu (r : PpuReg)
  | sys (r : SysReg)
  | unmapped
deriving DecidableEq, Repr

/-- The PPU register at an address. -/
def ppuRegAt (addr : Nat) : Option PpuReg :=
  if addr = 0x2100 then some .disp
  else if addr = 0x2105 then some .bgmode
  else if h : 0x2107 ≤ addr ∧ addr ≤ 0x210A then some (.bgsc ⟨addr - 0x2107, by omega⟩)
  else if h : 0x210B ≤ addr ∧ addr ≤ 0x210C then some (.bgnba ⟨addr - 0x210B, by omega⟩)
  else if addr = 0x2115 then some .vmain
  else if addr = 0x2116 then some .vmaddl
  else if addr = 0x2117 then some .vmaddh
  else if addr = 0x2118 then some .vmdatal
  else if addr = 0x2119 then some .vmdatah
  else if addr = 0x2121 then some .cgadd
  else if addr = 0x2122 then some .cgdata
  else if addr = 0x212C then some .tm
  else if addr = 0x212D then some .ts
  else none

/-- The system register at an address. -/
def sysRegAt (addr : Nat) : Option SysReg :=
  if addr = 0x4200 then some .nmitimen
  else if addr = 0x420B then some .mdmaen
  else if addr = 0x420C then some .hdmaen
  else if addr = 0x420D then some .memsel
  else if h : 0x4300 ≤ addr ∧ addr < 0x4370 ∧ addr % 16 < 7 then
    some (.dma ⟨(addr - 0x4300) / 16, by omega⟩ ⟨addr % 16, by omega⟩)
  else none

/-- The address decoder (R71, R73, R103): work RAM, then the ROM window, then the registers of R46, otherwise nothing. -/
def decodeAddr (addr : Word) : BusTarget :=
  if addr.toNat ≤ 0x1FFF then .wram
  else if 0x8000 ≤ addr.toNat then .rom
  else
    match ppuRegAt addr.toNat with
    | some r => .ppu r
    | none =>
      match sysRegAt addr.toNat with
      | some r => .sys r
      | none => .unmapped

/-! ### Raising an error -/

/-- `raise K(info)` (00_scope.md R15, R301): the one operation that ends a step with an error. It gives back no state, so
every write the step made before it is discarded. -/
def raise {α : Type} (f : Fault) : Except Fault α := .error f

/-! ### DMA channel registers (R47, R90, R91) -/

/-- Byte k of a channel record, the byte at 0x43nk. -/
def DmaChannel.getByte (ch : DmaChannel) (k : Fin 7) : Byte :=
  match k with
  | 0 => ch.ctrl
  | 1 => ch.dest
  | 2 => loByte ch.src
  | 3 => hiByte ch.src
  | 4 => ch.sbank
  | 5 => loByte ch.size
  | 6 => hiByte ch.size

/-- The channel record after byte k is stored. -/
def DmaChannel.setByte (ch : DmaChannel) (k : Fin 7) (v : Byte) : DmaChannel :=
  match k with
  | 0 => { ch with ctrl := v }
  | 1 => { ch with dest := v }
  | 2 => { ch with src := joinBytes (hiByte ch.src) v }
  | 3 => { ch with src := joinBytes v (loByte ch.src) }
  | 4 => { ch with sbank := v }
  | 5 => { ch with size := joinBytes (hiByte ch.size) v }
  | 6 => { ch with size := joinBytes v (loByte ch.size) }

/-! ### PPU registers -/

/-- The increment amount of VMAIN's INC field (R49): 1, 32, 128, 128. -/
def vramIncrement (vmain : Byte) : Word :=
  match (vmain.extractLsb' 0 2).toNat with
  | 0 => 1
  | 1 => 32
  | _ => 128

/-- VMAIN's TRIG bit (R49): true when the increment follows a write to 0x2119. -/
def vramTrigger (vmain : Byte) : Bool := vmain.getLsbD 7

/-- A write to a VRAM data port (R94): `high` is true for 0x2119. An unsupported remap fails; the other half of the word is
kept; VADDR advances when the half written is the one TRIG selects. -/
def vramDataWrite (ppu : Ppu) (high : Bool) (v : Byte) : Except Fault Ppu :=
  if ppu.vmain.extractLsb' 2 2 ≠ 0 then raise (.unsupportedRemap ppu.vmain)
  else
    let word := Cells.read ppu.vram ppu.vaddr.toNat
    let word' := if high then joinBytes v (loByte word) else joinBytes (hiByte word) v
    let vaddr' := if vramTrigger ppu.vmain = high then ppu.vaddr + vramIncrement ppu.vmain else ppu.vaddr
    .ok { ppu with vram := Cells.write ppu.vram ppu.vaddr.toNat word', vaddr := vaddr' }

/-- A bus write to a PPU register (R91 to R96). -/
def ppuWrite (ppu : Ppu) (r : PpuReg) (v : Byte) : Except Fault Ppu :=
  match r with
  | .disp => .ok { ppu with disp := v }
  | .bgmode => .ok { ppu with bgmode := v }
  | .bgsc i => .ok { ppu with bgsc := ppu.bgsc.set i v }
  | .bgnba i => .ok { ppu with bgnba := ppu.bgnba.set i v }
  | .vmain => .ok { ppu with vmain := v }
  | .vmaddl => .ok { ppu with vaddr := joinBytes (hiByte ppu.vaddr) v }
  | .vmaddh => .ok { ppu with vaddr := joinBytes v (loByte ppu.vaddr) }
  | .vmdatal => vramDataWrite ppu false v
  | .vmdatah => vramDataWrite ppu true v
  | .cgadd => .ok { ppu with cgidx := 2 * v.setWidth 10 }
  | .cgdata => .ok { ppu with cgram := Cells.write ppu.cgram ppu.cgidx.toNat v, cgidx := ppu.cgidx + 1 }
  | .tm => .ok { ppu with tm := v }
  | .ts => .ok { ppu with ts := v }

/-! ### Register reads (R89, R90) -/

/-- A bus read of a system register: 0x420B reads 0x00, a DMA channel byte reads as stored, the others read the
placeholder. -/
def sysRead (s : State) (r : SysReg) : Byte :=
  match r with
  | .mdmaen => 0x00
  | .dma n k => s.dma[n].getByte k
  | .nmitimen | .hdmaen | .memsel => s.config.openBusPlaceholder

end Sys2Proof.Machine
end

