-- ==== Sys2Proof/Machine/Ops.lean ====
section
/-! DEFINITION. The memory bus and the DMA sequencer (20_memory.md): BusRead, the register writes with the sequencer behind
0x420B, BusWrite, the multi-byte accesses, the stack primitives, and how a step ends. Raising an error, which is all this
hardware has for taking an exception (60_exceptions.md R300, R306), is `raise` in Machine/Registers.lean; there is no return
from one. -/

namespace Sys2Proof.Machine

/-! ### Bus reads (R71) -/

/-- The ROM offset of a ROM-window address (R101): the masked bank times 0x8000, plus the address's place in the window
(`addr - 0x8000`, which is `addr mod 0x8000` for an address of the window; Sys2Proof.Laws.romOffset_eq). -/
def romOffset (s : State) (bank : Byte) (addr : Word) : Nat :=
  0x8000 * (bank &&& s.config.romBankMask).toNat + addr.toNat % 0x8000

/-- `BusRead(bank, addr)` (R71). It changes no state (R102). -/
def busRead (s : State) (bank : Byte) (addr : Word) : Except Fault Byte :=
  match decodeAddr addr with
  | .wram => .ok (Cells.read s.wram addr.toNat)
  | .rom =>
    match s.rom.read (romOffset s bank addr) with
    | some b => .ok b
    | none => raise (.unmappedAccess (bank ++ addr))
  | .ppu _ => .ok s.config.openBusPlaceholder
  | .sys r => .ok (sysRead s r)
  | .unmapped => raise (.unmappedAccess (bank ++ addr))

/-! ### The DMA sequencer (R104 to R113) -/

/-- The enable values' channels, lowest number first (R105). -/
def dmaChannels : List (Fin 7) := [0, 1, 2, 3, 4, 5, 6]

/-- The channels an enable value selects, in ascending order (R105). -/
def selectedChannels (v : Byte) : List (Fin 7) :=
  dmaChannels.filter (fun n => v.getLsbD n.val)

/-- CTRL's PAT field (R48). -/
def DmaChannel.pattern (ch : DmaChannel) : BitVec 3 := ch.ctrl.extractLsb' 0 3

/-- CTRL's ADJ field (R48). -/
def DmaChannel.adjust (ch : DmaChannel) : BitVec 2 := ch.ctrl.extractLsb' 3 2

/-- CTRL's DIR field (R48): true is controller register to CPU memory. -/
def DmaChannel.fromController (ch : DmaChannel) : Bool := ch.ctrl.getLsbD 7

/-- The executable modes (R107): DIR = 0 and PAT = 000 or 001. -/
def DmaChannel.supported (ch : DmaChannel) : Bool :=
  !ch.fromController && (ch.pattern == 0 || ch.pattern == 1)

/-- The number of bytes channel `ch` moves (R108). -/
def DmaChannel.count (cfg : Config) (ch : DmaChannel) : Nat :=
  if ch.size = 0 then
    match cfg.dmaZeroSizeCount with
    | .none => 0
    | .all64K => 65536
  else ch.size.toNat

/-- `Adjust(a, ADJ)` (R109). -/
def adjustSource (a : Word) (adj : BitVec 2) : Word :=
  match adj.toNat with
  | 0 => a + 1
  | 2 => a - 1
  | _ => a

/-- The destination register's low address byte for byte i of a transfer (R108). -/
def DmaChannel.destination (ch : DmaChannel) (i : Nat) : Byte :=
  if ch.pattern = 0 then ch.dest else ch.dest + BitVec.ofNat 8 (i % 2)

/-- The address `0x2100 | reg` of a destination register (R108). -/
def dmaAddress (reg : Byte) : Word := 0x2100#16 ||| zext16 reg

/-- The bus write of a DMA byte to `0x2100 | reg` (R108, R110). Such an address is a PPU register or unmapped, so this is
BusWrite without the registers from 0x4200 on (Sys2Proof.Laws.dmaWriteByte_eq_busWrite). -/
def dmaWriteByte (s : State) (reg : Byte) (v : Byte) : Except Fault State :=
  match decodeAddr (dmaAddress reg) with
  | .ppu r => do
    let ppu ← ppuWrite s.ppu r v
    return { s with ppu := ppu }
  | _ => raise (.unmappedAccess (0x00#8 ++ dmaAddress reg))

/-- The bytes i, i+1, … of a transfer, `k` of them, from source address `a` (R108): each byte's read is before its write. It
gives the state and the source address after the last byte. -/
def dmaRunBytes (ch : DmaChannel) : Nat → Nat → Word → State → Except Fault (State × Word)
  | 0, _, a, s => .ok (s, a)
  | k + 1, i, a, s => do
    let byte ← busRead s ch.sbank a
    let t ← dmaWriteByte s (ch.destination i) byte
    dmaRunBytes ch k (i + 1) (adjustSource a ch.adjust) t

/-- `RunChannel(n)` (R108). -/
def dmaRunChannel (s : State) (n : Fin 7) : Except Fault State := do
  let ch := s.dma[n]
  let (t, a) ← dmaRunBytes ch (ch.count s.config) 0 ch.src s
  if s.config.dmaWriteback then return { t with dma := t.dma.set n { ch with src := a, size := 0 } }
  else return t

/-- Every selected channel's mode is checked before any runs (R105). -/
def dmaValidate (s : State) : List (Fin 7) → Except Fault Unit
  | [] => .ok ()
  | n :: rest => if s.dma[n].supported then dmaValidate s rest else raise (.unsupportedDmaMode n.val)

/-- The channels of a list run one after the other. -/
def dmaRunChannels (s : State) : List (Fin 7) → Except Fault State
  | [] => .ok s
  | n :: rest => do
    let t ← dmaRunChannel s n
    dmaRunChannels t rest

/-- `RegWrite(0x420B, v)` (R97, R105): the enable value starts the transfers and is not stored. -/
def dmaTrigger (s : State) (v : Byte) : Except Fault State :=
  if v.getLsbD 7 then raise (.unsupportedDmaMode 7)
  else do
    dmaValidate s (selectedChannels v)
    dmaRunChannels s (selectedChannels v)

/-! ### Bus writes (R73) -/

/-- A bus write to a system register (R91, R97, R98). -/
def sysWrite (s : State) (r : SysReg) (v : Byte) : Except Fault State :=
  match r with
  | .nmitimen => .ok { s with nmitimen := v }
  | .mdmaen => dmaTrigger s v
  | .hdmaen => if v = 0x00 then .ok { s with hdmaen := 0x00 } else raise (.unsupportedDmaMode 8)
  | .memsel => .ok { s with memsel := v }
  | .dma n k => .ok { s with dma := s.dma.set n (s.dma[n].setByte k v) }

/-- `BusWrite(addr, v)` (R73): it carries no bank, and ROM is not writable. -/
def busWrite (s : State) (addr : Word) (v : Byte) : Except Fault State :=
  match decodeAddr addr with
  | .wram => .ok { s with wram := Cells.write s.wram addr.toNat v }
  | .ppu r => do
    let ppu ← ppuWrite s.ppu r v
    return { s with ppu := ppu }
  | .sys r => sysWrite s r v
  | .rom => raise (.unmappedAccess (0x00#8 ++ addr))
  | .unmapped => raise (.unmappedAccess (0x00#8 ++ addr))

/-! ### Multi-byte accesses (R74, R75) -/

/-- `MemRead(bank, addr, n)` at a width: low byte first, the second byte's address wraps within the bank; an 8-bit value is
zero-extended. -/
def memRead (s : State) (bank : Byte) (addr : Word) (w : Width) : Except Fault Word :=
  match w with
  | .w8 => do
    let lo ← busRead s bank addr
    return zext16 lo
  | .w16 => do
    let lo ← busRead s bank addr
    let hi ← busRead s bank (addr + 1)
    return joinBytes hi lo

/-- `MemWrite(addr, n, v)` at a width: low byte first, its side effects before the second write is decoded. -/
def memWrite (s : State) (addr : Word) (w : Width) (v : Word) : Except Fault State :=
  match w with
  | .w8 => busWrite s addr (loByte v)
  | .w16 => do
    let t ← busWrite s addr (loByte v)
    busWrite t (addr + 1) (hiByte v)

/-! ### The stack (R78 to R81) -/

/-- `0x01 : v[7:0]`, an address in page one (R35). -/
def pageOne (v : Word) : Word := joinBytes 0x01 (loByte v)

/-- S after a push of one byte (R78). -/
def spDown (e : Bool) (sp : Word) : Word := if e then pageOne (sp - 1) else sp - 1

/-- S after a pull of one byte (R79). -/
def spUp (e : Bool) (sp : Word) : Word := if e then pageOne (sp + 1) else sp + 1

/-- `Push8(v)` (R78): write at S in bank 0, then decrement. -/
def push8 (s : State) (v : Byte) : Except Fault State := do
  let t ← busWrite s s.sp v
  return { t with sp := spDown t.e t.sp }

/-- `Push16(v)` (R80): high byte first. -/
def push16 (s : State) (v : Word) : Except Fault State := do
  let t ← push8 s (hiByte v)
  push8 t (loByte v)

/-- `Pull8()` (R79): increment, then read bank 0 at S. It gives the state and the byte. -/
def pull8 (s : State) : Except Fault (State × Byte) := do
  let t := { s with sp := spUp s.e s.sp }
  let b ← busRead t 0x00 t.sp
  return (t, b)

/-- `Pull16()` (R81): low byte first. -/
def pull16 (s : State) : Except Fault (State × Word) := do
  let (t, lo) ← pull8 s
  let (u, hi) ← pull8 t
  return (u, joinBytes hi lo)

/-! ### The end of a step (R16, R143) -/

/-- `return cycles(n)`: the state with the count the step returns. -/
def State.ret (s : State) (n : Nat) : State := { s with cycles := n }

/-- What an instruction's effect makes of the step: its next state, or its error with no state (R15, R301). -/
def commit (r : Except Fault State) : Host.Outcome State Fault Refusal :=
  match r with
  | .ok s => .next s
  | .error f => .fault f

end Sys2Proof.Machine
end

