-- ==== Sys2Proof/Machine/Operands.lean ====
section
/-! DEFINITION. Effective addresses of the addressing modes (20_memory.md R83 to R86) and the operand shapes that several
instructions share: load, store, compare, push and pull of a register at a width. -/

namespace Sys2Proof.Machine

/-! ### Effective addresses -/

/-- Direct page (R84): `(D + zext_16(dp)) mod 2^16`, bank 0, no page wrap. -/
def directPage (s : State) (dp : Byte) : Word := s.d + zext16 dp

/-- Direct page indexed by X (R85): `(D + zext_16(dp) + low(X, wX)) mod 2^16`. -/
def directPageX (s : State) (dp : Byte) : Word := s.d + zext16 dp + low s.x s.widths.x

/-- The extra cycle of the STA and STX direct-page forms: 1 when D[7:0] is not 0 (R218, R219). -/
def directPagePenalty (s : State) : Nat := if loByte s.d = 0 then 0 else 1

/-! ### Register access -/

/-- A register that loads, transfers and pulls write at a width. -/
inductive DataReg where
  | a
  | x
  | y
deriving DecidableEq, Repr

/-- The register's 16 bits. -/
def State.get (s : State) (r : DataReg) : Word :=
  match r with
  | .a => s.a
  | .x => s.x
  | .y => s.y

/-- `setlow(r, w, v)` on the state (R12). -/
def State.setLow (s : State) (r : DataReg) (w : Width) (v : Word) : State :=
  match r with
  | .a => { s with a := Machine.setLow s.a w v }
  | .x => { s with x := Machine.setLow s.x w v }
  | .y => { s with y := Machine.setLow s.y w v }

/-- The register's active width (R31, R32). -/
def State.widthOfReg (s : State) (r : DataReg) : Width :=
  match r with
  | .a => s.widths.a
  | .x => s.widths.x
  | .y => s.widths.x

/-- `setZN(v, w)` on the state (R13). -/
def State.withZN (s : State) (v : Word) (w : Width) : State := { s with p := setZN s.p v w }

/-- `Compare(r, m, w)` on the state (R230). -/
def State.withCompare (s : State) (r m : Word) (w : Width) : State := { s with p := compareFlags s.p r m w }

/-- The index high bytes after a write that may have set P.X (R42, R205, R258): cleared under `X_FLAG_CLEARS_INDEX_HIGH`
when P.X = 1, else kept. -/
def State.settleIndexHigh (s : State) : State :=
  if s.config.xFlagClearsIndexHigh && getFlag s.p .x then
    { s with x := low s.x .w8, y := low s.y .w8 }
  else s

/-! ### Shared operand shapes -/

/-- Write a loaded or computed value to a register at its width and set Z and N of it. -/
def writeBack (s : State) (r : DataReg) (v : Word) : State :=
  (s.setLow r (s.widthOfReg r) v).withZN v (s.widthOfReg r)

/-- Load immediate (R210 to R212): 2 cycles at 8 bits, 3 at 16. -/
def loadImmediate (s : State) (r : DataReg) (imm : Word) : Except Fault State :=
  .ok ((writeBack s r imm).ret (byWidth (s.widthOfReg r) 2 3))

/-- Load absolute (R213, R214): from bank DBR, 4 cycles at 8 bits, 5 at 16. -/
def loadAbsolute (s : State) (r : DataReg) (a : Word) : Except Fault State := do
  let v ← memRead s s.dbr a (s.widthOfReg r)
  return (writeBack s r v).ret (byWidth (s.widthOfReg r) 4 5)

/-- Store a register at an effective address (R215 to R219): the bus has no bank for a write; Z and N follow the stored value
under `STORE_SETS_ZN`. -/
def storeRegister (s : State) (r : DataReg) (ea : Word) (cycles : Nat) : Except Fault State := do
  let w := s.widthOfReg r
  let v := low (s.get r) w
  let t ← memWrite s ea w v
  return (if s.config.storeSetsZn then t.withZN v w else t).ret cycles

/-- Store zero at width wA; the extra cycle follows wX (R220, R221). -/
def storeZero (s : State) (ea : Word) : Except Fault State := do
  let t ← memWrite s ea s.widths.a 0
  return t.ret (byWidth s.widths.x 4 5)

/-- Compare a register with a memory operand in bank DBR (R238, R240). -/
def compareAbsolute (s : State) (r : DataReg) (a : Word) (cycles : Nat) : Except Fault State := do
  let m ← memRead s s.dbr a (s.widthOfReg r)
  return (s.withCompare (s.get r) m (s.widthOfReg r)).ret cycles

/-- Compare a register with an immediate (R239, R241). -/
def compareImmediate (s : State) (r : DataReg) (imm : Word) (cycles : Nat) : Except Fault State :=
  .ok ((s.withCompare (s.get r) imm (s.widthOfReg r)).ret cycles)

/-- Push a register at its width (R250, R251): 3 cycles at 8 bits, 4 at 16. -/
def pushRegister (s : State) (r : DataReg) : Except Fault State :=
  match s.widthOfReg r with
  | .w8 => do
    let t ← push8 s (loByte (s.get r))
    return t.ret 3
  | .w16 => do
    let t ← push16 s (s.get r)
    return t.ret 4

/-- Pull a register at its width and set Z and N (R254, R255): 4 cycles at 8 bits, 5 at 16. -/
def pullRegister (s : State) (r : DataReg) : Except Fault State :=
  match s.widthOfReg r with
  | .w8 => do
    let (t, v) ← pull8 s
    return (writeBack t r (zext16 v)).ret 4
  | .w16 => do
    let (t, v) ← pull16 s
    return (writeBack t r v).ret 5

end Sys2Proof.Machine
end

