-- ==== Sys2Proof/Machine/Control.lean ====
section
/-! DEFINITION. Control transfer and halt (44_control.md). PC already holds the address of the byte after the instruction
(30_encoding.md R143). -/

namespace Sys2Proof.Machine

/-- JSR absolute (R270): pushes the address of its last byte. -/
def execJsr (a : Word) (s : State) : Host.Outcome State Fault Refusal :=
  commit (do
    let t ← push16 s (s.pc - 1)
    return State.ret { t with pc := a } 6)

/-- JSL (R271): pushes PBR, then the address of its last byte. -/
def execJsl (a : Word) (bank : Byte) (s : State) : Host.Outcome State Fault Refusal :=
  commit (do
    let t ← push8 s s.pbr
    let u ← push16 t (s.pc - 1)
    return State.ret { u with pbr := bank, pc := a } 8)

/-- RTS (R272). -/
def execRts (s : State) : Host.Outcome State Fault Refusal :=
  commit (do
    let (t, v) ← pull16 s
    return State.ret { t with pc := v + 1 } 6)

/-- RTL (R273). -/
def execRtl (s : State) : Host.Outcome State Fault Refusal :=
  commit (do
    let (t, v) ← pull16 s
    let (u, bk) ← pull8 t
    return State.ret { u with pbr := bk, pc := v + 1 } 6)

/-- JMP absolute (R274): PBR unchanged. -/
def execJmp (a : Word) (s : State) : Host.Outcome State Fault Refusal :=
  commit (.ok (State.ret { s with pc := a } 3))

/-- BNE (R275): taken when Z = 0; one cycle more when taken and one more while E = 1. -/
def execBne (rel : Byte) (s : State) : Host.Outcome State Fault Refusal :=
  let taken := !getFlag s.p .z
  commit (.ok (State.ret { s with pc := if taken then s.pc + sext16 rel else s.pc }
    (2 + (if taken then 1 else 0) + (if s.e then 1 else 0))))

/-- STP, the halt instruction (R276): raises Halted on every path; the state before the step stands. -/
def execStp (_s : State) : Host.Outcome State Fault Refusal :=
  commit (raise .halted)

end Sys2Proof.Machine
end

