-- ==== Sys2Proof/Machine/FlagMode.lean ====
section
/-! DEFINITION. Flag and mode instructions (40_flags_mode.md). -/

namespace Sys2Proof.Machine

/-- CLC, clear carry (R200). -/
def execClc (s : State) : Host.Outcome State Fault Refusal :=
  commit (.ok (State.ret { s with p := setFlag s.p .c false } 2))

/-- SEI, set IRQ-disable (R201). -/
def execSei (s : State) : Host.Outcome State Fault Refusal :=
  commit (.ok (State.ret { s with p := setFlag s.p .i true } 2))

/-- CLI, clear IRQ-disable (R202). -/
def execCli (s : State) : Host.Outcome State Fault Refusal :=
  commit (.ok (State.ret { s with p := setFlag s.p .i false } 2))

/-- XCE, exchange carry and emulation bits (R203): entering or staying in emulation mode puts S in page one. -/
def execXce (s : State) : Host.Outcome State Fault Refusal :=
  let t := getFlag s.p .c
  commit (.ok (State.ret
    { s with p := setFlag s.p .c s.e, e := t, sp := if t then pageOne s.sp else s.sp } 2))

/-- REP, reset status bits (R204). -/
def execRep (imm8 : Byte) (s : State) : Host.Outcome State Fault Refusal :=
  commit (.ok (State.ret { s with p := s.p &&& ~~~imm8 } 3))

/-- SEP, set status bits (R205). -/
def execSep (imm8 : Byte) (s : State) : Host.Outcome State Fault Refusal :=
  commit (.ok ((State.settleIndexHigh { s with p := s.p ||| imm8 }).ret 3))

end Sys2Proof.Machine
end

