-- ==== Sys2Proof/Machine/LoadStore.lean ====
section
/-! DEFINITION. Loads and stores (41_load_store.md). -/

namespace Sys2Proof.Machine

/-- LDA immediate (R210). -/
def execLdaImm (imm : Word) (s : State) : Host.Outcome State Fault Refusal := commit (loadImmediate s .a imm)

/-- LDX immediate (R211). -/
def execLdxImm (imm : Word) (s : State) : Host.Outcome State Fault Refusal := commit (loadImmediate s .x imm)

/-- LDY immediate (R212). -/
def execLdyImm (imm : Word) (s : State) : Host.Outcome State Fault Refusal := commit (loadImmediate s .y imm)

/-- LDA absolute (R213). -/
def execLdaAbs (a : Word) (s : State) : Host.Outcome State Fault Refusal := commit (loadAbsolute s .a a)

/-- LDX absolute (R214). -/
def execLdxAbs (a : Word) (s : State) : Host.Outcome State Fault Refusal := commit (loadAbsolute s .x a)

/-- STA absolute (R215). -/
def execStaAbs (a : Word) (s : State) : Host.Outcome State Fault Refusal :=
  commit (storeRegister s .a a (byWidth s.widths.a 4 5))

/-- STX absolute (R216). -/
def execStxAbs (a : Word) (s : State) : Host.Outcome State Fault Refusal :=
  commit (storeRegister s .x a (byWidth s.widths.x 4 5))

/-- STY absolute (R217). -/
def execStyAbs (a : Word) (s : State) : Host.Outcome State Fault Refusal :=
  commit (storeRegister s .y a (byWidth s.widths.x 4 5))

/-- STA direct page (R218). -/
def execStaDp (dp : Byte) (s : State) : Host.Outcome State Fault Refusal :=
  commit (storeRegister s .a (directPage s dp) (byWidth s.widths.a 3 4 + directPagePenalty s))

/-- STX direct page (R219). -/
def execStxDp (dp : Byte) (s : State) : Host.Outcome State Fault Refusal :=
  commit (storeRegister s .x (directPage s dp) (byWidth s.widths.x 3 4 + directPagePenalty s))

/-- STZ absolute (R220). -/
def execStzAbs (a : Word) (s : State) : Host.Outcome State Fault Refusal := commit (storeZero s a)

/-- STZ direct page indexed by X (R221): no cycle for D[7:0]. -/
def execStzDpX (dp : Byte) (s : State) : Host.Outcome State Fault Refusal := commit (storeZero s (directPageX s dp))

end Sys2Proof.Machine
end

