-- ==== Sys2Proof/Machine/Stack.lean ====
section
/-! DEFINITION. Stack instructions (43_stack.md). -/

namespace Sys2Proof.Machine

/-- PHA (R250). -/
def execPha (s : State) : Host.Outcome State Fault Refusal := commit (pushRegister s .a)

/-- PHX (R251). -/
def execPhx (s : State) : Host.Outcome State Fault Refusal := commit (pushRegister s .x)

/-- PHP (R252): the literal byte; E is not pushed. -/
def execPhp (s : State) : Host.Outcome State Fault Refusal :=
  commit (do
    let t ← push8 s s.p
    return t.ret 3)

/-- PHK (R253). -/
def execPhk (s : State) : Host.Outcome State Fault Refusal :=
  commit (do
    let t ← push8 s s.pbr
    return t.ret 3)

/-- PLA (R254). -/
def execPla (s : State) : Host.Outcome State Fault Refusal := commit (pullRegister s .a)

/-- PLX (R255). -/
def execPlx (s : State) : Host.Outcome State Fault Refusal := commit (pullRegister s .x)

/-- PLD (R256): always 16 bits. -/
def execPld (s : State) : Host.Outcome State Fault Refusal :=
  commit (do
    let (t, v) ← pull16 s
    return (State.withZN { t with d := v } v .w16).ret 5)

/-- PLB (R257): always 8 bits. -/
def execPlb (s : State) : Host.Outcome State Fault Refusal :=
  commit (do
    let (t, v) ← pull8 s
    return (State.withZN { t with dbr := v } (zext16 v) .w8).ret 4)

/-- PLP (R258): all eight bits, no flag computed. -/
def execPlp (s : State) : Host.Outcome State Fault Refusal :=
  commit (do
    let (t, v) ← pull8 s
    return (State.settleIndexHigh { t with p := v }).ret 4)

end Sys2Proof.Machine
end

