-- ==== Sys2Proof/Machine/TransferCompare.lean ====
section
/-! DEFINITION. Transfers, increments and compares (42_transfer_compare.md). -/

namespace Sys2Proof.Machine

/-- TCD (R231): all 16 bits of A, Z and N of the 16-bit value. -/
def execTcd (s : State) : Host.Outcome State Fault Refusal :=
  commit (.ok ((State.withZN { s with d := s.a } s.a .w16).ret 2))

/-- TCS (R232): page one while E = 1; no flag. -/
def execTcs (s : State) : Host.Outcome State Fault Refusal :=
  commit (.ok (State.ret { s with sp := if s.e then pageOne s.a else s.a } 2))

/-- TXS (R233): the width-masked X, page one while E = 1; Z and N of X at wX. -/
def execTxs (s : State) : Host.Outcome State Fault Refusal :=
  let w := s.widths.x
  let v := low s.x w
  commit (.ok ((State.withZN { s with sp := if s.e then pageOne v else v } v w).ret 2))

/-- INX (R234). -/
def execInx (s : State) : Host.Outcome State Fault Refusal :=
  commit (.ok ((writeBack s .x (low (low s.x s.widths.x + 1) s.widths.x)).ret 2))

/-- DEX (R235). -/
def execDex (s : State) : Host.Outcome State Fault Refusal :=
  commit (.ok ((writeBack s .x (low (low s.x s.widths.x - 1) s.widths.x)).ret 2))

/-- INA (R236). -/
def execIna (s : State) : Host.Outcome State Fault Refusal :=
  commit (.ok ((writeBack s .a (low (low s.a s.widths.a + 1) s.widths.a)).ret 2))

/-- XBA (R237): Z and N of the new low byte, 8-bit, whatever wA is. -/
def execXba (s : State) : Host.Outcome State Fault Refusal :=
  let v := joinBytes (loByte s.a) (hiByte s.a)
  commit (.ok ((State.withZN { s with a := v } v .w8).ret 3))

/-- CMP absolute (R238): 4 cycles at both widths. -/
def execCmpAbs (a : Word) (s : State) : Host.Outcome State Fault Refusal := commit (compareAbsolute s .a a 4)

/-- CMP immediate (R239): 4 cycles at both widths. -/
def execCmpImm (imm : Word) (s : State) : Host.Outcome State Fault Refusal := commit (compareImmediate s .a imm 4)

/-- CPX absolute (R240). -/
def execCpxAbs (a : Word) (s : State) : Host.Outcome State Fault Refusal :=
  commit (compareAbsolute s .x a (byWidth s.widths.x 2 3))

/-- CPX immediate (R241). -/
def execCpxImm (imm : Word) (s : State) : Host.Outcome State Fault Refusal :=
  commit (compareImmediate s .x imm (byWidth s.widths.x 2 3))

end Sys2Proof.Machine
end

