-- ==== Sys2Proof/Machine/Dispatch.lean ====
section
/-! DEFINITION. One arm per instruction. -/

namespace Sys2Proof.Machine

def exec (i : Instr) (s : State) : Host.Outcome State Fault Refusal :=
  match i with
  | .clc => Sys2Proof.Machine.execClc s
  | .sei => Sys2Proof.Machine.execSei s
  | .cli => Sys2Proof.Machine.execCli s
  | .xce => Sys2Proof.Machine.execXce s
  | .rep imm8 => Sys2Proof.Machine.execRep imm8 s
  | .sep imm8 => Sys2Proof.Machine.execSep imm8 s
  | .ldaImm imm => Sys2Proof.Machine.execLdaImm imm s
  | .ldxImm imm => Sys2Proof.Machine.execLdxImm imm s
  | .ldyImm imm => Sys2Proof.Machine.execLdyImm imm s
  | .ldaAbs a => Sys2Proof.Machine.execLdaAbs a s
  | .ldxAbs a => Sys2Proof.Machine.execLdxAbs a s
  | .staAbs a => Sys2Proof.Machine.execStaAbs a s
  | .stxAbs a => Sys2Proof.Machine.execStxAbs a s
  | .styAbs a => Sys2Proof.Machine.execStyAbs a s
  | .staDp dp => Sys2Proof.Machine.execStaDp dp s
  | .stxDp dp => Sys2Proof.Machine.execStxDp dp s
  | .stzAbs a => Sys2Proof.Machine.execStzAbs a s
  | .stzDpX dp => Sys2Proof.Machine.execStzDpX dp s
  | .tcd => Sys2Proof.Machine.execTcd s
  | .tcs => Sys2Proof.Machine.execTcs s
  | .txs => Sys2Proof.Machine.execTxs s
  | .inx => Sys2Proof.Machine.execInx s
  | .dex => Sys2Proof.Machine.execDex s
  | .ina => Sys2Proof.Machine.execIna s
  | .xba => Sys2Proof.Machine.execXba s
  | .cmpAbs a => Sys2Proof.Machine.execCmpAbs a s
  | .cmpImm imm => Sys2Proof.Machine.execCmpImm imm s
  | .cpxAbs a => Sys2Proof.Machine.execCpxAbs a s
  | .cpxImm imm => Sys2Proof.Machine.execCpxImm imm s
  | .pha => Sys2Proof.Machine.execPha s
  | .phx => Sys2Proof.Machine.execPhx s
  | .php => Sys2Proof.Machine.execPhp s
  | .phk => Sys2Proof.Machine.execPhk s
  | .pla => Sys2Proof.Machine.execPla s
  | .plx => Sys2Proof.Machine.execPlx s
  | .pld => Sys2Proof.Machine.execPld s
  | .plb => Sys2Proof.Machine.execPlb s
  | .plp => Sys2Proof.Machine.execPlp s
  | .jsr a => Sys2Proof.Machine.execJsr a s
  | .jsl a bank => Sys2Proof.Machine.execJsl a bank s
  | .rts => Sys2Proof.Machine.execRts s
  | .rtl => Sys2Proof.Machine.execRtl s
  | .jmp a => Sys2Proof.Machine.execJmp a s
  | .bne rel => Sys2Proof.Machine.execBne rel s
  | .stp => Sys2Proof.Machine.execStp s

end Sys2Proof.Machine
end

