-- ==== Sys2Proof/Machine/Fetch.lean ====
section
/-! DEFINITION. Instruction fetch and decode within a step (20_memory.md R77; 30_encoding.md R143, R146, R147), and where a
fetched instruction's bytes lie. -/

namespace Sys2Proof.Machine

/-- `Fetch8()` (R77): the byte at (PBR, PC), PC advanced within the bank. -/
def fetch8 (s : State) : Except Fault (State × Byte) := do
  let b ← busRead s s.pbr s.pc
  return ({ s with pc := s.pc + 1 }, b)

/-- Fetch `n` bytes in order with Fetch8. -/
def fetchBytes : Nat → State → Except Fault (State × List Byte)
  | 0, s => .ok (s, [])
  | n + 1, s => do
    let (t, b) ← fetch8 s
    let (u, bs) ← fetchBytes n t
    return (u, b :: bs)

/-- The error of an opcode byte that is not in the map: `UnimplementedInstruction` for a byte of
`RECOGNISED_UNIMPLEMENTED`, else `UnknownOpcode` (R143, R146, R147). -/
def notInMapFault (cfg : Config) (op : Byte) : Fault :=
  match cfg.recognisedUnimplemented.lookup op with
  | some mode => .unimplementedInstruction op mode
  | none => .unknownOpcode op

/-- The decoder's part of a step (R143): the opcode byte, then the operand bytes of its format at the widths of the start of
the step. It gives the state with PC after the instruction, and the instruction. -/
def fetchInstr (s : State) : Except Fault (State × Instr) := do
  let (t, op) ← fetch8 s
  match opcodeRow? op with
  | none => raise (notInMapFault s.config op)
  | some row => do
    let (u, operands) ← fetchBytes (row.format.operandBytes s.widths) t
    return (u, row.make (OperandBytes.ofList operands))

/-! ### Placing an instruction where the next step fetches it (assumption log 3) -/

/-- The address is memory: work RAM or the ROM window. -/
def isMemory (addr : Word) : Bool :=
  match decodeAddr addr with
  | .wram => true
  | .rom => true
  | _ => false

/-- Set the byte a fetch at (PBR, addr) reads: in work RAM, or in the cartridge image, which grows to hold it. -/
def pokeFetchByte (s : State) (addr : Word) (b : Byte) : State :=
  match decodeAddr addr with
  | .wram => { s with wram := Cells.write s.wram addr.toNat b }
  | .rom =>
    let off := romOffset s s.pbr addr
    { s with rom := ⟨max s.rom.length (off + 1), Cells.write s.rom.bytes off b⟩ }
  | _ => s

/-- Set the bytes a fetch reads from an address on. -/
def pokeFetchBytes (s : State) (addr : Word) : List Byte → State
  | [] => s
  | b :: rest => pokeFetchBytes (pokeFetchByte s addr b) (addr + 1) rest

/-- The longest instruction at PC lies in memory alone. -/
def fetchWindowIsMemory (s : State) : Bool :=
  isMemory s.pc && isMemory (s.pc + 1) && isMemory (s.pc + 2) && isMemory (s.pc + 3)

/-- The state with an instruction's bytes where the next step fetches; PC moves to 0x0000 in work RAM when the bytes at PC
are not all memory. -/
def placeInstruction (s : State) (bytes : List Byte) : State :=
  let t := if fetchWindowIsMemory s then s else { s with pc := 0x0000 }
  pokeFetchBytes t t.pc bytes

end Sys2Proof.Machine
end

