-- ==== Sys2Proof/Machine/Step.lean ====
section
/-! DEFINITION. One step (30_encoding.md R143) and the placing of an instruction for it. -/

namespace Sys2Proof.Machine

/-- `Step()` (R143): fetch one instruction, which advances PC past it, and execute it. An error leaves the state before the
step as it was (R15), which the outcome says by holding no state. -/
def step (s : State) : Host.Outcome State Fault Refusal :=
  match fetchInstr s with
  | .ok (t, i) => exec i t
  | .error f => .fault f

/-- `s` with the instruction of a table word stored where `step` fetches its next instruction (assumption log 3). -/
def State.withFetchWord (s : State) (nbits w : Nat) : State :=
  placeInstruction s (tableWordBytes nbits w)

end Sys2Proof.Machine
end

