-- ==== Sys2Proof/Machine/Cartridge.lean ====
section
/-! DEFINITION. The cartridge image and its header (20_memory.md R100). Of the header the machine reads only the reset
vector. -/

namespace Sys2Proof.Machine

/-- The cells of an array, from index `i` on. -/
def Cells.ofListFrom {w : Nat} : Nat → List (BitVec w) → Cells w
  | _, [] => []
  | i, v :: rest => if v = 0 then Cells.ofListFrom (i + 1) rest else (i, v) :: Cells.ofListFrom (i + 1) rest

/-- The image made of a byte array (R43). -/
def Rom.ofList (bytes : List Byte) : Rom := ⟨bytes.length, Cells.ofListFrom 0 bytes⟩

/-- A byte of the image as the header parser reads it; the header lies below 0x8000, inside every image (R100, R341). -/
def Rom.byte (r : Rom) (off : Nat) : Byte := Cells.read r.bytes off

/-- The reset vector `ROM[0x7FFD] : ROM[0x7FFC]` (R100, R340). -/
def Rom.resetVector (r : Rom) : Word := joinBytes (r.byte 0x7FFD) (r.byte 0x7FFC)

/-- The header fields of R100. The checksum complement is one byte, as the source says (90_conflicts.md C8). -/
structure Header where
  title : List Byte
  makeup : Byte
  romType : Byte
  romSizeByte : Byte
  sramSizeByte : Byte
  license : Word
  version : Byte
  checksumComplement : Byte
  checksum : Word
  resetVector : Word
deriving DecidableEq, Repr

/-- The header parsed from an image at the offsets of R100. -/
def Rom.header (r : Rom) : Header where
  title := (List.range 21).map (fun i => r.byte (0x7FC0 + i))
  makeup := r.byte 0x7FD5
  romType := r.byte 0x7FD6
  romSizeByte := r.byte 0x7FD7
  sramSizeByte := r.byte 0x7FD8
  license := joinBytes (r.byte 0x7FDA) (r.byte 0x7FD9)
  version := r.byte 0x7FDB
  checksumComplement := r.byte 0x7FDC
  checksum := joinBytes (r.byte 0x7FDF) (r.byte 0x7FDE)
  resetVector := r.resetVector

/-- `0x400 << byte` in unbounded arithmetic (R100). -/
def parsedSize (b : Byte) : Nat := 0x400 * 2 ^ b.toNat

/-- `romSize` (R100); the bus uses the image's own length, not this. -/
def Header.romSize (h : Header) : Nat := parsedSize h.romSizeByte

/-- `sramSize` (R100). -/
def Header.sramSize (h : Header) : Nat := parsedSize h.sramSizeByte

end Sys2Proof.Machine
end

