-- ==== Sys2Proof/Machine/Reset.lean ====
section
/-! DEFINITION. Reset and power-on (70_reset_and_hazards.md R340, R341). Neither is a step: they are requests of the host
(60_exceptions.md R320). -/

namespace Sys2Proof.Machine

/-- The reset request (R340): everything the rule does not list keeps its value (R60). Reset returns no cycle count, held as
0 (assumption log 5). -/
def State.applyReset (s : State) : State :=
  { s with
    pc := s.rom.resetVector
    pbr := 0x00
    dbr := 0x00
    p := s.config.resetP ||| 0x20
    e := true
    a := 0x0000
    x := 0x0000
    y := 0x0000
    d := 0x0000
    sp := s.config.resetSp
    ppu := { s.ppu with disp := 0x00 }
    hdmaen := 0x00
    memsel := 0x00
    dma := Vector.replicate 7 DmaChannel.zero
    cycles := 0 }

/-- The bounds R10 and Part 2 of 93_implementation_defined.md put on the parameters: `RESET_SP` in page one, and
`RECOGNISED_UNIMPLEMENTED` a map from bytes outside the opcode map (assumption log 8). -/
def Config.inBounds (cfg : Config) : Bool :=
  let keys := cfg.recognisedUnimplemented.map (fun entry => entry.1)
  hiByte cfg.resetSp == 0x01 && keys.all (fun op => (opcodeRow? op).isNone) && decide keys.Nodup

/-- Power-on (R341): WRAM is `WRAM_INIT`, everything else zero, and then reset. An image with no reset vector is refused. -/
def powerOn (cfg : Config) (rom : Rom) (wramInit : Memory) : Host.Outcome State Fault Refusal :=
  if rom.length < 0x8000 then .refused (.romTooShort rom.length)
  else if !Config.inBounds cfg then .refused .parametersOutOfBounds
  else .next (State.applyReset { State.reset with wram := wramInit, rom := rom, config := cfg })

end Sys2Proof.Machine
end

