-- ==== Sys2Proof/Machine/HostPort.lean ====
section
/-! DEFINITION. The host interfaces (60_exceptions.md R300 to R302, R310, R320): the response to a step request, the state
after it, the error codes, and the read-only inspection port. -/

namespace Sys2Proof.Machine

/-- The code of an error on the hardware error port (R300). -/
def Fault.code (f : Fault) : Nat :=
  match f with
  | .unknownOpcode _ => 0
  | .unimplementedInstruction _ _ => 1
  | .unmappedAccess _ => 2
  | .unsupportedDmaMode _ => 3
  | .unsupportedRemap _ => 4
  | .halted => 5

/-- The response to a step request: `Ok(cycles)` or an error (R300); `none` stands for a refusal, which no step gives. -/
inductive Response where
  | ok (cycles : Nat)
  | error (f : Fault)
  | none
deriving DecidableEq, Repr

/-- A step request (R320): the response and the state after it. A step that returns an error never changes state (R301,
R302). -/
def stepRequest (s : State) : Response × State :=
  match step s with
  | .next t => (.ok t.cycles, t)
  | .fault f => (.error f, s)
  | .refused _ => (.none, s)

/-! ### The inspection port (R320): never a placeholder, never an error inside the memory, no side effect -/

/-- A byte of work RAM. -/
def inspectWram (s : State) (i : Nat) : Byte := Cells.read s.wram i

/-- A byte of the cartridge image; none beyond its length. -/
def inspectRom (s : State) (off : Nat) : Option Byte := s.rom.read off

/-- A word of VRAM. -/
def inspectVram (s : State) (i : Word) : Word := Cells.read s.ppu.vram i.toNat

/-- A byte of CGRAM. -/
def inspectCgram (s : State) (i : BitVec 10) : Byte := Cells.read s.ppu.cgram i.toNat

/-- The stored byte of the register at an address of R46; none for an address with nothing stored. For 0x2121 it is the low
byte of CGIDX. -/
def inspectRegister (s : State) (addr : Word) : Option Byte :=
  match decodeAddr addr with
  | .ppu .disp => some s.ppu.disp
  | .ppu .bgmode => some s.ppu.bgmode
  | .ppu (.bgsc i) => some s.ppu.bgsc[i]
  | .ppu (.bgnba i) => some s.ppu.bgnba[i]
  | .ppu .vmain => some s.ppu.vmain
  | .ppu .vmaddl => some (loByte s.ppu.vaddr)
  | .ppu .vmaddh => some (hiByte s.ppu.vaddr)
  | .ppu .vmdatal => none
  | .ppu .vmdatah => none
  | .ppu .cgadd => some (s.ppu.cgidx.setWidth 8)
  | .ppu .cgdata => none
  | .ppu .tm => some s.ppu.tm
  | .ppu .ts => some s.ppu.ts
  | .sys .nmitimen => some s.nmitimen
  | .sys .mdmaen => none
  | .sys .hdmaen => some s.hdmaen
  | .sys .memsel => some s.memsel
  | .sys (.dma n k) => some (s.dma[n].getByte k)
  | .wram => none
  | .rom => none
  | .unmapped => none

end Sys2Proof.Machine
end

