-- ==== Sys2Proof/Safety.lean ====
section
/-! DEFINITION. What the model's statements count as a safe state and a safe run: the invariants that every step keeps, and how
a run ends (60_exceptions.md R310). -/

namespace Sys2Proof.Safety

open Sys2Proof.Machine

/-- Every memory is in its canonical form. -/
def memoriesCanonical (s : State) : Bool :=
  Memory.wf s.wram && Cells.wf vramSize s.ppu.vram && Cells.wf cgramSize s.ppu.cgram && Cells.wf s.rom.length s.rom.bytes

/-- While E = 1, S[15:8] = 0x01 (10_state.md R35). -/
def stackInPageOne (s : State) : Bool := !s.e || hiByte s.sp == 0x01

/-- HDMAEN only ever holds 0x00 (10_state.md R50). -/
def hdmaDisabled (s : State) : Bool := s.hdmaen == 0x00

/-- Under `X_FLAG_CLEARS_INDEX_HIGH`, X[15:8] and Y[15:8] are 0 while P.X = 1 (10_state.md R42). -/
def indexHighSettled (s : State) : Bool :=
  !(s.config.xFlagClearsIndexHigh && getFlag s.p .x) || (hiByte s.x == 0x00 && hiByte s.y == 0x00)

/-- The invariant of every state the machine reaches. -/
structure Inv (s : State) : Prop where
  canonical : memoriesCanonical s = true
  pageOne : stackInPageOne s = true
  hdma : hdmaDisabled s = true
  indexHigh : indexHighSettled s = true

/-- How a run of at most `k` steps stands (R310): still running, ended normally at the halt instruction, or ended in a fault.
The last two hold the state before the failing step, which is the end state. -/
inductive RunEnd where
  | running (s : State)
  | halted (s : State)
  | faulted (s : State) (f : Fault)
  | refused (r : Refusal)
deriving DecidableEq, Repr

/-- Run at most `k` steps. -/
def run : Nat → State → RunEnd
  | 0, s => .running s
  | k + 1, s =>
    match step s with
    | .next t => run k t
    | .fault .halted => .halted s
    | .fault f => .faulted s f
    | .refused r => .refused r

/-- A run is safe for `k` steps when it is still running or has halted (R304, R310). -/
def safeFor (k : Nat) (s : State) : Bool :=
  match run k s with
  | .running _ => true
  | .halted _ => true
  | .faulted _ _ => false
  | .refused _ => false

end Sys2Proof.Safety
end

