-- ==== Sys2Proof/Certificates/Slice0/Obligations.lean ====
section
/-! DEFINITION. The statements about the model. `Sys2Proof.Spec` writes the spec's notation (R11 to R16), its bus-level relations
and its register list out again in its own terms, so that a statement does not repeat the definition it is about. -/

namespace Sys2Proof.Spec

open Sys2Proof.Machine

/-! ### Notation of 00_scope.md -/

/-- The bits of a width. -/
def bits (w : Width) : Nat := match w with | .w8 => 8 | .w16 => 16

/-- `mask(w)` (R12). -/
def mask (w : Width) : Word := match w with | .w8 => 0x00FF | .w16 => 0xFFFF

/-- `low(r, w) = r & mask(w)` (R12). -/
def lowBits (r : Word) (w : Width) : Word := r &&& mask w

/-- The register after `setlow(r, w, v)`: `(r & ~mask(w)) | (v & mask(w))` (R12). -/
def merged (r : Word) (w : Width) (v : Word) : Word := (r &&& ~~~mask w) ||| (v &&& mask w)

/-- P after `setZN(v, w)` (R13): bit 1 and bit 7 written, the six others kept. -/
def withZN (p : Byte) (v : Word) (w : Width) : Byte :=
  (p &&& 0x7D) ||| (if v &&& mask w = 0 then 0x02 else 0x00) ||| (if v.getLsbD (bits w - 1) then 0x80 else 0x00)

/-- P after `Compare(r, m, w)` (R230): C is unsigned a >= b, Z and N are of the difference at width w. -/
def withCompare (p : Byte) (r m : Word) (w : Width) : Byte :=
  withZN ((p &&& 0xFE) ||| (if (lowBits m w).toNat ≤ (lowBits r w).toNat then 0x01 else 0x00))
    (lowBits r w - lowBits m w) w

/-- wA (R40): P.M is bit 5. -/
def wA (s : State) : Width :=
  if s.p &&& 0x20 ≠ 0 ∨ (s.config.emuForcesWidth = true ∧ s.e = true) then .w8 else .w16

/-- wX (R40): P.X is bit 4. -/
def wX (s : State) : Width :=
  if s.p &&& 0x10 ≠ 0 ∨ (s.config.emuForcesWidth = true ∧ s.e = true) then .w8 else .w16

/-- `w == 8 ? n8 : n16`. -/
def count (w : Width) (n8 n16 : Nat) : Nat := match w with | .w8 => n8 | .w16 => n16

/-- The bytes decode, with anything after them, to this instruction and leave the rest. -/
def DecodesAs (wd : Widths) (bytes : List Byte) (i : Instr) : Prop :=
  ∀ rest, decode wd (bytes ++ rest) = .ok (i, rest)

/-- The operand bytes of a u16, low byte first. -/
def bytesOf (v : Word) : List Byte := [v.extractLsb' 0 8, v.extractLsb' 8 8]

/-! ### Memory and stack primitives of 20_memory.md as relations -/

/-- MemRead answers `v` (R74). -/
def Reads (s : State) (bank : Byte) (a : Word) (w : Width) (v : Word) : Prop :=
  match w with
  | .w8 => ∃ lo, busRead s bank a = .ok lo ∧ v = 0x00#8 ++ lo
  | .w16 => ∃ lo hi, busRead s bank a = .ok lo ∧ busRead s bank (a + 1) = .ok hi ∧ v = hi ++ lo

/-- MemRead raises `f`: the low byte's error first (R74, R303). -/
def ReadFails (s : State) (bank : Byte) (a : Word) (w : Width) (f : Fault) : Prop :=
  busRead s bank a = .error f ∨ (w = .w16 ∧ (∃ lo, busRead s bank a = .ok lo) ∧ busRead s bank (a + 1) = .error f)

/-- MemWrite answers the state `t` (R75). -/
def Writes (s : State) (a : Word) (w : Width) (v : Word) (t : State) : Prop :=
  match w with
  | .w8 => busWrite s a (v.extractLsb' 0 8) = .ok t
  | .w16 => ∃ u, busWrite s a (v.extractLsb' 0 8) = .ok u ∧ busWrite u (a + 1) (v.extractLsb' 8 8) = .ok t

/-- MemWrite raises `f` (R75, R303). -/
def WriteFails (s : State) (a : Word) (w : Width) (v : Word) (f : Fault) : Prop :=
  busWrite s a (v.extractLsb' 0 8) = .error f ∨
    (w = .w16 ∧ ∃ u, busWrite s a (v.extractLsb' 0 8) = .ok u ∧ busWrite u (a + 1) (v.extractLsb' 8 8) = .error f)

/-- S one lower, within page one while E = 1 (R78). -/
def down (e : Bool) (sp : Word) : Word := if e then 0x0100 ||| ((sp - 1) &&& 0x00FF) else sp - 1

/-- S one higher, within page one while E = 1 (R79). -/
def up (e : Bool) (sp : Word) : Word := if e then 0x0100 ||| ((sp + 1) &&& 0x00FF) else sp + 1

/-- Push8 answers `t` (R78). -/
def Push8 (s : State) (v : Byte) (t : State) : Prop :=
  ∃ u, busWrite s s.sp v = .ok u ∧ t = { u with sp := down s.e s.sp }

/-- Push16 answers `t`: high byte, then low byte (R80). -/
def Push16 (s : State) (v : Word) (t : State) : Prop :=
  ∃ u, Push8 s (v.extractLsb' 8 8) u ∧ Push8 u (v.extractLsb' 0 8) t

/-- A push of a value at a width (R250, R251). -/
def PushAt (w : Width) (s : State) (v : Word) (t : State) : Prop :=
  match w with | .w8 => Push8 s (v.extractLsb' 0 8) t | .w16 => Push16 s v t

/-- Push8 raises `f`. -/
def Push8Fails (s : State) (v : Byte) (f : Fault) : Prop := busWrite s s.sp v = .error f

/-- Push16 raises `f`. -/
def Push16Fails (s : State) (v : Word) (f : Fault) : Prop :=
  Push8Fails s (v.extractLsb' 8 8) f ∨ ∃ u, Push8 s (v.extractLsb' 8 8) u ∧ Push8Fails u (v.extractLsb' 0 8) f

/-- A push of a value at a width raises `f`. -/
def PushAtFails (w : Width) (s : State) (v : Word) (f : Fault) : Prop :=
  match w with | .w8 => Push8Fails s (v.extractLsb' 0 8) f | .w16 => Push16Fails s v f

/-- The byte a pull reads (R79): bank 0 at S one higher. -/
def PullsByte (s : State) (sp : Word) (v : Byte) : Prop := busRead s 0x00 (up s.e sp) = .ok v

/-- A pull of a value at a width reads `v`, low byte first (R79, R81). -/
def PullsAt (w : Width) (s : State) (v : Word) : Prop :=
  match w with
  | .w8 => ∃ lo, PullsByte s s.sp lo ∧ v = 0x00#8 ++ lo
  | .w16 => ∃ lo hi, PullsByte s s.sp lo ∧ PullsByte s (up s.e s.sp) hi ∧ v = hi ++ lo

/-- A pull of a value at a width raises `f`. -/
def PullAtFails (w : Width) (s : State) (f : Fault) : Prop :=
  busRead s 0x00 (up s.e s.sp) = .error f ∨
    (w = .w16 ∧ (∃ lo, PullsByte s s.sp lo) ∧ busRead s 0x00 (up s.e (up s.e s.sp)) = .error f)

/-- S after a pull at a width. -/
def pulledSp (w : Width) (s : State) : Word :=
  match w with | .w8 => up s.e s.sp | .w16 => up s.e (up s.e s.sp)

/-! ### The opcode bytes and the register addresses -/

/-- The 45 opcode bytes of R144, in its order. -/
def opcodeBytes : List Byte :=
  [0x18, 0x78, 0x58, 0xFB, 0xC2, 0xE2, 0xA9, 0xA2, 0xA0, 0xAD, 0xAE, 0x8D, 0x8E, 0x8C, 0x85, 0x86, 0x9C, 0x74] ++
  [0x5B, 0x1B, 0x9A, 0xE8, 0xCA, 0x1A, 0xEB, 0xCD, 0xC9, 0xEC, 0xE0, 0x48, 0xDA, 0x08, 0x4B, 0x68, 0xFA, 0x2B] ++
  [0xAB, 0x28, 0x20, 0x22, 0x60, 0x6B, 0x4C, 0xD0, 0xDB]

/-- The addresses of R46 outside the DMA channels and 0x420B. -/
def placeholderAddresses : List Nat :=
  [0x2100, 0x2105, 0x2107, 0x2108, 0x2109, 0x210A, 0x210B, 0x210C, 0x2115, 0x2116, 0x2117, 0x2118, 0x2119, 0x2121,
    0x2122, 0x212C, 0x212D, 0x4200, 0x420C, 0x420D]

/-- The address of byte k of DMA channel n: 0x43nk (R47). -/
def channelAddress (n k : Nat) : Word := BitVec.ofNat 16 (0x4300 + 16 * n + k)

/-- An address of 0x2000 to 0x7FFF that is no register of R46 (R72). -/
def unmappedAddress (addr : Word) : Prop :=
  0x2000 ≤ addr.toNat ∧ addr.toNat ≤ 0x7FFF ∧ addr.toNat ∉ placeholderAddresses ∧ addr.toNat ≠ 0x420B ∧
    ∀ n k : Fin 7, addr ≠ channelAddress n.val k.val

/-! ### DMA (R105 to R109) -/

/-- A channel mode that runs: DIR = 0 and PAT = 000 or 001 (R107). -/
def runs (ctrl : Byte) : Prop := ctrl &&& 0x87 = 0x00 ∨ ctrl &&& 0x87 = 0x01

/-- The source address of the next byte (R109). -/
def adjusted (ctrl : Byte) (a : Word) : Word :=
  if ctrl &&& 0x18 = 0x00 then a + 1 else if ctrl &&& 0x18 = 0x10 then a - 1 else a

/-- The low byte of byte i's destination (R108). -/
def destination (ch : DmaChannel) (i : Nat) : Byte :=
  if ch.ctrl &&& 0x07 = 0x00 then ch.dest else ch.dest + BitVec.ofNat 8 (i % 2)

/-- Bytes i to i + k - 1 of a transfer from source address `a`, each an ordinary bus read and then an ordinary bus write
(R108, R110, R111), lead from `s` to `t` and leave the source address at `b`. -/
def Transfers (ch : DmaChannel) : Nat → Nat → Word → State → State → Word → Prop
  | 0, _, a, s, t, b => t = s ∧ b = a
  | k + 1, i, a, s, t, b =>
    ∃ v u, busRead s ch.sbank a = .ok v ∧ busWrite s (0x2100 ||| (destination ch i).setWidth 16) v = .ok u ∧
      Transfers ch k (i + 1) (adjusted ch.ctrl a) u t b

/-- The bytes a channel moves (R108). -/
def byteCount (cfg : Config) (ch : DmaChannel) : Nat :=
  if ch.size = 0 then (if cfg.dmaZeroSizeCount = .all64K then 65536 else 0) else ch.size.toNat

/-- Writes to 0x420B of one channel's bit after the other, lowest channel first. -/
def triggerEach (v : Byte) : List (Fin 7) → State → Except Fault State
  | [], s => .ok s
  | n :: rest, s =>
    if v.getLsbD n.val then
      match busWrite s 0x420B (1#8 <<< n.val) with
      | .ok t => triggerEach v rest t
      | .error f => .error f
    else triggerEach v rest s

/-- INC of VMAIN (R49). -/
def vramStep (vmain : Byte) : Word := if vmain &&& 0x03 = 0x00 then 1 else if vmain &&& 0x03 = 0x01 then 32 else 128

/-! ### Storing instructions -/

/-- The width a storing instruction writes and the address it stores to: that of its operand for the stores (R215 to R221);
none for an instruction that does not store by an addressing mode. -/
def storeTarget (i : Instr) (s : State) : Option (Width × Word) :=
  match i with
  | .staAbs a => some (wA s, a)
  | .stxAbs a => some (wX s, a)
  | .styAbs a => some (wX s, a)
  | .staDp dp => some (wA s, directPage s dp)
  | .stxDp dp => some (wX s, directPage s dp)
  | .stzAbs a => some (wA s, a)
  | .stzDpX dp => some (wA s, directPageX s dp)
  | .clc | .sei | .cli | .xce | .rep _ | .sep _ => none
  | .ldaImm _ | .ldxImm _ | .ldyImm _ | .ldaAbs _ | .ldxAbs _ => none
  | .tcd | .tcs | .txs | .inx | .dex | .ina | .xba => none
  | .cmpAbs _ | .cmpImm _ | .cpxAbs _ | .cpxImm _ => none
  | .pha | .phx | .php | .phk => none
  | .pla | .plx | .pld | .plb | .plp => none
  | .jsr _ | .jsl _ _ | .rts | .rtl | .jmp _ | .bne _ | .stp => none

/-- The bytes a stack instruction pushes, in order (R250 to R253, R270, R271); none for an instruction that pushes nothing. -/
def pushedBytes (i : Instr) (s : State) : Option (List Byte) :=
  let word (v : Word) : List Byte := [v.extractLsb' 8 8, v.extractLsb' 0 8]
  let at_ (w : Width) (v : Word) : List Byte := match w with | .w8 => [v.extractLsb' 0 8] | .w16 => word v
  match i with
  | .pha => some (at_ (wA s) s.a)
  | .phx => some (at_ (wX s) s.x)
  | .php => some [s.p]
  | .phk => some [s.pbr]
  | .jsr _ => some (word (s.pc - 1))
  | .jsl _ _ => some (s.pbr :: word (s.pc - 1))
  | .clc | .sei | .cli | .xce | .rep _ | .sep _ => none
  | .ldaImm _ | .ldxImm _ | .ldyImm _ | .ldaAbs _ | .ldxAbs _ => none
  | .staAbs _ | .stxAbs _ | .styAbs _ | .staDp _ | .stxDp _ | .stzAbs _ | .stzDpX _ => none
  | .tcd | .tcs | .txs | .inx | .dex | .ina | .xba => none
  | .cmpAbs _ | .cmpImm _ | .cpxAbs _ | .cpxImm _ => none
  | .pla | .plx | .pld | .plb | .plp => none
  | .rts | .rtl | .jmp _ | .bne _ | .stp => none

/-- The addresses that `n` pushes from S write to. -/
def pushAddresses (e : Bool) : Nat → Word → List Word
  | 0, _ => []
  | n + 1, sp => sp :: pushAddresses e n (down e sp)

/-- The instruction writes memory: it stores or pushes. -/
def writesMemory (i : Instr) : Bool :=
  match i with
  | .staAbs _ | .stxAbs _ | .styAbs _ | .staDp _ | .stxDp _ | .stzAbs _ | .stzDpX _ => true
  | .pha | .phx | .php | .phk | .jsr _ | .jsl _ _ => true
  | .clc | .sei | .cli | .xce | .rep _ | .sep _ => false
  | .ldaImm _ | .ldxImm _ | .ldyImm _ | .ldaAbs _ | .ldxAbs _ => false
  | .tcd | .tcs | .txs | .inx | .dex | .ina | .xba => false
  | .cmpAbs _ | .cmpImm _ | .cpxAbs _ | .cpxImm _ => false
  | .pla | .plx | .pld | .plb | .plp => false
  | .rts | .rtl | .jmp _ | .bne _ | .stp => false

/-! ### Which instructions write what (R35, R37) -/

/-- The writers of S (R35): TCS, TXS, XCE, pushes and pulls. -/
def writesSp (i : Instr) : Bool :=
  match i with
  | .tcs | .txs | .xce => true
  | .pha | .phx | .php | .phk | .jsr _ | .jsl _ _ => true
  | .pla | .plx | .pld | .plb | .plp | .rts | .rtl => true
  | .clc | .sei | .cli | .rep _ | .sep _ => false
  | .ldaImm _ | .ldxImm _ | .ldyImm _ | .ldaAbs _ | .ldxAbs _ => false
  | .staAbs _ | .stxAbs _ | .styAbs _ | .staDp _ | .stxDp _ | .stzAbs _ | .stzDpX _ => false
  | .tcd | .inx | .dex | .ina | .xba => false
  | .cmpAbs _ | .cmpImm _ | .cpxAbs _ | .cpxImm _ => false
  | .jmp _ | .bne _ | .stp => false

/-- The instructions that set PC beyond the fetch (R270 to R275). -/
def setsPc (i : Instr) : Bool :=
  match i with
  | .jsr _ | .jsl _ _ | .rts | .rtl | .jmp _ | .bne _ => true
  | .clc | .sei | .cli | .xce | .rep _ | .sep _ => false
  | .ldaImm _ | .ldxImm _ | .ldyImm _ | .ldaAbs _ | .ldxAbs _ => false
  | .staAbs _ | .stxAbs _ | .styAbs _ | .staDp _ | .stxDp _ | .stzAbs _ | .stzDpX _ => false
  | .tcd | .tcs | .txs | .inx | .dex | .ina | .xba => false
  | .cmpAbs _ | .cmpImm _ | .cpxAbs _ | .cpxImm _ => false
  | .pha | .phx | .php | .phk => false
  | .pla | .plx | .pld | .plb | .plp => false
  | .stp => false

/-- The writers of Z, and of N, in the table of R37. -/
def writesZN (cfg : Config) (i : Instr) : Bool :=
  match i with
  | .ldaImm _ | .ldxImm _ | .ldyImm _ | .ldaAbs _ | .ldxAbs _ => true
  | .staAbs _ | .stxAbs _ | .styAbs _ | .staDp _ | .stxDp _ => cfg.storeSetsZn
  | .tcd | .txs | .inx | .dex | .ina | .xba => true
  | .cmpAbs _ | .cmpImm _ | .cpxAbs _ | .cpxImm _ => true
  | .pla | .plx | .pld | .plb => true
  | .rep _ | .sep _ | .plp => true
  | .clc | .sei | .cli | .xce => false
  | .stzAbs _ | .stzDpX _ => false
  | .tcs => false
  | .pha | .phx | .php | .phk => false
  | .jsr _ | .jsl _ _ | .rts | .rtl | .jmp _ | .bne _ | .stp => false

/-! ### Parameters -/

/-- The bounds of R10 and of 93_implementation_defined.md Part 2: `RESET_SP` in page one, and `RECOGNISED_UNIMPLEMENTED` a map of
bytes outside the opcode map. -/
def parametersInBounds (cfg : Config) : Prop :=
  cfg.resetSp &&& 0xFF00 = 0x0100 ∧ (∀ entry ∈ cfg.recognisedUnimplemented, entry.1 ∉ opcodeBytes) ∧
    (cfg.recognisedUnimplemented.map Prod.fst).Nodup

end Sys2Proof.Spec

open Sys2Proof Sys2Proof.Machine

/-! ## Encoding and the step -/

/-- Decoding an encoded well-formed instruction gives it back, whatever follows it (R140 to R142, R144, R145). -/
def Obligations.DecodeOfEncodeIsTheInstruction : Prop :=
  ∀ (wd : Widths) (i : Instr) (rest : List Byte), i.wellFormed wd = true → decode wd (encode wd i ++ rest) = .ok (i, rest)

/-- What the decoder reads is well-formed and is the encoding of what it answers, the rest untouched: no byte sequence has two
meanings and none is dropped. -/
def Obligations.EncodeOfDecodeIsTheBytes : Prop :=
  ∀ (wd : Widths) (bytes rest : List Byte) (i : Instr), decode wd bytes = .ok (i, rest) →
    i.wellFormed wd = true ∧ bytes = encode wd i ++ rest

/-- Words written out from R141 and R144 decode to the instructions they stand for. -/
def Obligations.WrittenOutWordsDecode : Prop :=
  decode ⟨.w8, .w8⟩ [0xC2, 0x30] = .ok (.rep 0x30, []) ∧
  decode ⟨.w8, .w8⟩ [0xA9, 0x34, 0x12] = .ok (.ldaImm 0x0034, [0x12]) ∧
  decode ⟨.w16, .w8⟩ [0xA9, 0x34, 0x12] = .ok (.ldaImm 0x1234, []) ∧
  decode ⟨.w8, .w8⟩ [0x22, 0x00, 0x80, 0x01] = .ok (.jsl 0x8000 0x01, []) ∧
  decode ⟨.w8, .w8⟩ [0x86, 0x0F] = .ok (.stxDp 0x0F, []) ∧
  decode ⟨.w8, .w8⟩ [0xEC, 0x20, 0x00] = .ok (.cpxAbs 0x0020, []) ∧
  decode ⟨.w8, .w8⟩ [0x2B] = .ok (.pld, [])

/-- When the bytes at (PBR, PC), read in order with PC wrapping within the bank, decode to `i` with nothing left over, the step
is `exec i` at the state with PC past them (R77, R143). -/
def Obligations.StepRunsTheDecodedInstruction : Prop :=
  ∀ (s : State) (bytes : List Byte) (i : Instr),
    (∀ (k : Nat) (h : k < bytes.length), busRead s s.pbr (s.pc + BitVec.ofNat 16 k) = .ok bytes[k]) →
    decode s.widths bytes = .ok (i, []) →
    step s = exec i { s with pc := s.pc + BitVec.ofNat 16 bytes.length }

/-- An opcode byte outside the 45 ends the step: `UnimplementedInstruction` with its mode name if `RECOGNISED_UNIMPLEMENTED`
lists it, else `UnknownOpcode`, whatever bytes follow (R146, R147; decision D3). -/
def Obligations.UnlistedOpcodesFault : Prop :=
  ∀ (s : State) (op : Byte), busRead s s.pbr s.pc = .ok op → op ∉ Spec.opcodeBytes →
    (s.config.recognisedUnimplemented.lookup op = none → step s = .fault (.unknownOpcode op)) ∧
    (∀ mode, s.config.recognisedUnimplemented.lookup op = some mode → step s = .fault (.unimplementedInstruction op mode))

/-- A fetch fault of the opcode byte is the step's error; so is that of the first operand byte that cannot be read, before the
instruction has any effect (R77, R303; decision D39). -/
def Obligations.FetchFaultsAreReportedInByteOrder : Prop :=
  ∀ (s : State) (f : Fault),
    (busRead s s.pbr s.pc = .error f → step s = .fault f) ∧
    (∀ (op : Byte) (row : OpcodeRow) (k : Nat), busRead s s.pbr s.pc = .ok op → opcodeRow? op = some row →
      k < row.format.operandBytes s.widths →
      (∀ j < k, ∃ b, busRead s s.pbr (s.pc + BitVec.ofNat 16 (j + 1)) = .ok b) →
      busRead s s.pbr (s.pc + BitVec.ofNat 16 (k + 1)) = .error f → step s = .fault f)

/-- Every step answers a next state, which the step request returns with its cycle count, or one of the six errors of R300, with a
code of at most 5; a step request that returns an error leaves the state as it was, whatever the step wrote before it, so the same
request raises the same error again (R301, R302; the codes are the spec's choice, decision D36). The model never refuses a step. -/
def Obligations.StepAnswersNextOrOneOfSixErrors : Prop :=
  ∀ s : State,
    (∃ t, step s = .next t ∧ stepRequest s = (.ok t.cycles, t)) ∨
    (∃ f, step s = .fault f ∧ Fault.code f ≤ 5 ∧ stepRequest s = (.error f, s))

/-! ## Flags and widths -/

/-- setZN(v, w): Z is set iff the width-masked value is zero, N is bit w-1, the other flags are kept (R13). -/
def Obligations.SetZNFollowsTheActiveWidth : Prop :=
  ∀ (s : State) (v : Word) (w : Width),
    State.withZN s v w = { s with p := Spec.withZN s.p v w } ∧
    getFlag (State.withZN s v w).p .z = decide (v.toNat % 2 ^ Spec.bits w = 0) ∧
    getFlag (State.withZN s v w).p .n = decide (2 ^ (Spec.bits w - 1) ≤ v.toNat % 2 ^ Spec.bits w) ∧
    ∀ f, f ≠ .z → f ≠ .n → getFlag (State.withZN s v w).p f = getFlag s.p f

/-- wA is 8 when P.M = 1 and 16 when P.M = 0, wX likewise by P.X; with `EMU_FORCES_WIDTH` both are 8 while E = 1 (R40;
decision D6). -/
def Obligations.WidthsFollowPAndE : Prop :=
  ∀ s : State, s.widths = ⟨Spec.wA s, Spec.wX s⟩ ∧
    (s.config.emuForcesWidth = false → (s.widths.a = .w8 ↔ getFlag s.p .m = true) ∧ (s.widths.x = .w8 ↔ getFlag s.p .x = true))

/-- CLC, SEI and CLI write C, I and I and nothing else, in 2 cycles (R200 to R202). -/
def Obligations.FlagInstructionsWriteOneFlag : Prop :=
  (∀ wd, Spec.DecodesAs wd [0x18] .clc ∧ Spec.DecodesAs wd [0x78] .sei ∧ Spec.DecodesAs wd [0x58] .cli) ∧
  ∀ s : State,
    exec .clc s = .next { s with p := s.p &&& 0xFE, cycles := 2 } ∧
    exec .sei s = .next { s with p := s.p ||| 0x04, cycles := 2 } ∧
    exec .cli s = .next { s with p := s.p &&& 0xFB, cycles := 2 }

/-- XCE exchanges C and E; when E becomes or stays 1, S moves into page one; M and X are not forced (R203; decision D7 for S). -/
def Obligations.XceExchangesCarryAndEmulation : Prop :=
  (∀ wd, Spec.DecodesAs wd [0xFB] .xce) ∧
  ∀ s : State,
    exec .xce s = .next { s with
      p := (s.p &&& 0xFE) ||| (if s.e then 0x01 else 0x00)
      e := s.p.getLsbD 0
      sp := if s.p.getLsbD 0 then 0x0100 ||| (s.sp &&& 0x00FF) else s.sp
      cycles := 2 }

/-- REP clears and SEP sets the status bits of the mask; SEP clears the index high bytes under `X_FLAG_CLEARS_INDEX_HIGH` when
P.X is then 1 (R204, R205). -/
def Obligations.RepClearsAndSepSetsStatusBits : Prop :=
  (∀ wd m, Spec.DecodesAs wd [0xC2, m] (.rep m) ∧ Spec.DecodesAs wd [0xE2, m] (.sep m)) ∧
  ∀ (s : State) (m : Byte),
    exec (.rep m) s = .next { s with p := s.p &&& ~~~m, cycles := 3 } ∧
    exec (.sep m) s = .next { s with
      p := s.p ||| m
      x := if s.config.xFlagClearsIndexHigh = true ∧ (s.p ||| m) &&& 0x10 ≠ 0 then s.x &&& 0x00FF else s.x
      y := if s.config.xFlagClearsIndexHigh = true ∧ (s.p ||| m) &&& 0x10 ≠ 0 then s.y &&& 0x00FF else s.y
      cycles := 3 }

/-! ## Loads -/

/-- LDA, LDX and LDY immediate load the operand at the active width, keep the untouched half at 8 bits, set Z and N of it, and
take 2 or 3 cycles (R210 to R212; the cycle counts are the spec's reading, decision D35). -/
def Obligations.LoadImmediateWritesRegisterAtWidth : Prop :=
  (∀ wd b1 b2,
    (wd.a = .w8 → Spec.DecodesAs wd [0xA9, b1] (.ldaImm (0x00#8 ++ b1))) ∧
    (wd.a = .w16 → Spec.DecodesAs wd [0xA9, b1, b2] (.ldaImm (b2 ++ b1))) ∧
    (wd.x = .w8 → Spec.DecodesAs wd [0xA2, b1] (.ldxImm (0x00#8 ++ b1)) ∧ Spec.DecodesAs wd [0xA0, b1] (.ldyImm (0x00#8 ++ b1))) ∧
    (wd.x = .w16 → Spec.DecodesAs wd [0xA2, b1, b2] (.ldxImm (b2 ++ b1)) ∧
      Spec.DecodesAs wd [0xA0, b1, b2] (.ldyImm (b2 ++ b1)))) ∧
  ∀ (s : State) (imm : Word),
    exec (.ldaImm imm) s = .next { s with
      a := Spec.merged s.a (Spec.wA s) imm, p := Spec.withZN s.p imm (Spec.wA s), cycles := Spec.count (Spec.wA s) 2 3 } ∧
    exec (.ldxImm imm) s = .next { s with
      x := Spec.merged s.x (Spec.wX s) imm, p := Spec.withZN s.p imm (Spec.wX s), cycles := Spec.count (Spec.wX s) 2 3 } ∧
    exec (.ldyImm imm) s = .next { s with
      y := Spec.merged s.y (Spec.wX s) imm, p := Spec.withZN s.p imm (Spec.wX s), cycles := Spec.count (Spec.wX s) 2 3 }

/-- LDA and LDX absolute load from bank DBR when the operand bytes can be read, and raise the read's error otherwise; 4 or 5
cycles (R213, R214; the cycle counts are the spec's reading, decision D35). -/
def Obligations.LoadAbsoluteReadsDataBank : Prop :=
  (∀ wd a, Spec.DecodesAs wd (0xAD :: Spec.bytesOf a) (.ldaAbs a) ∧ Spec.DecodesAs wd (0xAE :: Spec.bytesOf a) (.ldxAbs a)) ∧
  ∀ (s : State) (a : Word),
    (∀ v, Spec.Reads s s.dbr a (Spec.wA s) v → exec (.ldaAbs a) s = .next { s with
      a := Spec.merged s.a (Spec.wA s) v, p := Spec.withZN s.p v (Spec.wA s), cycles := Spec.count (Spec.wA s) 4 5 }) ∧
    (∀ f, Spec.ReadFails s s.dbr a (Spec.wA s) f → exec (.ldaAbs a) s = .fault f) ∧
    (∀ v, Spec.Reads s s.dbr a (Spec.wX s) v → exec (.ldxAbs a) s = .next { s with
      x := Spec.merged s.x (Spec.wX s) v, p := Spec.withZN s.p v (Spec.wX s), cycles := Spec.count (Spec.wX s) 4 5 }) ∧
    (∀ f, Spec.ReadFails s s.dbr a (Spec.wX s) f → exec (.ldxAbs a) s = .fault f)

/-! ## Stores -/

/-- STA absolute stores A at wA at the operand address (no bank), then sets Z and N of the stored value under `STORE_SETS_ZN`;
an error of the write is the step's; 4 or 5 cycles (R215; decisions D9 and D35). -/
def Obligations.StaAbsoluteStoresAccumulator : Prop :=
  (∀ wd a, Spec.DecodesAs wd (0x8D :: Spec.bytesOf a) (.staAbs a)) ∧
  ∀ (s : State) (a : Word),
    (∀ t, Spec.Writes s a (Spec.wA s) s.a t → exec (.staAbs a) s = .next { t with
      p := if s.config.storeSetsZn then Spec.withZN s.p s.a (Spec.wA s) else s.p, cycles := Spec.count (Spec.wA s) 4 5 }) ∧
    (∀ f, Spec.WriteFails s a (Spec.wA s) s.a f → exec (.staAbs a) s = .fault f)

/-- STX and STY absolute store the register at wX, and STA and STX direct page store at `(D + dp) mod 2^16` with one cycle more
when D[7:0] is not 0 (R216 to R219; decisions D9, D13 and D35). -/
def Obligations.IndexAndDirectPageStores : Prop :=
  (∀ wd a, Spec.DecodesAs wd (0x8E :: Spec.bytesOf a) (.stxAbs a) ∧ Spec.DecodesAs wd (0x8C :: Spec.bytesOf a) (.styAbs a)) ∧
  (∀ wd dp, Spec.DecodesAs wd [0x85, dp] (.staDp dp) ∧ Spec.DecodesAs wd [0x86, dp] (.stxDp dp)) ∧
  ∀ (s : State) (a : Word) (dp : Byte),
    let ea := BitVec.ofNat 16 (s.d.toNat + dp.toNat)
    let dl := if s.d &&& 0x00FF = 0 then 0 else 1
    let zn := fun (v : Word) (w : Width) => if s.config.storeSetsZn then Spec.withZN s.p v w else s.p
    (∀ t, Spec.Writes s a (Spec.wX s) s.x t →
      exec (.stxAbs a) s = .next { t with p := zn s.x (Spec.wX s), cycles := Spec.count (Spec.wX s) 4 5 }) ∧
    (∀ f, Spec.WriteFails s a (Spec.wX s) s.x f → exec (.stxAbs a) s = .fault f) ∧
    (∀ t, Spec.Writes s a (Spec.wX s) s.y t →
      exec (.styAbs a) s = .next { t with p := zn s.y (Spec.wX s), cycles := Spec.count (Spec.wX s) 4 5 }) ∧
    (∀ f, Spec.WriteFails s a (Spec.wX s) s.y f → exec (.styAbs a) s = .fault f) ∧
    (∀ t, Spec.Writes s ea (Spec.wA s) s.a t →
      exec (.staDp dp) s = .next { t with p := zn s.a (Spec.wA s), cycles := Spec.count (Spec.wA s) 3 4 + dl }) ∧
    (∀ f, Spec.WriteFails s ea (Spec.wA s) s.a f → exec (.staDp dp) s = .fault f) ∧
    (∀ t, Spec.Writes s ea (Spec.wX s) s.x t →
      exec (.stxDp dp) s = .next { t with p := zn s.x (Spec.wX s), cycles := Spec.count (Spec.wX s) 3 4 + dl }) ∧
    (∀ f, Spec.WriteFails s ea (Spec.wX s) s.x f → exec (.stxDp dp) s = .fault f)

/-- STZ writes zero at wA, absolute or at `(D + dp + low(X, wX)) mod 2^16`; no flag; 4 cycles and one more when wX = 16 (R220,
R221; decision D47). -/
def Obligations.StzStoresZeroByAccumulatorWidth : Prop :=
  (∀ wd a, Spec.DecodesAs wd (0x9C :: Spec.bytesOf a) (.stzAbs a)) ∧ (∀ wd dp, Spec.DecodesAs wd [0x74, dp] (.stzDpX dp)) ∧
  ∀ (s : State) (a : Word) (dp : Byte),
    let ea := BitVec.ofNat 16 (s.d.toNat + dp.toNat + (Spec.lowBits s.x (Spec.wX s)).toNat)
    (∀ t, Spec.Writes s a (Spec.wA s) 0 t → exec (.stzAbs a) s = .next { t with cycles := Spec.count (Spec.wX s) 4 5 }) ∧
    (∀ f, Spec.WriteFails s a (Spec.wA s) 0 f → exec (.stzAbs a) s = .fault f) ∧
    (∀ t, Spec.Writes s ea (Spec.wA s) 0 t → exec (.stzDpX dp) s = .next { t with cycles := Spec.count (Spec.wX s) 4 5 }) ∧
    (∀ f, Spec.WriteFails s ea (Spec.wA s) 0 f → exec (.stzDpX dp) s = .fault f)

/-- A store whose bytes lie in work RAM completes: the next state differs in those bytes of WRAM, in P as the store says, and in
the cycle count alone (R73, R75, R215 to R221). -/
def Obligations.StoresToWorkRamComplete : Prop :=
  ∀ (i : Instr) (s : State) (w : Width) (ea : Word), Spec.storeTarget i s = some (w, ea) →
    ea.toNat < 0x2000 → (w = .w16 → ea.toNat + 1 < 0x2000) →
    ∃ t, exec i s = .next t ∧
      t = { s with wram := t.wram, p := t.p, cycles := t.cycles } ∧
      (∀ f, f ≠ .z → f ≠ .n → getFlag t.p f = getFlag s.p f) ∧
      ∃ v : Word,
        (∀ a, i = .staAbs a → v = s.a) ∧ (∀ a, i = .stxAbs a → v = s.x) ∧ (∀ a, i = .styAbs a → v = s.y) ∧
        (∀ dp, i = .staDp dp → v = s.a) ∧ (∀ dp, i = .stxDp dp → v = s.x) ∧
        (∀ a, i = .stzAbs a → v = 0 ∧ t.p = s.p) ∧ (∀ dp, i = .stzDpX dp → v = 0 ∧ t.p = s.p) ∧
        Cells.read t.wram ea.toNat = v.extractLsb' 0 8 ∧
        (w = .w16 → Cells.read t.wram (ea.toNat + 1) = v.extractLsb' 8 8) ∧
        ∀ b, b ≠ ea.toNat → (w = .w16 → b ≠ ea.toNat + 1) → Cells.read t.wram b = Cells.read s.wram b

/-- The frame of a store, wherever it goes: the registers of the CPU but P, the cartridge and the parameters are unchanged, the
flags but Z and N are kept, every WRAM byte outside the stored bytes is kept, and every other bus address reads as before, unless
the store triggers DMA with `DMA_WRITEBACK`. -/
def Obligations.StoresLeaveEverythingElse : Prop :=
  ∀ (i : Instr) (s t : State) (w : Width) (ea : Word), Spec.storeTarget i s = some (w, ea) → exec i s = .next t →
    t = { s with
      p := t.p, wram := t.wram, ppu := t.ppu, nmitimen := t.nmitimen, hdmaen := t.hdmaen, memsel := t.memsel, dma := t.dma,
      cycles := t.cycles } ∧
    (∀ f, f ≠ .z → f ≠ .n → getFlag t.p f = getFlag s.p f) ∧
    (∀ b, b ≠ ea.toNat → (w = .w16 → b ≠ (ea + 1).toNat) → Cells.read t.wram b = Cells.read s.wram b) ∧
    (s.config.dmaWriteback = false ∨ (ea ≠ 0x420B ∧ (w = .w16 → ea + 1 ≠ 0x420B)) →
      ∀ bank b, b ≠ ea → (w = .w16 → b ≠ ea + 1) → busRead t bank b = busRead s bank b)

/-! ## Transfers, increments, compares -/

/-- TCD moves all 16 bits of A to D and sets Z and N of the 16-bit value, in 2 cycles (R231). -/
def Obligations.TcdMovesSixteenBits : Prop :=
  (∀ wd, Spec.DecodesAs wd [0x5B] .tcd) ∧
  ∀ s : State, exec .tcd s = .next { s with d := s.a, p := Spec.withZN s.p s.a .w16, cycles := 2 }

/-- TCS and TXS write S, in page one while E = 1; TXS moves the width-masked X and sets Z and N of it, TCS sets no flag (R232,
R233; decisions D10 and D11). -/
def Obligations.TcsAndTxsWriteStackPointer : Prop :=
  (∀ wd, Spec.DecodesAs wd [0x1B] .tcs ∧ Spec.DecodesAs wd [0x9A] .txs) ∧
  ∀ s : State,
    exec .tcs s = .next { s with sp := if s.e then 0x0100 ||| (s.a &&& 0x00FF) else s.a, cycles := 2 } ∧
    exec .txs s = .next { s with
      sp := if s.e then 0x0100 ||| (s.x &&& 0x00FF) else Spec.lowBits s.x (Spec.wX s)
      p := Spec.withZN s.p s.x (Spec.wX s)
      cycles := 2 }

/-- INX, DEX and INA add or subtract one modulo 2^w, keep the untouched half at 8 bits and set Z and N, in 2 cycles (R234 to
R236). -/
def Obligations.IncrementsWrapWithinWidth : Prop :=
  (∀ wd, Spec.DecodesAs wd [0xE8] .inx ∧ Spec.DecodesAs wd [0xCA] .dex ∧ Spec.DecodesAs wd [0x1A] .ina) ∧
  ∀ s : State,
    let plus := fun (r : Word) (w : Width) => BitVec.ofNat 16 ((r.toNat % 2 ^ Spec.bits w + 1) % 2 ^ Spec.bits w)
    let minus := fun (r : Word) (w : Width) =>
      BitVec.ofNat 16 ((r.toNat % 2 ^ Spec.bits w + 2 ^ Spec.bits w - 1) % 2 ^ Spec.bits w)
    exec .inx s = .next { s with
      x := Spec.merged s.x (Spec.wX s) (plus s.x (Spec.wX s))
      p := Spec.withZN s.p (plus s.x (Spec.wX s)) (Spec.wX s), cycles := 2 } ∧
    exec .dex s = .next { s with
      x := Spec.merged s.x (Spec.wX s) (minus s.x (Spec.wX s))
      p := Spec.withZN s.p (minus s.x (Spec.wX s)) (Spec.wX s), cycles := 2 } ∧
    exec .ina s = .next { s with
      a := Spec.merged s.a (Spec.wA s) (plus s.a (Spec.wA s))
      p := Spec.withZN s.p (plus s.a (Spec.wA s)) (Spec.wA s), cycles := 2 }

/-- XBA swaps the bytes of A and sets Z and N of the new low byte at 8 bits, in 3 cycles; twice it restores A (R237). -/
def Obligations.XbaSwapsTheBytes : Prop :=
  (∀ wd, Spec.DecodesAs wd [0xEB] .xba) ∧
  ∀ s : State,
    let swapped := s.a.extractLsb' 0 8 ++ s.a.extractLsb' 8 8
    exec .xba s = .next { s with a := swapped, p := Spec.withZN s.p swapped .w8, cycles := 3 } ∧
    ∀ t u, exec .xba s = .next t → exec .xba t = .next u → u.a = s.a

/-- CMP and CPX, absolute and immediate: C when the register is at least the operand (unsigned), Z and N of the difference at the
active width, no other effect but the cycle count (R230, R238 to R241; decisions D43 and D48). -/
def Obligations.ComparesSetCarryZeroNegative : Prop :=
  (∀ wd a, Spec.DecodesAs wd (0xCD :: Spec.bytesOf a) (.cmpAbs a) ∧ Spec.DecodesAs wd (0xEC :: Spec.bytesOf a) (.cpxAbs a)) ∧
  (∀ wd b1 b2,
    (wd.a = .w8 → Spec.DecodesAs wd [0xC9, b1] (.cmpImm (0x00#8 ++ b1))) ∧
    (wd.a = .w16 → Spec.DecodesAs wd [0xC9, b1, b2] (.cmpImm (b2 ++ b1))) ∧
    (wd.x = .w8 → Spec.DecodesAs wd [0xE0, b1] (.cpxImm (0x00#8 ++ b1))) ∧
    (wd.x = .w16 → Spec.DecodesAs wd [0xE0, b1, b2] (.cpxImm (b2 ++ b1)))) ∧
  ∀ (s : State) (a imm : Word),
    (∀ m, Spec.Reads s s.dbr a (Spec.wA s) m →
      exec (.cmpAbs a) s = .next { s with p := Spec.withCompare s.p s.a m (Spec.wA s), cycles := 4 }) ∧
    (∀ f, Spec.ReadFails s s.dbr a (Spec.wA s) f → exec (.cmpAbs a) s = .fault f) ∧
    exec (.cmpImm imm) s = .next { s with p := Spec.withCompare s.p s.a imm (Spec.wA s), cycles := 4 } ∧
    (∀ m, Spec.Reads s s.dbr a (Spec.wX s) m → exec (.cpxAbs a) s =
      .next { s with p := Spec.withCompare s.p s.x m (Spec.wX s), cycles := Spec.count (Spec.wX s) 2 3 }) ∧
    (∀ f, Spec.ReadFails s s.dbr a (Spec.wX s) f → exec (.cpxAbs a) s = .fault f) ∧
    exec (.cpxImm imm) s =
      .next { s with p := Spec.withCompare s.p s.x imm (Spec.wX s), cycles := Spec.count (Spec.wX s) 2 3 }

/-! ## Stack -/

/-- PHA, PHX, PHP and PHK push A at wA, X at wX, the literal P and PBR, set no flag, and take 3 cycles, 4 for a 16-bit push; an
error of the push is the step's (R250 to R253; the stack's place and page-one wrap are decision D12, the cycle counts D35). -/
def Obligations.PushInstructionsPushTheirRegister : Prop :=
  (∀ wd, Spec.DecodesAs wd [0x48] .pha ∧ Spec.DecodesAs wd [0xDA] .phx ∧ Spec.DecodesAs wd [0x08] .php ∧
    Spec.DecodesAs wd [0x4B] .phk) ∧
  ∀ s : State,
    (∀ t, Spec.PushAt (Spec.wA s) s s.a t → exec .pha s = .next { t with cycles := Spec.count (Spec.wA s) 3 4 }) ∧
    (∀ f, Spec.PushAtFails (Spec.wA s) s s.a f → exec .pha s = .fault f) ∧
    (∀ t, Spec.PushAt (Spec.wX s) s s.x t → exec .phx s = .next { t with cycles := Spec.count (Spec.wX s) 3 4 }) ∧
    (∀ f, Spec.PushAtFails (Spec.wX s) s s.x f → exec .phx s = .fault f) ∧
    (∀ t, Spec.Push8 s s.p t → exec .php s = .next { t with cycles := 3 }) ∧
    (∀ f, Spec.Push8Fails s s.p f → exec .php s = .fault f) ∧
    (∀ t, Spec.Push8 s s.pbr t → exec .phk s = .next { t with cycles := 3 }) ∧
    (∀ f, Spec.Push8Fails s s.pbr f → exec .phk s = .fault f)

/-- A pushing instruction (PHA, PHX, PHP, PHK, JSR, JSL) whose stack bytes lie in work RAM completes: its bytes stand at S and
downward in push order, S has moved below them, and WRAM changes nowhere else. -/
def Obligations.PushesToWorkRamComplete : Prop :=
  ∀ (i : Instr) (s : State) (bytes : List Byte), Spec.pushedBytes i s = some bytes →
    (∀ a ∈ Spec.pushAddresses s.e bytes.length s.sp, a.toNat < 0x2000) →
    ∃ t, exec i s = .next t ∧
      t = { s with
        sp := (Spec.down s.e)^[bytes.length] s.sp, wram := t.wram, pc := t.pc, pbr := t.pbr, cycles := t.cycles } ∧
      (∀ (a : Word) (v : Byte), (a, v) ∈ (Spec.pushAddresses s.e bytes.length s.sp).zip bytes → Cells.read t.wram a.toNat = v) ∧
      (∀ b : Nat, (∀ a ∈ Spec.pushAddresses s.e bytes.length s.sp, b ≠ a.toNat) →
        Cells.read t.wram b = Cells.read s.wram b) ∧
      (∀ a, i = .jsr a → t.pc = a ∧ t.pbr = s.pbr ∧ t.cycles = 6) ∧
      (∀ a bk, i = .jsl a bk → t.pc = a ∧ t.pbr = bk ∧ t.cycles = 8) ∧
      (i = .pha ∨ i = .phx ∨ i = .php ∨ i = .phk → t.pc = s.pc ∧ t.pbr = s.pbr)

/-- The frame of a push, wherever S points: A, X, Y, D, DBR, P, E, the cartridge and the parameters are unchanged, every WRAM byte
outside the pushed bytes is kept, and every other bus address reads as before, unless a pushed byte triggers DMA with
`DMA_WRITEBACK`. -/
def Obligations.PushesLeaveEverythingElse : Prop :=
  ∀ (i : Instr) (s t : State) (bytes : List Byte), Spec.pushedBytes i s = some bytes → exec i s = .next t →
    t = { s with
      pc := t.pc, pbr := t.pbr, sp := (Spec.down s.e)^[bytes.length] s.sp, wram := t.wram, ppu := t.ppu,
      nmitimen := t.nmitimen, hdmaen := t.hdmaen, memsel := t.memsel, dma := t.dma, cycles := t.cycles } ∧
    (∀ b : Nat, (∀ a ∈ Spec.pushAddresses s.e bytes.length s.sp, b ≠ a.toNat) → Cells.read t.wram b = Cells.read s.wram b) ∧
    (s.config.dmaWriteback = false ∨ 0x420B#16 ∉ Spec.pushAddresses s.e bytes.length s.sp →
      ∀ bank b, b ∉ Spec.pushAddresses s.e bytes.length s.sp → busRead t bank b = busRead s bank b)

/-- PLA and PLX pull at their width, keep the untouched half at 8 bits and set Z and N; PLB pulls 8 bits into DBR and sets Z and N
of them (R254, R255, R257; decisions D12 and D35). -/
def Obligations.PullInstructionsLoadTheirRegister : Prop :=
  (∀ wd, Spec.DecodesAs wd [0x68] .pla ∧ Spec.DecodesAs wd [0xFA] .plx ∧ Spec.DecodesAs wd [0xAB] .plb) ∧
  ∀ s : State,
    (∀ v, Spec.PullsAt (Spec.wA s) s v → exec .pla s = .next { s with
      sp := Spec.pulledSp (Spec.wA s) s, a := Spec.merged s.a (Spec.wA s) v, p := Spec.withZN s.p v (Spec.wA s)
      cycles := Spec.count (Spec.wA s) 4 5 }) ∧
    (∀ f, Spec.PullAtFails (Spec.wA s) s f → exec .pla s = .fault f) ∧
    (∀ v, Spec.PullsAt (Spec.wX s) s v → exec .plx s = .next { s with
      sp := Spec.pulledSp (Spec.wX s) s, x := Spec.merged s.x (Spec.wX s) v, p := Spec.withZN s.p v (Spec.wX s)
      cycles := Spec.count (Spec.wX s) 4 5 }) ∧
    (∀ f, Spec.PullAtFails (Spec.wX s) s f → exec .plx s = .fault f) ∧
    (∀ v, Spec.PullsByte s s.sp v → exec .plb s = .next { s with
      sp := Spec.up s.e s.sp, dbr := v, p := Spec.withZN s.p (0x00#8 ++ v) .w8, cycles := 4 }) ∧
    (∀ f, Spec.PullAtFails .w8 s f → exec .plb s = .fault f)

/-- PLD pulls 16 bits into D and sets Z and N of them; PLP pulls P, all eight bits and no computed flag, and clears the index high
bytes under `X_FLAG_CLEARS_INDEX_HIGH` when P.X is then 1 (R256, R258; decisions D12 and D49). -/
def Obligations.PldAndPlpPull : Prop :=
  (∀ wd, Spec.DecodesAs wd [0x2B] .pld ∧ Spec.DecodesAs wd [0x28] .plp) ∧
  ∀ s : State,
    (∀ v, Spec.PullsAt .w16 s v → exec .pld s = .next { s with
      sp := Spec.pulledSp .w16 s, d := v, p := Spec.withZN s.p v .w16, cycles := 5 }) ∧
    (∀ f, Spec.PullAtFails .w16 s f → exec .pld s = .fault f) ∧
    (∀ v, Spec.PullsByte s s.sp v → exec .plp s = .next { s with
      sp := Spec.up s.e s.sp
      p := v
      x := if s.config.xFlagClearsIndexHigh = true ∧ v &&& 0x10 ≠ 0 then s.x &&& 0x00FF else s.x
      y := if s.config.xFlagClearsIndexHigh = true ∧ v &&& 0x10 ≠ 0 then s.y &&& 0x00FF else s.y
      cycles := 4 }) ∧
    (∀ f, Spec.PullAtFails .w8 s f → exec .plp s = .fault f)

/-- Push16 followed at once by Pull16 gives the value back and restores S, in emulation and in native mode, when both bytes lie in
work RAM and S is in page one while E = 1 (R82, R35). -/
def Obligations.PushThenPullRestoresValueAndStackPointer : Prop :=
  ∀ (s : State) (v : Word), (s.e = true → s.sp &&& 0xFF00 = 0x0100) →
    s.sp.toNat < 0x2000 → (Spec.down s.e s.sp).toNat < 0x2000 →
    ∃ t, push16 s v = .ok t ∧ t.sp = Spec.down s.e (Spec.down s.e s.sp) ∧ pull16 t = .ok ({ t with sp := s.sp }, v)

/-! ## Control transfer -/

/-- JSR pushes the address of its last byte and jumps within the bank; JSL pushes PBR, then that address, and jumps to its bank
(R270, R271; decision D16). -/
def Obligations.CallsPushReturnAddress : Prop :=
  (∀ wd a bk, Spec.DecodesAs wd (0x20 :: Spec.bytesOf a) (.jsr a) ∧
    Spec.DecodesAs wd (0x22 :: (Spec.bytesOf a ++ [bk])) (.jsl a bk)) ∧
  ∀ (s : State) (a : Word) (bk : Byte),
    (∀ t, Spec.Push16 s (s.pc - 1) t → exec (.jsr a) s = .next { t with pc := a, cycles := 6 }) ∧
    (∀ f, Spec.Push16Fails s (s.pc - 1) f → exec (.jsr a) s = .fault f) ∧
    (∀ u t, Spec.Push8 s s.pbr u → Spec.Push16 u (s.pc - 1) t →
      exec (.jsl a bk) s = .next { t with pbr := bk, pc := a, cycles := 8 }) ∧
    (∀ f, Spec.Push8Fails s s.pbr f ∨ (∃ u, Spec.Push8 s s.pbr u ∧ Spec.Push16Fails u (s.pc - 1) f) →
      exec (.jsl a bk) s = .fault f)

/-- RTS pulls the return address and resumes one past it, PBR unchanged; RTL pulls the bank as well; a byte that cannot be pulled
stops each with its error (R272, R273; the pull's page-one wrap is decision D12, the added one D16: the spec's own choices, followed
in assumption log 12). -/
def Obligations.ReturnsResumeAfterTheCall : Prop :=
  (∀ wd, Spec.DecodesAs wd [0x60] .rts ∧ Spec.DecodesAs wd [0x6B] .rtl) ∧
  ∀ s : State,
    (∀ v, Spec.PullsAt .w16 s v → exec .rts s = .next { s with sp := Spec.pulledSp .w16 s, pc := v + 1, cycles := 6 }) ∧
    (∀ f, Spec.PullAtFails .w16 s f → exec .rts s = .fault f) ∧
    (∀ v bk, Spec.PullsAt .w16 s v → Spec.PullsByte s (Spec.pulledSp .w16 s) bk → exec .rtl s = .next { s with
      sp := Spec.up s.e (Spec.pulledSp .w16 s), pbr := bk, pc := v + 1, cycles := 6 }) ∧
    (∀ f, Spec.PullAtFails .w16 s f ∨
        ((∃ v, Spec.PullsAt .w16 s v) ∧ busRead s 0x00 (Spec.up s.e (Spec.pulledSp .w16 s)) = .error f) →
      exec .rtl s = .fault f)

/-- JMP sets PC alone, in 3 cycles (R274). -/
def Obligations.JmpSetsProgramCounter : Prop :=
  (∀ wd a, Spec.DecodesAs wd (0x4C :: Spec.bytesOf a) (.jmp a)) ∧
  ∀ (s : State) (a : Word), exec (.jmp a) s = .next { s with pc := a, cycles := 3 }

/-- BNE adds the signed displacement to the address after it, modulo 2^16, when Z = 0; 2 cycles, one more when taken, one more in
emulation mode (R275; decision D46 for the cycles). -/
def Obligations.BneBranchesWhenZeroClear : Prop :=
  (∀ wd rel, Spec.DecodesAs wd [0xD0, rel] (.bne rel)) ∧
  ∀ (s : State) (rel : Byte),
    (s.p &&& 0x02 = 0 → exec (.bne rel) s = .next { s with
      pc := BitVec.ofInt 16 (s.pc.toNat + rel.toInt), cycles := 3 + (if s.e then 1 else 0) }) ∧
    (s.p &&& 0x02 ≠ 0 → exec (.bne rel) s = .next { s with cycles := 2 + (if s.e then 1 else 0) })

/-- STP raises Halted in every state; with its byte at (PBR, PC) the step fails so, and every run from there is ended there
(R276, R310, R311; decision D4). -/
def Obligations.StpHaltsUntilReset : Prop :=
  (∀ wd, Spec.DecodesAs wd [0xDB] .stp) ∧ (∀ s : State, exec .stp s = .fault .halted) ∧
  ∀ s : State, busRead s s.pbr s.pc = .ok 0xDB →
    step s = .fault .halted ∧ stepRequest s = (.error .halted, s) ∧ ∀ k, Safety.run (k + 1) s = .halted s

/-- A subroutine returns: RTS after JSR resumes at the byte after the JSR with S restored, and RTL after JSL restores PBR as well,
when the stack bytes lie in work RAM and S is in page one while E = 1. -/
def Obligations.ReturnUndoesCall : Prop :=
  ∀ (s : State) (a : Word) (bk : Byte), (s.e = true → s.sp &&& 0xFF00 = 0x0100) →
    ((∀ b ∈ Spec.pushAddresses s.e 2 s.sp, b.toNat < 0x2000) →
      ∃ t u, exec (.jsr a) s = .next t ∧ exec .rts t = .next u ∧ u = { s with wram := t.wram, cycles := 6 }) ∧
    ((∀ b ∈ Spec.pushAddresses s.e 3 s.sp, b.toNat < 0x2000) →
      ∃ t u, exec (.jsl a bk) s = .next t ∧ exec .rtl t = .next u ∧ u = { s with wram := t.wram, cycles := 6 })

/-! ## The bus -/

/-- What a bus read finds: work RAM below 0x2000 in every bank, the ROM window from 0x8000 on, and `UnmappedAccess(bank : addr)`
elsewhere but at the registers (R71, R72, R101, R103; decisions D21 and D24). -/
def Obligations.BusReadFollowsTheAddressMap : Prop :=
  ∀ (s : State) (bank : Byte) (addr : Word),
    (addr.toNat < 0x2000 → busRead s bank addr = .ok (Cells.read s.wram addr.toNat)) ∧
    (0x8000 ≤ addr.toNat →
      let off := (bank &&& s.config.romBankMask).toNat * 0x8000 + (addr.toNat - 0x8000)
      (off < s.rom.length → busRead s bank addr = .ok (Cells.read s.rom.bytes off)) ∧
      (s.rom.length ≤ off → busRead s bank addr = .error (.unmappedAccess (bank ++ addr)))) ∧
    (Spec.unmappedAddress addr → busRead s bank addr = .error (.unmappedAccess (bank ++ addr)))

/-- Register reads, in every bank: the placeholder, 0x00 for 0x420B, and the stored byte for a DMA channel register (R89, R90;
decision D23). -/
def Obligations.RegisterReadsGivePlaceholderOrStoredByte : Prop :=
  ∀ (s : State) (bank : Byte),
    (∀ addr ∈ Spec.placeholderAddresses, busRead s bank (BitVec.ofNat 16 addr) = .ok s.config.openBusPlaceholder) ∧
    busRead s bank 0x420B = .ok 0x00 ∧
    ∀ n : Fin 7,
      busRead s bank (Spec.channelAddress n.val 0) = .ok s.dma[n].ctrl ∧
      busRead s bank (Spec.channelAddress n.val 1) = .ok s.dma[n].dest ∧
      busRead s bank (Spec.channelAddress n.val 2) = .ok (s.dma[n].src.extractLsb' 0 8) ∧
      busRead s bank (Spec.channelAddress n.val 3) = .ok (s.dma[n].src.extractLsb' 8 8) ∧
      busRead s bank (Spec.channelAddress n.val 4) = .ok s.dma[n].sbank ∧
      busRead s bank (Spec.channelAddress n.val 5) = .ok (s.dma[n].size.extractLsb' 0 8) ∧
      busRead s bank (Spec.channelAddress n.val 6) = .ok (s.dma[n].size.extractLsb' 8 8)

/-- What a bus write does outside the registers: it stores in work RAM, where every later read and fetch of that byte finds it in
every bank, and raises `UnmappedAccess(0x00 : addr)` in the ROM window and at an unmapped address (R72, R73, R118; decisions D22
and D24). -/
def Obligations.BusWriteFollowsTheAddressMap : Prop :=
  ∀ (s : State) (addr : Word) (v : Byte),
    (addr.toNat < 0x2000 → ∃ t, busWrite s addr v = .ok t ∧ t = { s with wram := t.wram } ∧
      ∀ bank b, b.toNat < 0x2000 → busRead t bank b = if b = addr then .ok v else busRead s bank b) ∧
    (0x8000 ≤ addr.toNat ∨ Spec.unmappedAddress addr → busWrite s addr v = .error (.unmappedAccess (0x00#8 ++ addr)))

/-- The frame of a bus write: no CPU register, cartridge byte or parameter changes, and every address but the one written reads as
before, unless the write triggers DMA with `DMA_WRITEBACK`. -/
def Obligations.BusWriteLeavesOtherAddresses : Prop :=
  ∀ (s t : State) (addr : Word) (v : Byte), busWrite s addr v = .ok t →
    t = { s with
      wram := t.wram, ppu := t.ppu, nmitimen := t.nmitimen, hdmaen := t.hdmaen, memsel := t.memsel, dma := t.dma } ∧
    (s.config.dmaWriteback = false ∨ addr ≠ 0x420B → ∀ bank b, b ≠ addr → busRead t bank b = busRead s bank b)

/-- A plain stored register takes the byte and nothing else changes: 0x2100, 0x2105, 0x2107 to 0x210C, 0x2115, 0x212C, 0x212D,
0x4200, 0x420D and the DMA channel bytes (R91); a channel byte then reads back in every bank (R90; decision D23). -/
def Obligations.PlainRegistersStoreTheByte : Prop :=
  ∀ (s : State) (v : Byte),
    busWrite s 0x2100 v = .ok { s with ppu := { s.ppu with disp := v } } ∧
    busWrite s 0x2105 v = .ok { s with ppu := { s.ppu with bgmode := v } } ∧
    (∀ i : Fin 4, busWrite s (BitVec.ofNat 16 (0x2107 + i.val)) v = .ok { s with ppu := { s.ppu with bgsc := s.ppu.bgsc.set i v } }) ∧
    (∀ i : Fin 2, busWrite s (BitVec.ofNat 16 (0x210B + i.val)) v =
      .ok { s with ppu := { s.ppu with bgnba := s.ppu.bgnba.set i v } }) ∧
    busWrite s 0x2115 v = .ok { s with ppu := { s.ppu with vmain := v } } ∧
    busWrite s 0x212C v = .ok { s with ppu := { s.ppu with tm := v } } ∧
    busWrite s 0x212D v = .ok { s with ppu := { s.ppu with ts := v } } ∧
    busWrite s 0x4200 v = .ok { s with nmitimen := v } ∧
    busWrite s 0x420D v = .ok { s with memsel := v } ∧
    ∀ n : Fin 7, ∀ k : Fin 7, ∃ t, busWrite s (Spec.channelAddress n.val k.val) v = .ok t ∧ t = { s with dma := t.dma } ∧
      (∀ bank, busRead t bank (Spec.channelAddress n.val k.val) = .ok v) ∧
      ∀ m j : Fin 7, (m, j) ≠ (n, k) → (t.dma[m]).getByte j = (s.dma[m]).getByte j

/-- VADDR takes its low and high byte from 0x2116 and 0x2117, and CGIDX becomes twice the byte written to 0x2121 (R93, R95). -/
def Obligations.PointerRegistersSetThePointers : Prop :=
  ∀ (s : State) (v : Byte),
    busWrite s 0x2116 v = .ok { s with ppu := { s.ppu with vaddr := s.ppu.vaddr.extractLsb' 8 8 ++ v } } ∧
    busWrite s 0x2117 v = .ok { s with ppu := { s.ppu with vaddr := v ++ s.ppu.vaddr.extractLsb' 0 8 } } ∧
    busWrite s 0x2121 v = .ok { s with ppu := { s.ppu with cgidx := BitVec.ofNat 10 (2 * v.toNat) } }

/-- The VRAM data ports write one half of the word at VADDR, advance VADDR when TRIG selects that half, and raise
`UnsupportedRemap` while REMAP is not 00 (R94, R49; decisions D32 to D34). -/
def Obligations.VramDataPortsWriteHalfAndAdvance : Prop :=
  ∀ (s : State) (v : Byte),
    let old := Cells.read s.ppu.vram s.ppu.vaddr.toNat
    let moved := BitVec.ofNat 16 (s.ppu.vaddr.toNat + (Spec.vramStep s.ppu.vmain).toNat)
    (s.ppu.vmain &&& 0x0C ≠ 0 → busWrite s 0x2118 v = .error (.unsupportedRemap s.ppu.vmain) ∧
      busWrite s 0x2119 v = .error (.unsupportedRemap s.ppu.vmain)) ∧
    (s.ppu.vmain &&& 0x0C = 0 →
      (∃ t, busWrite s 0x2118 v = .ok t ∧
        t = { s with ppu := { s.ppu with
          vram := t.ppu.vram, vaddr := if s.ppu.vmain &&& 0x80 = 0 then moved else s.ppu.vaddr } } ∧
        ∀ i, Cells.read t.ppu.vram i =
          if i = s.ppu.vaddr.toNat then old.extractLsb' 8 8 ++ v else Cells.read s.ppu.vram i) ∧
      (∃ t, busWrite s 0x2119 v = .ok t ∧
        t = { s with ppu := { s.ppu with
          vram := t.ppu.vram, vaddr := if s.ppu.vmain &&& 0x80 = 0 then s.ppu.vaddr else moved } } ∧
        ∀ i, Cells.read t.ppu.vram i =
          if i = s.ppu.vaddr.toNat then v ++ old.extractLsb' 0 8 else Cells.read s.ppu.vram i))

/-- The palette data port stores at CGIDX and advances it modulo 1024 (R96; decision D34). -/
def Obligations.PaletteDataPortStoresAndAdvances : Prop :=
  ∀ (s : State) (v : Byte), ∃ t, busWrite s 0x2122 v = .ok t ∧
    t = { s with ppu := { s.ppu with
      cgram := t.ppu.cgram, cgidx := BitVec.ofNat 10 ((s.ppu.cgidx.toNat + 1) % 1024) } } ∧
    ∀ i, Cells.read t.ppu.cgram i = if i = s.ppu.cgidx.toNat then v else Cells.read s.ppu.cgram i

/-- 0x420C accepts zero and raises `UnsupportedDmaMode(8)` for anything else (R98; decision D31). -/
def Obligations.HdmaEnableAcceptsZeroOnly : Prop :=
  ∀ (s : State) (v : Byte),
    (v = 0 → busWrite s 0x420C v = .ok { s with hdmaen := 0x00 }) ∧
    (v ≠ 0 → busWrite s 0x420C v = .error (.unsupportedDmaMode 8))

/-! ## DMA -/

/-- A trigger: bit 7 raises `UnsupportedDmaMode(7)`; else the lowest selected channel that cannot run raises its number before any
channel has run; else the selected channels run one after the other, lowest first, each as its own trigger would; the value 0 changes
nothing (R105 to R107; decisions D25 and D29). -/
def Obligations.DmaTriggerValidatesThenRunsInOrder : Prop :=
  ∀ (s : State) (v : Byte),
    (v.getLsbD 7 = true → busWrite s 0x420B v = .error (.unsupportedDmaMode 7)) ∧
    (∀ n : Fin 7, v.getLsbD 7 = false → v.getLsbD n.val = true → ¬ Spec.runs s.dma[n].ctrl →
      (∀ m : Fin 7, m < n → v.getLsbD m.val = true → Spec.runs s.dma[m].ctrl) →
      busWrite s 0x420B v = .error (.unsupportedDmaMode n.val)) ∧
    (v.getLsbD 7 = false → (∀ n : Fin 7, v.getLsbD n.val = true → Spec.runs s.dma[n].ctrl) →
      busWrite s 0x420B v = Spec.triggerEach v [0, 1, 2, 3, 4, 5, 6] s) ∧
    (v = 0 → busWrite s 0x420B v = .ok s)

/-- One channel's transfer is `count` ordinary bus reads and writes in order, with the source address and destination of each byte
as R108 and R109 give them, and then the write-back of the source address and size when `DMA_WRITEBACK` is set; the first access that
raises ends the trigger with its error, a byte's source read before its destination write (R110, R111, R303; decisions D25 to D28
and D39). -/
def Obligations.DmaTransferIsOrdinaryBusAccesses : Prop :=
  ∀ (s : State) (n : Fin 7), Spec.runs s.dma[n].ctrl →
    (∀ (t : State) (b : Word),
      Spec.Transfers s.dma[n] (Spec.byteCount s.config s.dma[n]) 0 s.dma[n].src s t b →
      busWrite s 0x420B (1#8 <<< n.val) =
        .ok (if s.config.dmaWriteback then { t with dma := t.dma.set n { s.dma[n] with src := b, size := 0 } } else t)) ∧
    (∀ (k : Nat) (u : State) (b : Word) (f : Fault), k < Spec.byteCount s.config s.dma[n] →
      Spec.Transfers s.dma[n] k 0 s.dma[n].src s u b →
      (busRead u s.dma[n].sbank b = .error f ∨
        ∃ v, busRead u s.dma[n].sbank b = .ok v ∧
          busWrite u (0x2100 ||| (Spec.destination s.dma[n] k).setWidth 16) v = .error f) →
      busWrite s 0x420B (1#8 <<< n.val) = .error f)

/-- A one-register transfer from work RAM to the palette data port copies the bytes in order to successive CGRAM indexes modulo
1024, advances CGIDX by the size, and changes nothing else (R96, R104, R108, R112; `DMA_WRITEBACK` off). -/
def Obligations.DmaCopiesWorkRamToPalette : Prop :=
  ∀ (s : State) (n : Fin 7), s.config.dmaWriteback = false → s.dma[n].ctrl &&& 0x9F = 0 → s.dma[n].dest = 0x22 →
    s.dma[n].size ≠ 0 → s.dma[n].size.toNat ≤ 1024 → s.dma[n].src.toNat + s.dma[n].size.toNat ≤ 0x2000 →
    ∃ t, busWrite s 0x420B (1#8 <<< n.val) = .ok t ∧
      t = { s with ppu := { s.ppu with
        cgram := t.ppu.cgram, cgidx := BitVec.ofNat 10 (s.ppu.cgidx.toNat + s.dma[n].size.toNat) } } ∧
      (∀ i < s.dma[n].size.toNat,
        Cells.read t.ppu.cgram ((s.ppu.cgidx.toNat + i) % 1024) = Cells.read s.wram (s.dma[n].src.toNat + i)) ∧
      ∀ j, (∀ i < s.dma[n].size.toNat, j ≠ (s.ppu.cgidx.toNat + i) % 1024) →
        Cells.read t.ppu.cgram j = Cells.read s.ppu.cgram j

/-- A two-register transfer of 2k bytes from work RAM to the VRAM data ports, with the increment after the high byte by one, writes k
whole words at successive VRAM addresses modulo 2^16, low byte first, and changes nothing else (R94, R104, R108, R112;
90_conflicts.md C2, V-DMA-2; `DMA_WRITEBACK` off). -/
def Obligations.DmaCopiesWorkRamToVramWords : Prop :=
  ∀ (s : State) (n : Fin 7) (k : Nat), s.config.dmaWriteback = false → s.dma[n].ctrl &&& 0x9F = 0x01 → s.dma[n].dest = 0x18 →
    s.ppu.vmain = 0x80 → 0 < k → s.dma[n].size.toNat = 2 * k → s.dma[n].src.toNat + 2 * k ≤ 0x2000 →
    ∃ t, busWrite s 0x420B (1#8 <<< n.val) = .ok t ∧
      t = { s with ppu := { s.ppu with vram := t.ppu.vram, vaddr := BitVec.ofNat 16 (s.ppu.vaddr.toNat + k) } } ∧
      (∀ i < k, Cells.read t.ppu.vram ((s.ppu.vaddr.toNat + i) % 0x10000) =
        Cells.read s.wram (s.dma[n].src.toNat + 2 * i + 1) ++ Cells.read s.wram (s.dma[n].src.toNat + 2 * i)) ∧
      ∀ j, (∀ i < k, j ≠ (s.ppu.vaddr.toNat + i) % 0x10000) → Cells.read t.ppu.vram j = Cells.read s.ppu.vram j

/-! ## Reset and power-on -/

/-- The reset request sets what R340 lists and keeps everything else: WRAM, VRAM, CGRAM, the pointers, the other PPU registers, the
NMI enable, the cartridge and the parameters (R60, R340; decisions D17 to D20; the cycle count is the model's own, assumption log 5). -/
def Obligations.ResetSetsWhatItLists : Prop :=
  ∀ s : State,
    s.applyReset = { s with
      pc := s.rom.byte 0x7FFD ++ s.rom.byte 0x7FFC, a := 0, x := 0, y := 0, d := 0, sp := s.config.resetSp, pbr := 0, dbr := 0
      p := s.config.resetP ||| 0x20, e := true, ppu := { s.ppu with disp := 0 }, hdmaen := 0, memsel := 0
      dma := Vector.replicate 7 ⟨0, 0, 0, 0, 0⟩, cycles := 0 }

/-- Reset with cartridge bytes 0x7FFC = 0x00 and 0x7FFD = 0x80 yields PC = 0x8000, and after every reset E = 1 and P.M = 1
(R342). -/
def Obligations.ResetVectorExample : Prop :=
  ∀ s : State, s.applyReset.e = true ∧ getFlag s.applyReset.p .m = true ∧
    (s.rom.byte 0x7FFC = 0x00 → s.rom.byte 0x7FFD = 0x80 → s.applyReset.pc = 0x8000)

/-- Power-on refuses an image shorter than 0x8000 bytes and otherwise, with parameters in bounds, gives zeroed memories and
registers, WRAM as `WRAM_INIT`, and then reset; State.reset is power-on with the defaults and the blank image of the assumption log
(entry 1; R341, decisions D20 and D42; the refusal of out-of-bounds parameters is the model's, assumption log 8). -/
def Obligations.PowerOnZeroesThenResets : Prop :=
  (∀ cfg rom wram, rom.length < 0x8000 → powerOn cfg rom wram = .refused (.romTooShort rom.length)) ∧
  (∀ cfg rom wram, 0x8000 ≤ rom.length → ¬ Spec.parametersInBounds cfg →
    powerOn cfg rom wram = .refused .parametersOutOfBounds) ∧
  (∀ cfg rom wram, 0x8000 ≤ rom.length → Spec.parametersInBounds cfg →
    ∃ t, powerOn cfg rom wram = .next t ∧ t.applyReset = t ∧ t.wram = wram ∧ t.rom = rom ∧ t.config = cfg ∧
      t.ppu = ⟨0, 0, Vector.replicate 4 0, Vector.replicate 2 0, 0, 0, 0, 0, 0, [], []⟩ ∧ t.nmitimen = 0) ∧
  powerOn Config.default Rom.blank [] = .next State.reset

/-- Parsed sizes are `0x400 << byte` of the ROM-size and SRAM-size bytes at 0x7FD7 and 0x7FD8; the byte 0x05 gives 0x8000 (R100;
decision D42). -/
def Obligations.HeaderSizesAreShifted : Prop :=
  ∀ r : Rom, r.header.romSize = 0x400 <<< (r.byte 0x7FD7).toNat ∧ r.header.sramSize = 0x400 <<< (r.byte 0x7FD8).toNat ∧
    (r.byte 0x7FD7 = 0x05 → r.header.romSize = 0x8000) ∧
    r.header.resetVector = r.byte 0x7FFD ++ r.byte 0x7FFC

/-! ## Invariants and rules of the whole machine -/

/-- Every step from a state that meets the invariant gives one that meets it: memories canonical, S in page one while E = 1 (R35),
HDMAEN zero (R50), and the index high bytes clear while P.X = 1 under `X_FLAG_CLEARS_INDEX_HIGH` (R42). -/
def Obligations.EveryStepKeepsTheInvariant : Prop :=
  ∀ s t : State, Safety.Inv s → step s = .next t → Safety.Inv t

/-- The state after reset meets the invariant, and so does every power-on from a canonical image and canonical WRAM contents with
parameters in bounds. -/
def Obligations.ResetMeetsTheInvariant : Prop :=
  Safety.Inv State.reset ∧
  ∀ cfg rom wram t, Cells.wf rom.length rom.bytes = true → Memory.wf wram = true → powerOn cfg rom wram = .next t → Safety.Inv t

/-- No step changes the cartridge image or a parameter (R43: the image is read-only). -/
def Obligations.StepNeverChangesCartridgeOrParameters : Prop :=
  ∀ s t : State, step s = .next t → t.rom = s.rom ∧ t.config = s.config

/-- Which instructions write which register (R31 to R35, R38, R39): Y only LDY, D only TCD and PLD, DBR only PLB, PBR only JSL and
RTL, E only XCE, A and X only the instructions listed; X and Y also, under `X_FLAG_CLEARS_INDEX_HIGH`, SEP and PLP; S only TCS, TXS,
XCE when it leaves E = 1, and the instructions that push or pull; and PC, which the fetch has moved past the instruction, only the
calls, the returns, JMP and BNE. -/
def Obligations.OnlyListedInstructionsWriteARegister : Prop :=
  ∀ (i : Instr) (s t : State), exec i s = .next t →
    (t.dbr ≠ s.dbr → i = .plb) ∧
    (t.pbr ≠ s.pbr → i = .rtl ∨ ∃ a bk, i = .jsl a bk) ∧
    (t.e ≠ s.e → i = .xce) ∧
    (t.d ≠ s.d → i = .tcd ∨ i = .pld) ∧
    (t.a ≠ s.a → i = .ina ∨ i = .xba ∨ i = .pla ∨ ∃ v, i = .ldaImm v ∨ i = .ldaAbs v) ∧
    (t.y ≠ s.y → (∃ v, i = .ldyImm v) ∨ (s.config.xFlagClearsIndexHigh = true ∧ (i = .plp ∨ ∃ m, i = .sep m))) ∧
    (t.x ≠ s.x → i = .inx ∨ i = .dex ∨ i = .plx ∨ (∃ v, i = .ldxImm v ∨ i = .ldxAbs v) ∨
      (s.config.xFlagClearsIndexHigh = true ∧ (i = .plp ∨ ∃ m, i = .sep m))) ∧
    (t.sp ≠ s.sp → Spec.writesSp i = true ∧ (i = .xce → t.e = true)) ∧
    (t.pc ≠ s.pc → Spec.setsPc i = true)

/-- Which instructions write which flag (R37): V, D, M and X only REP, SEP and PLP; I also SEI and CLI; C also CLC, XCE and the
compares; Z and N also the instructions of their row; the stores Z and N only under `STORE_SETS_ZN`; a push, a jump, a call, a return,
a branch or an STZ no flag at all. -/
def Obligations.OnlyListedInstructionsWriteAFlag : Prop :=
  ∀ (i : Instr) (s t : State), exec i s = .next t → (i ≠ .plp ∧ (∀ m, i ≠ .rep m) ∧ ∀ m, i ≠ .sep m) →
    getFlag t.p .v = getFlag s.p .v ∧ getFlag t.p .d = getFlag s.p .d ∧ getFlag t.p .m = getFlag s.p .m ∧
    getFlag t.p .x = getFlag s.p .x ∧
    (getFlag t.p .i ≠ getFlag s.p .i → i = .sei ∨ i = .cli) ∧
    (getFlag t.p .c ≠ getFlag s.p .c → i = .clc ∨ i = .xce ∨ ∃ v, i = .cmpAbs v ∨ i = .cmpImm v ∨ i = .cpxAbs v ∨ i = .cpxImm v) ∧
    (getFlag t.p .z ≠ getFlag s.p .z ∨ getFlag t.p .n ≠ getFlag s.p .n → Spec.writesZN s.config i = true) ∧
    ((∃ a, i = .staAbs a ∨ i = .stxAbs a ∨ i = .styAbs a) ∨ (∃ dp, i = .staDp dp ∨ i = .stxDp dp) →
      s.config.storeSetsZn = false → t.p = s.p) ∧
    (i = .pha ∨ i = .phx ∨ i = .php ∨ i = .phk ∨ i = .rts ∨ i = .rtl ∨ i = .tcs ∨
      (∃ a, i = .jsr a ∨ i = .jmp a ∨ i = .stzAbs a) ∨ (∃ b, i = .bne b ∨ i = .stzDpX b) ∨ (∃ a bk, i = .jsl a bk) → t.p = s.p)

/-- An instruction that neither stores nor pushes leaves all memory and every hardware register as they were, so every bus read gives
what it gave before. -/
def Obligations.OtherInstructionsLeaveMemory : Prop :=
  ∀ (i : Instr) (s t : State), Spec.writesMemory i = false → exec i s = .next t →
    t.wram = s.wram ∧ t.ppu = s.ppu ∧ t.nmitimen = s.nmitimen ∧ t.hdmaen = s.hdmaen ∧ t.memsel = s.memsel ∧ t.dma = s.dma ∧
    ∀ bank b, busRead t bank b = busRead s bank b

/-- Every successful step returns a cycle count from 2 to 8 (R351; the counts are the spec's reading, decision D35), and nothing but
the instruction, the widths, D, Z and E enters it: not MEMSEL, the memory or a DMA transfer (R113, R352). -/
def Obligations.CycleCountsDependOnWidthsDZeroAndEmulationOnly : Prop :=
  (∀ s t : State, step s = .next t → 2 ≤ t.cycles ∧ t.cycles ≤ 8) ∧
  ∀ (i : Instr) (s s' t t' : State), exec i s = .next t → exec i s' = .next t' → s.widths = s'.widths →
    (s.d &&& 0x00FF = 0 ↔ s'.d &&& 0x00FF = 0) → getFlag s.p .z = getFlag s'.p .z → s.e = s'.e → t.cycles = t'.cycles
end

