-- ==== Sys2Proof/Laws/Flags.lean ====
section
/-! SUPPORT. Laws of the status byte, of width-masked values and of the flag computations. -/

namespace Sys2Proof.Laws

open Sys2Proof.Machine

/-- Writing a flag writes that flag and no other. -/
theorem getFlag_setFlag (p : Byte) (f g : Flag) (b : Bool) :
    getFlag (setFlag p f b) g = if g = f then b else getFlag p g := by
  cases f <;> cases g <;> cases b <;> simp [getFlag, setFlag, Flag.mask, Flag.bit]

/-- Two status bytes with the same eight flags are equal. -/
theorem byte_ext_flags {p q : Byte} (h : ∀ f, getFlag p f = getFlag q f) : p = q := by
  apply BitVec.eq_of_getLsbD_eq
  intro i hi
  have : i = 0 ∨ i = 1 ∨ i = 2 ∨ i = 3 ∨ i = 4 ∨ i = 5 ∨ i = 6 ∨ i = 7 := by omega
  rcases this with rfl | rfl | rfl | rfl | rfl | rfl | rfl | rfl
  · exact h .c
  · exact h .z
  · exact h .i
  · exact h .d
  · exact h .x
  · exact h .m
  · exact h .v
  · exact h .n

/-- setZN writes Z and N and keeps the six other flags. -/
theorem getFlag_setZN (p : Byte) (v : Word) (w : Width) (f : Flag) :
    getFlag (setZN p v w) f =
      match f with
      | .z => low v w == 0
      | .n => topBit v w
      | f => getFlag p f := by
  cases f <;> simp [setZN, getFlag_setFlag]

/-! ### Bytes of a word -/

theorem toNat_joinBytes (hi lo : Byte) : (joinBytes hi lo).toNat = hi.toNat * 256 + lo.toNat := by
  have h := lo.isLt
  simp only [joinBytes, BitVec.toNat_append, Nat.shiftLeft_eq]
  rw [show (2 : Nat) ^ 8 = 256 by rfl]
  have := Nat.two_pow_add_eq_or_of_lt (i := 8) (b := lo.toNat) h hi.toNat
  rw [show (2 : Nat) ^ 8 = 256 by rfl] at this
  rw [Nat.mul_comm, ← this]

theorem toNat_loByte (v : Word) : (loByte v).toNat = v.toNat % 256 := by
  simp [loByte, BitVec.extractLsb'_toNat]

theorem toNat_hiByte (v : Word) : (hiByte v).toNat = v.toNat / 256 := by
  have := v.isLt
  simp only [hiByte, BitVec.extractLsb'_toNat, Nat.shiftRight_eq_div_pow]
  omega

theorem toNat_zext16 (b : Byte) : (zext16 b).toNat = b.toNat := by
  have := b.isLt
  simp only [zext16, BitVec.toNat_setWidth]
  omega

@[simp] theorem loByte_joinBytes (hi lo : Byte) : loByte (joinBytes hi lo) = lo := by
  apply BitVec.eq_of_toNat_eq
  rw [toNat_loByte, toNat_joinBytes]
  have := lo.isLt
  omega

@[simp] theorem hiByte_joinBytes (hi lo : Byte) : hiByte (joinBytes hi lo) = hi := by
  apply BitVec.eq_of_toNat_eq
  rw [toNat_hiByte, toNat_joinBytes]
  have := lo.isLt
  omega

@[simp] theorem joinBytes_hi_lo (v : Word) : joinBytes (hiByte v) (loByte v) = v := by
  apply BitVec.eq_of_toNat_eq
  rw [toNat_joinBytes, toNat_hiByte, toNat_loByte]
  omega

@[simp] theorem loByte_zext16 (b : Byte) : loByte (zext16 b) = b := by
  apply BitVec.eq_of_toNat_eq
  rw [toNat_loByte, toNat_zext16]
  exact Nat.mod_eq_of_lt b.isLt

@[simp] theorem hiByte_zext16 (b : Byte) : hiByte (zext16 b) = 0 := by
  apply BitVec.eq_of_toNat_eq
  rw [toNat_hiByte, toNat_zext16]
  exact Nat.div_eq_of_lt b.isLt

theorem zext16_eq_joinBytes (b : Byte) : zext16 b = joinBytes 0 b := by
  rw [← joinBytes_hi_lo (zext16 b)]; simp

@[simp] theorem low_w16 (v : Word) : low v .w16 = v := rfl

@[simp] theorem low_w8 (v : Word) : low v .w8 = zext16 (loByte v) := rfl

@[simp] theorem setLow_w16 (r v : Word) : setLow r .w16 v = v := rfl

@[simp] theorem setLow_w8 (r v : Word) : setLow r .w8 v = joinBytes (hiByte r) (loByte v) := rfl

/-- Masking twice is masking once. -/
@[simp] theorem low_low (v : Word) (w : Width) : low (low v w) w = low v w := by
  cases w <;> simp

/-- The top bit of a masked value is the top bit of the value. -/
@[simp] theorem topBit_low (v : Word) (w : Width) : topBit (low v w) w = topBit v w := by
  cases w <;> simp [topBit, zext16, loByte]

/-- Compare writes C, Z and N and keeps the five other flags. -/
theorem getFlag_compareFlags (p : Byte) (r m : Word) (w : Width) (f : Flag) :
    getFlag (compareFlags p r m w) f =
      match f with
      | .c => decide ((low m w).toNat ≤ (low r w).toNat)
      | .z => low (low r w - low m w) w == 0
      | .n => topBit (low r w - low m w) w
      | f => getFlag p f := by
  cases f <;> simp [compareFlags, getFlag_setZN, getFlag_setFlag]

/-- A page-one address has high byte 0x01. -/
@[simp] theorem hiByte_pageOne (v : Word) : hiByte (pageOne v) = 0x01 := by simp [pageOne]

@[simp] theorem loByte_pageOne (v : Word) : loByte (pageOne v) = loByte v := by simp [pageOne]

/-! ### Widths -/

/-- The widths depend on P.M, P.X, E and `EMU_FORCES_WIDTH` alone. -/
theorem widths_congr {s t : State} (hm : getFlag t.p .m = getFlag s.p .m) (hx : getFlag t.p .x = getFlag s.p .x)
    (he : t.e = s.e) (hc : t.config = s.config) : t.widths = s.widths := by
  simp [State.widths, widthOf, hm, hx, he, hc]

end Sys2Proof.Laws
end

