-- ==== Sys2Proof/Laws/Memory.lean ====
section
/-! SUPPORT. Laws of the cell memories: read after write, the canonical form and what it is for. -/

namespace Sys2Proof.Laws

open Sys2Proof.Machine

variable {w : Nat}

@[simp] theorem read_nil (a : Nat) : Cells.read ([] : Cells w) a = 0 := rfl

theorem read_cons (b : Nat) (v : BitVec w) (m : Cells w) (a : Nat) :
    Cells.read ((b, v) :: m) a = if a = b then v else Cells.read m a := rfl

theorem read_erase_same (m : Cells w) (a : Nat) : Cells.read (Cells.erase m a) a = 0 := by
  induction m with
  | nil => rfl
  | cons c m ih =>
    obtain ⟨b, v⟩ := c
    by_cases h : a = b
    · simpa [Cells.erase, h] using h ▸ ih
    · simpa [Cells.erase, h, read_cons] using ih

theorem read_erase_other (m : Cells w) {a b : Nat} (h : b ≠ a) :
    Cells.read (Cells.erase m a) b = Cells.read m b := by
  induction m with
  | nil => rfl
  | cons c m ih =>
    obtain ⟨k, v⟩ := c
    by_cases hk : a = k
    · simp only [Cells.erase, if_pos hk, ih, read_cons]
      rw [if_neg (by omega)]
    · simp only [Cells.erase, if_neg hk, read_cons, ih]

theorem read_insert (m : Cells w) (a : Nat) (v : BitVec w) (b : Nat) :
    (∀ c ∈ m, c.1 ≠ a) → Cells.read (Cells.insert m a v) b = if b = a then v else Cells.read m b := by
  induction m with
  | nil => intro _; rfl
  | cons c m ih =>
    obtain ⟨k, x⟩ := c
    intro hne
    have hk : k ≠ a := hne (k, x) (by simp)
    have ih := ih (fun c hc => hne c (by simp [hc]))
    by_cases h : a < k
    · simp only [Cells.insert, if_pos h, read_cons]
    · simp only [Cells.insert, if_neg h, read_cons, ih]
      by_cases hb : b = k
      · have : b ≠ a := by omega
        simp [hb, hk]
      · simp [hb]

theorem not_mem_erase (m : Cells w) (a : Nat) : ∀ c ∈ Cells.erase m a, c.1 ≠ a := by
  induction m with
  | nil => simp [Cells.erase]
  | cons c m ih =>
    obtain ⟨k, x⟩ := c
    by_cases h : a = k
    · simp only [Cells.erase, if_pos h]
      exact ih
    · simp only [Cells.erase, if_neg h, List.mem_cons]
      rintro c (rfl | hc)
      · exact fun hk => h hk.symm
      · exact ih c hc

/-- Read after write, in every memory: the written cell reads the written value and every other cell reads as before. -/
theorem read_write (m : Cells w) (a : Nat) (v : BitVec w) (b : Nat) :
    Cells.read (Cells.write m a v) b = if b = a then v else Cells.read m b := by
  unfold Cells.write
  by_cases hv : v = 0
  · rw [if_pos hv]
    by_cases hb : b = a
    · rw [hb, read_erase_same, if_pos rfl, hv]
    · rw [read_erase_other m hb, if_neg hb]
  · rw [if_neg hv, read_insert _ _ _ _ (not_mem_erase m a)]
    by_cases hb : b = a
    · simp [hb]
    · rw [if_neg hb, if_neg hb, read_erase_other m hb]

@[simp] theorem read_write_same (m : Cells w) (a : Nat) (v : BitVec w) : Cells.read (Cells.write m a v) a = v := by
  simp [read_write]

theorem read_write_other (m : Cells w) {a b : Nat} (v : BitVec w) (h : b ≠ a) :
    Cells.read (Cells.write m a v) b = Cells.read m b := by
  simp [read_write, h]

/-! ### The canonical form -/

theorem wfFrom_cons (size lo a : Nat) (v : BitVec w) (m : Cells w) :
    Cells.wfFrom size lo ((a, v) :: m) = true ↔
      lo ≤ a ∧ a < size ∧ v ≠ 0 ∧ Cells.wfFrom size (a + 1) m = true := by
  simp [Cells.wfFrom, and_assoc]

theorem wfFrom_mono {size lo lo' : Nat} {m : Cells w} (h : lo' ≤ lo) (hm : Cells.wfFrom size lo m = true) :
    Cells.wfFrom size lo' m = true := by
  cases m with
  | nil => rfl
  | cons c m =>
    obtain ⟨a, v⟩ := c
    rw [wfFrom_cons] at hm ⊢
    exact ⟨by omega, hm.2⟩

theorem wfFrom_erase {size lo : Nat} {m : Cells w} (a : Nat) (hm : Cells.wfFrom size lo m = true) :
    Cells.wfFrom size lo (Cells.erase m a) = true := by
  induction m generalizing lo with
  | nil => rfl
  | cons c m ih =>
    obtain ⟨k, v⟩ := c
    rw [wfFrom_cons] at hm
    by_cases h : a = k
    · simp only [Cells.erase, if_pos h]
      exact wfFrom_mono (by omega) (ih hm.2.2.2)
    · simp only [Cells.erase, if_neg h]
      exact (wfFrom_cons ..).2 ⟨hm.1, hm.2.1, hm.2.2.1, ih hm.2.2.2⟩

theorem wfFrom_insert {size lo : Nat} {m : Cells w} {a : Nat} {v : BitVec w} (hlo : lo ≤ a) (ha : a < size) (hv : v ≠ 0)
    (hne : ∀ c ∈ m, c.1 ≠ a) (hm : Cells.wfFrom size lo m = true) :
    Cells.wfFrom size lo (Cells.insert m a v) = true := by
  induction m generalizing lo with
  | nil => exact (wfFrom_cons ..).2 ⟨hlo, ha, hv, rfl⟩
  | cons c m ih =>
    obtain ⟨k, x⟩ := c
    have hk : k ≠ a := hne (k, x) (by simp)
    rw [wfFrom_cons] at hm
    by_cases h : a < k
    · simp only [Cells.insert, if_pos h]
      exact (wfFrom_cons ..).2 ⟨hlo, ha, hv, (wfFrom_cons ..).2 ⟨by omega, hm.2⟩⟩
    · simp only [Cells.insert, if_neg h]
      exact (wfFrom_cons ..).2
        ⟨hm.1, hm.2.1, hm.2.2.1, ih (by omega) (fun c hc => hne c (by simp [hc])) hm.2.2.2⟩

/-- A write inside the memory keeps the canonical form. -/
theorem wf_write {size : Nat} {m : Cells w} {a : Nat} (v : BitVec w) (ha : a < size) (hm : Cells.wf size m = true) :
    Cells.wf size (Cells.write m a v) = true := by
  unfold Cells.write Cells.wf at *
  by_cases hv : v = 0
  · rw [if_pos hv]; exact wfFrom_erase a hm
  · rw [if_neg hv]
    exact wfFrom_insert (Nat.zero_le _) ha hv (not_mem_erase m a) (wfFrom_erase a hm)

theorem wf_nil (size : Nat) : Cells.wf size ([] : Cells w) = true := rfl

theorem read_eq_zero_of_wfFrom {size lo : Nat} {m : Cells w} (hm : Cells.wfFrom size lo m = true) {a : Nat} (h : a < lo) :
    Cells.read m a = 0 := by
  induction m generalizing lo with
  | nil => rfl
  | cons c m ih =>
    obtain ⟨k, v⟩ := c
    rw [wfFrom_cons] at hm
    rw [read_cons, if_neg (by omega)]
    exact ih hm.2.2.2 (by omega)

theorem eq_of_read_eq_from {size lo : Nat} {m n : Cells w} (hm : Cells.wfFrom size lo m = true)
    (hn : Cells.wfFrom size lo n = true) (h : ∀ a, Cells.read m a = Cells.read n a) : m = n := by
  induction m generalizing lo n with
  | nil =>
    cases n with
    | nil => rfl
    | cons c n =>
      obtain ⟨k, v⟩ := c
      rw [wfFrom_cons] at hn
      have hk := h k
      rw [read_nil, read_cons, if_pos rfl] at hk
      exact absurd hk.symm hn.2.2.1
  | cons c m ih =>
    obtain ⟨k, v⟩ := c
    rw [wfFrom_cons] at hm
    cases n with
    | nil =>
      have hk := h k
      rw [read_nil, read_cons, if_pos rfl] at hk
      exact absurd hk hm.2.2.1
    | cons c n =>
      obtain ⟨l, u⟩ := c
      rw [wfFrom_cons] at hn
      have hkl : k = l := by
        rcases Nat.lt_trichotomy k l with hlt | heq | hgt
        · have hk := h k
          rw [read_cons, if_pos rfl, read_cons, if_neg (by omega), read_eq_zero_of_wfFrom hn.2.2.2 (by omega)] at hk
          exact absurd hk hm.2.2.1
        · exact heq
        · have hl := h l
          rw [read_cons, if_neg (by omega), read_cons, if_pos rfl, read_eq_zero_of_wfFrom hm.2.2.2 (by omega)] at hl
          exact absurd hl.symm hn.2.2.1
      subst hkl
      have hv : v = u := by
        have hk := h k
        rwa [read_cons, if_pos rfl, read_cons, if_pos rfl] at hk
      subst hv
      have hrest : ∀ a, Cells.read m a = Cells.read n a := by
        intro a
        by_cases ha : a = k
        · rw [ha, read_eq_zero_of_wfFrom hm.2.2.2 (by omega), read_eq_zero_of_wfFrom hn.2.2.2 (by omega)]
        · have := h a
          rwa [read_cons, if_neg ha, read_cons, if_neg ha] at this
      rw [ih hm.2.2.2 hn.2.2.2 hrest]

/-- Equal memories are equal data: two canonical memories whose cells all read the same are the same list. -/
theorem eq_of_read_eq {size : Nat} {m n : Cells w} (hm : Cells.wf size m = true) (hn : Cells.wf size n = true)
    (h : ∀ a, Cells.read m a = Cells.read n a) : m = n :=
  eq_of_read_eq_from hm hn h

/-! ### An array as cells -/

theorem read_ofListFrom (l : List (BitVec w)) (i k : Nat) :
    Cells.read (Cells.ofListFrom i l) k = if i ≤ k then l.getD (k - i) 0 else 0 := by
  induction l generalizing i with
  | nil => simp [Cells.ofListFrom]
  | cons v l ih =>
    by_cases hv : v = 0
    · simp only [Cells.ofListFrom, if_pos hv, ih]
      by_cases h1 : i + 1 ≤ k
      · have : k - i = (k - (i + 1)) + 1 := by omega
        rw [if_pos h1, if_pos (by omega), this, List.getD_cons_succ]
      · rw [if_neg h1]
        by_cases h2 : i ≤ k
        · have : k - i = 0 := by omega
          rw [if_pos h2, this, List.getD_cons_zero, hv]
        · rw [if_neg h2]
    · simp only [Cells.ofListFrom, if_neg hv, read_cons, ih]
      by_cases hk : k = i
      · simp [hk]
      · rw [if_neg hk]
        by_cases h1 : i + 1 ≤ k
        · have : k - i = (k - (i + 1)) + 1 := by omega
          rw [if_pos h1, if_pos (by omega), this, List.getD_cons_succ]
        · rw [if_neg h1, if_neg (by omega)]

/-- The image made of a byte array reads the array. -/
theorem read_ofList (l : List Byte) (k : Nat) : (Rom.ofList l).byte k = l.getD k 0 := by
  simp [Rom.ofList, Rom.byte, read_ofListFrom]

theorem wfFrom_ofListFrom (l : List (BitVec w)) (i : Nat) :
    Cells.wfFrom (i + l.length) i (Cells.ofListFrom i l) = true := by
  induction l generalizing i with
  | nil => rfl
  | cons v l ih =>
    have hlen : i + (v :: l).length = (i + 1) + l.length := by simp; omega
    by_cases hv : v = 0
    · rw [hlen, Cells.ofListFrom, if_pos hv]
      exact wfFrom_mono (by omega) (ih (i + 1))
    · rw [hlen, Cells.ofListFrom, if_neg hv]
      exact (wfFrom_cons ..).2 ⟨Nat.le_refl _, by omega, hv, ih (i + 1)⟩

/-- The image made of a byte array is in canonical form. -/
theorem wf_ofList (l : List Byte) : Cells.wf (Rom.ofList l).length (Rom.ofList l).bytes = true := by
  simpa [Cells.wf, Rom.ofList] using wfFrom_ofListFrom l 0

end Sys2Proof.Laws
end

