-- ==== Sys2Proof/Laws/Bus.lean ====
section
/-! SUPPORT. One specification lemma for each shared operation of the bus, the DMA sequencer, the stack and the fetch: if it
answers a state, that state differs from the one before only as the lemma says. -/

namespace Sys2Proof.Laws

open Sys2Proof.Machine

/-! ### Sequencing -/

variable {α β : Type}

@[simp] theorem ok_bind (a : α) (f : α → Except Fault β) : (Except.ok a >>= f) = f a := rfl

@[simp] theorem error_bind (e : Fault) (f : α → Except Fault β) : ((Except.error e : Except Fault α) >>= f) = .error e := rfl

@[simp] theorem pure_eq_ok (a : α) : (pure a : Except Fault α) = .ok a := rfl

theorem bind_eq_ok {x : Except Fault α} {f : α → Except Fault β} {b : β} :
    (x >>= f) = .ok b ↔ ∃ a, x = .ok a ∧ f a = .ok b := by
  cases x <;> simp

theorem bind_eq_error {x : Except Fault α} {f : α → Except Fault β} {e : Fault} :
    (x >>= f) = .error e ↔ x = .error e ∨ ∃ a, x = .ok a ∧ f a = .error e := by
  cases x <;> simp

@[simp] theorem raise_ne_ok (f : Fault) (a : α) : (raise f : Except Fault α) = .ok a ↔ False := by simp [raise]

@[simp] theorem commit_ok (s : State) : commit (.ok s) = .next s := rfl

@[simp] theorem commit_error (f : Fault) : commit (.error f) = .fault f := rfl

theorem commit_eq_next {r : Except Fault State} {t : State} : commit r = .next t ↔ r = .ok t := by
  cases r <;> simp

theorem commit_eq_fault {r : Except Fault State} {f : Fault} : commit r = .fault f ↔ r = .error f := by
  cases r <;> simp

/-- No effect ends in a refusal. -/
theorem commit_ne_refused (r : Except Fault State) (q : Refusal) : commit r ≠ .refused q := by
  cases r <;> simp

/-! ### The address decoder -/

theorem decodeAddr_wram {addr : Word} : decodeAddr addr = .wram ↔ addr.toNat < 0x2000 := by
  unfold decodeAddr
  constructor
  · intro h
    by_contra hn
    rw [if_neg (by omega)] at h
    split at h
    · cases h
    · split at h
      · cases h
      · split at h <;> cases h
  · intro h
    rw [if_pos (by omega)]

theorem decodeAddr_rom {addr : Word} : decodeAddr addr = .rom ↔ 0x8000 ≤ addr.toNat := by
  unfold decodeAddr
  constructor
  · intro h
    by_contra hn
    split at h
    · cases h
    · split at h
      · cases h
      · split at h <;> cases h
  · intro h
    rw [if_neg (by omega), if_pos h]

theorem or_page (n : Nat) (h : n < 256) : 0x2100 ||| n = 0x2100 + n := by
  have h := Nat.two_pow_add_eq_or_of_lt (i := 8) (b := n) h 0x21
  norm_num at h
  exact h.symm

theorem toNat_dmaAddress (reg : Byte) : (dmaAddress reg).toNat = 0x2100 + reg.toNat := by
  simp only [dmaAddress, BitVec.toNat_or, toNat_zext16, BitVec.toNat_ofNat]
  norm_num
  exact or_page _ reg.isLt

/-- A DMA destination is a PPU register or unmapped (R108). -/
theorem decodeAddr_dmaAddress (reg : Byte) :
    (∃ r, decodeAddr (dmaAddress reg) = .ppu r) ∨ decodeAddr (dmaAddress reg) = .unmapped := by
  have hn := toNat_dmaAddress reg
  have hlt := reg.isLt
  unfold decodeAddr
  rw [if_neg (by omega), if_neg (by omega)]
  split
  · exact .inl ⟨_, rfl⟩
  · have hs : sysRegAt (dmaAddress reg).toNat = none := by
      unfold sysRegAt
      rw [if_neg (by omega), if_neg (by omega), if_neg (by omega), if_neg (by omega), dif_neg (by omega)]
    rw [hs]
    exact .inr rfl

/-- The bus write of a DMA byte is an ordinary bus write (R110). -/
theorem dmaWriteByte_eq_busWrite (s : State) (reg v : Byte) :
    dmaWriteByte s reg v = busWrite s (dmaAddress reg) v := by
  rcases decodeAddr_dmaAddress reg with ⟨r, h⟩ | h <;> simp [dmaWriteByte, busWrite, h]

/-! ### Bus reads -/

theorem busRead_wram {s : State} {addr : Word} (bank : Byte) (h : addr.toNat < 0x2000) :
    busRead s bank addr = .ok (Cells.read s.wram addr.toNat) := by
  simp [busRead, decodeAddr_wram.2 h]

theorem sysRead_congr {s t : State} (hc : t.config = s.config) (hd : t.dma = s.dma) (r : SysReg) :
    sysRead t r = sysRead s r := by
  cases r <;> simp only [sysRead, hc, hd]

/-- The offset in the words of R101. -/
theorem romOffset_eq (s : State) (bank : Byte) {addr : Word} (h : 0x8000 ≤ addr.toNat) :
    romOffset s bank addr = (bank &&& s.config.romBankMask).toNat * 0x8000 + (addr.toNat - 0x8000) := by
  have := addr.isLt
  unfold romOffset
  omega

theorem romOffset_congr {s t : State} (hc : t.config = s.config) (bank : Byte) (addr : Word) :
    romOffset t bank addr = romOffset s bank addr := by
  unfold romOffset
  rw [hc]

/-- A bus read looks at the memories, the DMA registers and the parameters alone. -/
theorem busRead_congr {s t : State} (hw : t.wram = s.wram) (hr : t.rom = s.rom) (hc : t.config = s.config)
    (hd : t.dma = s.dma) (bank : Byte) (addr : Word) : busRead t bank addr = busRead s bank addr := by
  simp only [busRead, romOffset_congr hc, sysRead_congr hc hd, hw, hr, hc]

/-! ### PPU register writes -/

/-- A register write keeps VRAM and CGRAM in canonical form. -/
theorem ppuWrite_wf {ppu t : Ppu} {r : PpuReg} {v : Byte} (h : ppuWrite ppu r v = .ok t)
    (hv : Cells.wf vramSize ppu.vram = true) (hc : Cells.wf cgramSize ppu.cgram = true) :
    Cells.wf vramSize t.vram = true ∧ Cells.wf cgramSize t.cgram = true := by
  have hport : ∀ high, vramDataWrite ppu high v = .ok t →
      Cells.wf vramSize t.vram = true ∧ Cells.wf cgramSize t.cgram = true := by
    intro high hh
    unfold vramDataWrite at hh
    split at hh
    · simp at hh
    · cases hh
      exact ⟨wf_write _ ppu.vaddr.isLt hv, hc⟩
  cases r <;> simp only [ppuWrite] at h
  case vmdatal => exact hport _ h
  case vmdatah => exact hport _ h
  case cgdata =>
    cases h
    exact ⟨hv, wf_write _ ppu.cgidx.isLt hc⟩
  all_goals (cases h; exact ⟨hv, hc⟩)

/-! ### The DMA sequencer -/

/-- `t` is `s` but for the PPU, with VRAM and CGRAM still canonical. -/
def PpuOnly (s t : State) : Prop :=
  t = { s with ppu := t.ppu } ∧
    (Cells.wf vramSize s.ppu.vram = true → Cells.wf cgramSize s.ppu.cgram = true →
      Cells.wf vramSize t.ppu.vram = true ∧ Cells.wf cgramSize t.ppu.cgram = true)

theorem PpuOnly.refl (s : State) : PpuOnly s s := ⟨rfl, fun h1 h2 => ⟨h1, h2⟩⟩

theorem PpuOnly.trans {s t u : State} (h1 : PpuOnly s t) (h2 : PpuOnly t u) : PpuOnly s u := by
  refine ⟨?_, fun hv hc => ?_⟩
  · rw [h2.1, h1.1]
  · obtain ⟨a, b⟩ := h1.2 hv hc
    exact h2.2 a b

theorem dmaWriteByte_spec {s t : State} {reg v : Byte} (h : dmaWriteByte s reg v = .ok t) : PpuOnly s t := by
  unfold dmaWriteByte at h
  split at h
  · simp only [bind_eq_ok, pure_eq_ok, Except.ok.injEq] at h
    obtain ⟨ppu, hp, rfl⟩ := h
    exact ⟨rfl, fun h1 h2 => ppuWrite_wf hp h1 h2⟩
  · simp at h

/-- A transfer changes the PPU alone. -/
theorem dmaRunBytes_spec {ch : DmaChannel} {k i : Nat} {a b : Word} {s t : State}
    (h : dmaRunBytes ch k i a s = .ok (t, b)) : PpuOnly s t := by
  induction k generalizing i a s with
  | zero => simp only [dmaRunBytes, Except.ok.injEq, Prod.mk.injEq] at h; exact h.1 ▸ PpuOnly.refl s
  | succ k ih =>
    simp only [dmaRunBytes, bind_eq_ok] at h
    obtain ⟨_, _, u, hu, hrest⟩ := h
    exact (dmaWriteByte_spec hu).trans (ih hrest)

/-- `t` is `s` but for the PPU and the DMA channels, with VRAM and CGRAM still canonical; the channels change under
`DMA_WRITEBACK` alone. -/
def DmaOnly (s t : State) : Prop :=
  t = { s with ppu := t.ppu, dma := t.dma } ∧ (s.config.dmaWriteback = false → t.dma = s.dma) ∧
    (Cells.wf vramSize s.ppu.vram = true → Cells.wf cgramSize s.ppu.cgram = true →
      Cells.wf vramSize t.ppu.vram = true ∧ Cells.wf cgramSize t.ppu.cgram = true)

theorem DmaOnly.refl (s : State) : DmaOnly s s := ⟨rfl, fun _ => rfl, fun h1 h2 => ⟨h1, h2⟩⟩

theorem DmaOnly.trans {s t u : State} (h1 : DmaOnly s t) (h2 : DmaOnly t u) : DmaOnly s u := by
  refine ⟨?_, fun hw => ?_, fun hv hc => ?_⟩
  · rw [h2.1, h1.1]
  · have hc : t.config = s.config := by rw [h1.1]
    rw [h2.2.1 (by rw [hc]; exact hw), h1.2.1 hw]
  · obtain ⟨a, b⟩ := h1.2.2 hv hc
    exact h2.2.2 a b

theorem dmaRunChannel_spec {s t : State} {n : Fin 7} (h : dmaRunChannel s n = .ok t) : DmaOnly s t := by
  simp only [dmaRunChannel, bind_eq_ok] at h
  obtain ⟨⟨u, b⟩, hu, h⟩ := h
  have hs := dmaRunBytes_spec hu
  split at h
  · rename_i hw
    simp only [pure_eq_ok, Except.ok.injEq] at h
    subst h
    refine ⟨by rw [hs.1], fun hn => ?_, hs.2⟩
    simp [hw] at hn
  · simp only [pure_eq_ok, Except.ok.injEq] at h
    subst h
    refine ⟨by rw [hs.1], fun _ => by rw [hs.1], hs.2⟩

theorem dmaRunChannels_spec {s t : State} {ns : List (Fin 7)} (h : dmaRunChannels s ns = .ok t) : DmaOnly s t := by
  induction ns generalizing s with
  | nil => simp only [dmaRunChannels, Except.ok.injEq] at h; exact h ▸ DmaOnly.refl s
  | cons n ns ih =>
    simp only [dmaRunChannels, bind_eq_ok] at h
    obtain ⟨u, hu, h⟩ := h
    exact (dmaRunChannel_spec hu).trans (ih h)

/-- A trigger changes the PPU and, under `DMA_WRITEBACK`, the channels, and nothing else. -/
theorem dmaTrigger_spec {s t : State} {v : Byte} (h : dmaTrigger s v = .ok t) : DmaOnly s t := by
  unfold dmaTrigger at h
  split at h
  · simp at h
  · simp only [bind_eq_ok] at h
    obtain ⟨_, _, h⟩ := h
    exact dmaRunChannels_spec h

/-! ### Bus writes -/

/-- `t` is `s` but for what lies behind the bus: WRAM, the PPU and the system registers. -/
def BusOnly (s t : State) : Prop :=
  t = { s with
    wram := t.wram, ppu := t.ppu, nmitimen := t.nmitimen, hdmaen := t.hdmaen, memsel := t.memsel, dma := t.dma }

theorem BusOnly.refl (s : State) : BusOnly s s := rfl

theorem BusOnly.trans {s t u : State} (h1 : BusOnly s t) (h2 : BusOnly t u) : BusOnly s u := by
  unfold BusOnly at *
  rw [h2, h1]

/-- Everything a bus write can do: it leaves the CPU registers, the cartridge and the parameters alone; of WRAM it changes at
most the byte it is addressed to; it keeps the memories canonical and HDMAEN zero. -/
theorem busWrite_spec {s t : State} {addr : Word} {v : Byte} (h : busWrite s addr v = .ok t) :
    BusOnly s t ∧
    t.wram = (if addr.toNat < 0x2000 then Cells.write s.wram addr.toNat v else s.wram) ∧
    (Cells.wf vramSize s.ppu.vram = true → Cells.wf cgramSize s.ppu.cgram = true →
      Cells.wf vramSize t.ppu.vram = true ∧ Cells.wf cgramSize t.ppu.cgram = true) ∧
    (s.hdmaen = 0 → t.hdmaen = 0) := by
  unfold busWrite at h
  have hw := decodeAddr_wram (addr := addr)
  split at h
  · rename_i hd
    cases h
    refine ⟨rfl, ?_, fun a b => ⟨a, b⟩, fun a => a⟩
    rw [if_pos (hw.1 hd)]
  · rename_i hd
    simp only [bind_eq_ok, pure_eq_ok, Except.ok.injEq] at h
    obtain ⟨ppu, hp, rfl⟩ := h
    refine ⟨rfl, ?_, fun a b => ppuWrite_wf hp a b, fun a => a⟩
    rw [if_neg (fun hlt => by rw [hw.2 hlt] at hd; cases hd)]
  · rename_i r hd
    have hn : ¬ addr.toNat < 0x2000 := fun hlt => by rw [hw.2 hlt] at hd; cases hd
    rw [if_neg hn]
    cases r <;> simp only [sysWrite] at h
    case mdmaen =>
      have := dmaTrigger_spec h
      refine ⟨?_, ?_, this.2.2, ?_⟩
      · unfold BusOnly; rw [this.1]
      · rw [this.1]
      · intro hz; rw [this.1]; exact hz
    case hdmaen =>
      split at h
      · cases h; exact ⟨rfl, rfl, fun a b => ⟨a, b⟩, fun _ => rfl⟩
      · simp at h
    all_goals (cases h; exact ⟨rfl, rfl, fun a b => ⟨a, b⟩, fun a => a⟩)
  · simp at h
  · simp at h

theorem busWrite_wram {s : State} {addr : Word} (v : Byte) (h : addr.toNat < 0x2000) :
    busWrite s addr v = .ok { s with wram := Cells.write s.wram addr.toNat v } := by
  simp [busWrite, decodeAddr_wram.2 h]

/-- `t` comes from `s` by bus writes: `BusOnly`, canonical memories and a zero HDMAEN are kept. -/
structure ByBusWrites (s t : State) : Prop where
  only : BusOnly s t
  wram : Memory.wf s.wram = true → Memory.wf t.wram = true
  ppu : Cells.wf vramSize s.ppu.vram = true → Cells.wf cgramSize s.ppu.cgram = true →
    Cells.wf vramSize t.ppu.vram = true ∧ Cells.wf cgramSize t.ppu.cgram = true
  hdmaen : s.hdmaen = 0 → t.hdmaen = 0

theorem ByBusWrites.refl (s : State) : ByBusWrites s s := ⟨rfl, id, fun a b => ⟨a, b⟩, id⟩

theorem ByBusWrites.trans {s t u : State} (h1 : ByBusWrites s t) (h2 : ByBusWrites t u) : ByBusWrites s u where
  only := h1.only.trans h2.only
  wram h := h2.wram (h1.wram h)
  ppu a b := h2.ppu (h1.ppu a b).1 (h1.ppu a b).2
  hdmaen h := h2.hdmaen (h1.hdmaen h)

theorem busWrite_by {s t : State} {addr : Word} {v : Byte} (h : busWrite s addr v = .ok t) : ByBusWrites s t := by
  obtain ⟨ho, hw, hp, hh⟩ := busWrite_spec h
  refine ⟨ho, fun hwf => ?_, hp, hh⟩
  rw [hw]
  split
  · rename_i hlt
    exact wf_write v hlt hwf
  · exact hwf

theorem memWrite_by {s t : State} {addr : Word} {w : Width} {v : Word} (h : memWrite s addr w v = .ok t) :
    ByBusWrites s t := by
  cases w <;> simp only [memWrite, bind_eq_ok] at h
  · exact busWrite_by h
  · obtain ⟨u, hu, ht⟩ := h
    exact (busWrite_by hu).trans (busWrite_by ht)

/-- What a 16-bit or 8-bit store leaves of WRAM: every byte outside the stored ones. -/
theorem memWrite_wram_frame {s t : State} {addr : Word} {w : Width} {v : Word} (h : memWrite s addr w v = .ok t)
    {b : Nat} (hb : b ≠ addr.toNat) (hb' : w = .w16 → b ≠ (addr + 1).toNat) :
    Cells.read t.wram b = Cells.read s.wram b := by
  have one : ∀ {s t : State} {addr : Word} {v : Byte}, busWrite s addr v = .ok t → b ≠ addr.toNat →
      Cells.read t.wram b = Cells.read s.wram b := by
    intro s t addr v h hb
    rw [(busWrite_spec h).2.1]
    split
    · exact read_write_other _ _ hb
    · rfl
  cases w <;> simp only [memWrite, bind_eq_ok] at h
  · exact one h hb
  · obtain ⟨u, hu, ht⟩ := h
    rw [one ht (hb' rfl), one hu hb]

/-! ### The stack -/

/-- `t` comes from `s` by bus writes and updates of S that keep page one while E = 1. -/
structure ByStack (s t : State) : Prop where
  only : t = { s with
    sp := t.sp, wram := t.wram, ppu := t.ppu, nmitimen := t.nmitimen, hdmaen := t.hdmaen, memsel := t.memsel, dma := t.dma }
  wram : Memory.wf s.wram = true → Memory.wf t.wram = true
  ppu : Cells.wf vramSize s.ppu.vram = true → Cells.wf cgramSize s.ppu.cgram = true →
    Cells.wf vramSize t.ppu.vram = true ∧ Cells.wf cgramSize t.ppu.cgram = true
  hdmaen : s.hdmaen = 0 → t.hdmaen = 0
  pageOne : s.e = true → hiByte t.sp = 0x01

theorem ByStack.trans {s t u : State} (h1 : ByStack s t) (h2 : ByStack t u) : ByStack s u where
  only := by rw [h2.only, h1.only]
  wram h := h2.wram (h1.wram h)
  ppu a b := h2.ppu (h1.ppu a b).1 (h1.ppu a b).2
  hdmaen h := h2.hdmaen (h1.hdmaen h)
  pageOne h := h2.pageOne (by rw [h1.only]; exact h)

theorem push8_by {s t : State} {v : Byte} (h : push8 s v = .ok t) : ByStack s t := by
  simp only [push8, bind_eq_ok, pure_eq_ok, Except.ok.injEq] at h
  obtain ⟨u, hu, rfl⟩ := h
  have hb := busWrite_by hu
  have ho := hb.only
  refine ⟨?_, hb.wram, hb.ppu, hb.hdmaen, fun he => ?_⟩
  · unfold BusOnly at ho; rw [ho]
  · have : u.e = true := by rw [ho]; exact he
    simp [spDown, this]

theorem push16_by {s t : State} {v : Word} (h : push16 s v = .ok t) : ByStack s t := by
  simp only [push16, bind_eq_ok] at h
  obtain ⟨u, hu, ht⟩ := h
  exact (push8_by hu).trans (push8_by ht)

/-- A pull changes S alone. -/
theorem pull8_spec {s t : State} {v : Byte} (h : pull8 s = .ok (t, v)) : t = { s with sp := spUp s.e s.sp } := by
  simp only [pull8, bind_eq_ok, pure_eq_ok, Except.ok.injEq, Prod.mk.injEq] at h
  obtain ⟨_, _, rfl, _⟩ := h
  rfl

theorem pull16_spec {s t : State} {v : Word} (h : pull16 s = .ok (t, v)) :
    t = { s with sp := spUp s.e (spUp s.e s.sp) } := by
  simp only [pull16, bind_eq_ok, pure_eq_ok, Except.ok.injEq, Prod.mk.injEq, Prod.exists] at h
  obtain ⟨u, lo, hu, w, hi, hw, rfl, _⟩ := h
  rw [pull8_spec hw, pull8_spec hu]

theorem spUp_pageOne {e : Bool} (h : e = true) (sp : Word) : hiByte (spUp e sp) = 0x01 := by simp [spUp, h]

/-! ### Fetch -/

/-- A fetch changes PC alone. -/
theorem fetch8_spec {s t : State} {b : Byte} (h : fetch8 s = .ok (t, b)) :
    t = { s with pc := s.pc + 1 } ∧ busRead s s.pbr s.pc = .ok b := by
  simp only [fetch8, bind_eq_ok, pure_eq_ok, Except.ok.injEq, Prod.mk.injEq] at h
  obtain ⟨b', hb, rfl, rfl⟩ := h
  exact ⟨rfl, hb⟩

theorem fetchBytes_spec {n : Nat} {s t : State} {bs : List Byte} (h : fetchBytes n s = .ok (t, bs)) :
    t = { s with pc := s.pc + BitVec.ofNat 16 n } ∧ bs.length = n := by
  induction n generalizing s bs with
  | zero =>
    simp only [fetchBytes, Except.ok.injEq, Prod.mk.injEq] at h
    obtain ⟨rfl, rfl⟩ := h
    simp
  | succ n ih =>
    simp only [fetchBytes, bind_eq_ok, pure_eq_ok, Except.ok.injEq, Prod.mk.injEq, Prod.exists] at h
    obtain ⟨u, b, hu, w, bs', hw, rfl, rfl⟩ := h
    obtain ⟨h1, h2⟩ := ih hw
    refine ⟨?_, by simp [h2]⟩
    rw [h1, (fetch8_spec hu).1]
    simp only [BitVec.add_assoc]
    congr 2
    rw [BitVec.add_comm]
    exact (BitVec.ofNat_add n 1).symm

/-- The decoder's part of a step changes PC alone. -/
theorem fetchInstr_spec {s t : State} {i : Instr} (h : fetchInstr s = .ok (t, i)) : t = { s with pc := t.pc } := by
  simp only [fetchInstr, bind_eq_ok, Prod.exists] at h
  obtain ⟨u, op, hu, h⟩ := h
  split at h
  · simp at h
  · simp only [bind_eq_ok, pure_eq_ok, Except.ok.injEq, Prod.mk.injEq, Prod.exists] at h
    obtain ⟨w, bs, hw, rfl, _⟩ := h
    rw [(fetchBytes_spec hw).1, (fetch8_spec hu).1]

end Sys2Proof.Laws
end

