-- ==== Sys2Proof/Laws/Operands.lean ====
section
/-! SUPPORT. What each shared operand shape of Machine/Operands.lean answers, said once: when it completes, with which state, and
which error it passes on. -/

namespace Sys2Proof.Laws

open Sys2Proof.Machine

theorem setZN_low (p : Byte) (v : Word) (w : Width) : setZN p (low v w) w = setZN p v w := by
  unfold setZN
  rw [low_low, topBit_low]

/-- A store takes only the bytes of its width. -/
theorem memWrite_low (s : State) (ea : Word) (w : Width) (v : Word) : memWrite s ea w (low v w) = memWrite s ea w v := by
  cases w <;> simp [memWrite]

/-- What a bus write leaves of the registers that the store shapes read. -/
theorem memWrite_keeps {s t : State} {ea : Word} {w : Width} {v : Word} (h : memWrite s ea w v = .ok t) :
    t.p = s.p ∧ t.e = s.e ∧ t.config = s.config := by
  have := (memWrite_by h).only
  unfold BusOnly at this
  rw [this]
  exact ⟨rfl, rfl, rfl⟩

/-- A register store completes exactly when its bytes can be written. -/
theorem storeRegister_eq_ok {s t : State} {r : DataReg} {ea : Word} {n : Nat} :
    storeRegister s r ea n = .ok t ↔ ∃ u, memWrite s ea (s.widthOfReg r) (s.get r) = .ok u ∧
      t = { u with p := if s.config.storeSetsZn then setZN s.p (s.get r) (s.widthOfReg r) else s.p, cycles := n } := by
  unfold storeRegister
  simp only [memWrite_low, bind_eq_ok, pure_eq_ok, Except.ok.injEq]
  refine exists_congr fun u => and_congr_right fun hu => ?_
  have hp := (memWrite_keeps hu).1
  rw [@eq_comm _ _ t]
  split
  · simp only [State.withZN, State.ret, setZN_low, hp]
  · simp only [State.ret, ← hp]

/-- A register store fails with the error of its first byte that cannot be written. -/
theorem storeRegister_eq_error {s : State} {r : DataReg} {ea : Word} {n : Nat} {f : Fault} :
    storeRegister s r ea n = .error f ↔ memWrite s ea (s.widthOfReg r) (s.get r) = .error f := by
  unfold storeRegister
  simp only [memWrite_low]
  cases memWrite s ea (s.widthOfReg r) (s.get r) <;> simp

theorem storeZero_eq_ok {s t : State} {ea : Word} :
    storeZero s ea = .ok t ↔ ∃ u, memWrite s ea s.widths.a 0 = .ok u ∧ t = u.ret (byWidth s.widths.x 4 5) := by
  unfold storeZero
  simp only [bind_eq_ok, pure_eq_ok, Except.ok.injEq, @eq_comm _ _ t]

theorem loadAbsolute_eq_ok {s t : State} {r : DataReg} {a : Word} :
    loadAbsolute s r a = .ok t ↔ ∃ v, memRead s s.dbr a (s.widthOfReg r) = .ok v ∧
      t = (writeBack s r v).ret (byWidth (s.widthOfReg r) 4 5) := by
  unfold loadAbsolute
  simp only [bind_eq_ok, pure_eq_ok, Except.ok.injEq, @eq_comm _ _ t]

theorem compareAbsolute_eq_ok {s t : State} {r : DataReg} {a : Word} {n : Nat} :
    compareAbsolute s r a n = .ok t ↔ ∃ m, memRead s s.dbr a (s.widthOfReg r) = .ok m ∧
      t = (s.withCompare (s.get r) m (s.widthOfReg r)).ret n := by
  unfold compareAbsolute
  simp only [bind_eq_ok, pure_eq_ok, Except.ok.injEq, @eq_comm _ _ t]

/-- A register push at its width: it does what the byte pushes do and sets the count. -/
theorem pushRegister_by {s t : State} {r : DataReg} (h : pushRegister s r = .ok t) :
    ∃ u, ByStack s u ∧ t = u.ret (byWidth (s.widthOfReg r) 3 4) := by
  unfold pushRegister at h
  split at h <;> rename_i hw <;> simp only [bind_eq_ok, pure_eq_ok, Except.ok.injEq] at h <;> obtain ⟨u, hu, rfl⟩ := h
  · exact ⟨u, push8_by hu, by rw [hw]; rfl⟩
  · exact ⟨u, push16_by hu, by rw [hw]; rfl⟩

/-- A register pull at its width: only S, the register, Z, N and the count change. -/
theorem pullRegister_spec {s t : State} {r : DataReg} (h : pullRegister s r = .ok t) :
    ∃ v sp, sp = byWidth (s.widthOfReg r) (spUp s.e s.sp) (spUp s.e (spUp s.e s.sp)) ∧
      t = (writeBack { s with sp := sp } r v).ret (byWidth (s.widthOfReg r) 4 5) := by
  unfold pullRegister at h
  split at h <;> rename_i hw <;> simp only [bind_eq_ok, pure_eq_ok, Except.ok.injEq] at h <;>
    obtain ⟨⟨u, v⟩, hu, rfl⟩ := h <;> rw [hw]
  · exact ⟨_, _, rfl, by rw [pull8_spec hu]; rfl⟩
  · exact ⟨_, _, rfl, by rw [pull16_spec hu]; rfl⟩

end Sys2Proof.Laws
end

