-- ==== Sys2Proof/Laws/PerInstr.lean ====
section
/-! SUPPORT. Statements made for every instruction, one lemma per constructor of Instr. -/

/-- An encoded instruction begins with an opcode byte of the map and is as long as that row's format says (R140, R141, R145). -/
def Sys2Proof.Laws.EncodedLength.Statement (i : Sys2Proof.Instr) : Prop :=
  ∀ wd : Sys2Proof.Widths, ∃ op operands row, Sys2Proof.encode wd i = op :: operands ∧
    Sys2Proof.opcodeRow? op = some row ∧ operands.length = row.format.operandBytes wd

namespace Sys2Proof.Laws.EncodedLength

theorem clc : Statement .clc :=
  fun _ => ⟨_, _, _, rfl, rfl, rfl⟩
theorem sei : Statement .sei :=
  fun _ => ⟨_, _, _, rfl, rfl, rfl⟩
theorem cli : Statement .cli :=
  fun _ => ⟨_, _, _, rfl, rfl, rfl⟩
theorem xce : Statement .xce :=
  fun _ => ⟨_, _, _, rfl, rfl, rfl⟩
theorem rep (imm8 : Byte) : Statement (.rep imm8) :=
  fun _ => ⟨_, _, _, rfl, rfl, rfl⟩
theorem sep (imm8 : Byte) : Statement (.sep imm8) :=
  fun _ => ⟨_, _, _, rfl, rfl, rfl⟩
theorem ldaImm (imm : Word) : Statement (.ldaImm imm) :=
  fun wd => ⟨_, _, _, rfl, rfl, by cases wd with | mk a x => cases a <;> rfl⟩
theorem ldxImm (imm : Word) : Statement (.ldxImm imm) :=
  fun wd => ⟨_, _, _, rfl, rfl, by cases wd with | mk a x => cases x <;> rfl⟩
theorem ldyImm (imm : Word) : Statement (.ldyImm imm) :=
  fun wd => ⟨_, _, _, rfl, rfl, by cases wd with | mk a x => cases x <;> rfl⟩
theorem ldaAbs (a : Word) : Statement (.ldaAbs a) :=
  fun _ => ⟨_, _, _, rfl, rfl, rfl⟩
theorem ldxAbs (a : Word) : Statement (.ldxAbs a) :=
  fun _ => ⟨_, _, _, rfl, rfl, rfl⟩
theorem staAbs (a : Word) : Statement (.staAbs a) :=
  fun _ => ⟨_, _, _, rfl, rfl, rfl⟩
theorem stxAbs (a : Word) : Statement (.stxAbs a) :=
  fun _ => ⟨_, _, _, rfl, rfl, rfl⟩
theorem styAbs (a : Word) : Statement (.styAbs a) :=
  fun _ => ⟨_, _, _, rfl, rfl, rfl⟩
theorem staDp (dp : Byte) : Statement (.staDp dp) :=
  fun _ => ⟨_, _, _, rfl, rfl, rfl⟩
theorem stxDp (dp : Byte) : Statement (.stxDp dp) :=
  fun _ => ⟨_, _, _, rfl, rfl, rfl⟩
theorem stzAbs (a : Word) : Statement (.stzAbs a) :=
  fun _ => ⟨_, _, _, rfl, rfl, rfl⟩
theorem stzDpX (dp : Byte) : Statement (.stzDpX dp) :=
  fun _ => ⟨_, _, _, rfl, rfl, rfl⟩
theorem tcd : Statement .tcd :=
  fun _ => ⟨_, _, _, rfl, rfl, rfl⟩
theorem tcs : Statement .tcs :=
  fun _ => ⟨_, _, _, rfl, rfl, rfl⟩
theorem txs : Statement .txs :=
  fun _ => ⟨_, _, _, rfl, rfl, rfl⟩
theorem inx : Statement .inx :=
  fun _ => ⟨_, _, _, rfl, rfl, rfl⟩
theorem dex : Statement .dex :=
  fun _ => ⟨_, _, _, rfl, rfl, rfl⟩
theorem ina : Statement .ina :=
  fun _ => ⟨_, _, _, rfl, rfl, rfl⟩
theorem xba : Statement .xba :=
  fun _ => ⟨_, _, _, rfl, rfl, rfl⟩
theorem cmpAbs (a : Word) : Statement (.cmpAbs a) :=
  fun _ => ⟨_, _, _, rfl, rfl, rfl⟩
theorem cmpImm (imm : Word) : Statement (.cmpImm imm) :=
  fun wd => ⟨_, _, _, rfl, rfl, by cases wd with | mk a x => cases a <;> rfl⟩
theorem cpxAbs (a : Word) : Statement (.cpxAbs a) :=
  fun _ => ⟨_, _, _, rfl, rfl, rfl⟩
theorem cpxImm (imm : Word) : Statement (.cpxImm imm) :=
  fun wd => ⟨_, _, _, rfl, rfl, by cases wd with | mk a x => cases x <;> rfl⟩
theorem pha : Statement .pha :=
  fun _ => ⟨_, _, _, rfl, rfl, rfl⟩
theorem phx : Statement .phx :=
  fun _ => ⟨_, _, _, rfl, rfl, rfl⟩
theorem php : Statement .php :=
  fun _ => ⟨_, _, _, rfl, rfl, rfl⟩
theorem phk : Statement .phk :=
  fun _ => ⟨_, _, _, rfl, rfl, rfl⟩
theorem pla : Statement .pla :=
  fun _ => ⟨_, _, _, rfl, rfl, rfl⟩
theorem plx : Statement .plx :=
  fun _ => ⟨_, _, _, rfl, rfl, rfl⟩
theorem pld : Statement .pld :=
  fun _ => ⟨_, _, _, rfl, rfl, rfl⟩
theorem plb : Statement .plb :=
  fun _ => ⟨_, _, _, rfl, rfl, rfl⟩
theorem plp : Statement .plp :=
  fun _ => ⟨_, _, _, rfl, rfl, rfl⟩
theorem jsr (a : Word) : Statement (.jsr a) :=
  fun _ => ⟨_, _, _, rfl, rfl, rfl⟩
theorem jsl (a : Word) (bank : Byte) : Statement (.jsl a bank) :=
  fun _ => ⟨_, _, _, rfl, rfl, rfl⟩
theorem rts : Statement .rts :=
  fun _ => ⟨_, _, _, rfl, rfl, rfl⟩
theorem rtl : Statement .rtl :=
  fun _ => ⟨_, _, _, rfl, rfl, rfl⟩
theorem jmp (a : Word) : Statement (.jmp a) :=
  fun _ => ⟨_, _, _, rfl, rfl, rfl⟩
theorem bne (rel : Byte) : Statement (.bne rel) :=
  fun _ => ⟨_, _, _, rfl, rfl, rfl⟩
theorem stp : Statement .stp :=
  fun _ => ⟨_, _, _, rfl, rfl, rfl⟩

end Sys2Proof.Laws.EncodedLength
end

