-- ==== Sys2Proof/Laws/State.lean ====
section
/-! SUPPORT. The fields of State after each named update: one lemma per field, so that no later proof unfolds a record update. -/

namespace Sys2Proof.Laws

open Sys2Proof.Machine

/-! ### `State.ret` -/

@[simp] theorem ret_pc (s : State) (n : Nat) : (s.ret n).pc = s.pc := rfl
@[simp] theorem ret_a (s : State) (n : Nat) : (s.ret n).a = s.a := rfl
@[simp] theorem ret_x (s : State) (n : Nat) : (s.ret n).x = s.x := rfl
@[simp] theorem ret_y (s : State) (n : Nat) : (s.ret n).y = s.y := rfl
@[simp] theorem ret_d (s : State) (n : Nat) : (s.ret n).d = s.d := rfl
@[simp] theorem ret_sp (s : State) (n : Nat) : (s.ret n).sp = s.sp := rfl
@[simp] theorem ret_pbr (s : State) (n : Nat) : (s.ret n).pbr = s.pbr := rfl
@[simp] theorem ret_dbr (s : State) (n : Nat) : (s.ret n).dbr = s.dbr := rfl
@[simp] theorem ret_p (s : State) (n : Nat) : (s.ret n).p = s.p := rfl
@[simp] theorem ret_e (s : State) (n : Nat) : (s.ret n).e = s.e := rfl
@[simp] theorem ret_wram (s : State) (n : Nat) : (s.ret n).wram = s.wram := rfl
@[simp] theorem ret_ppu (s : State) (n : Nat) : (s.ret n).ppu = s.ppu := rfl
@[simp] theorem ret_nmitimen (s : State) (n : Nat) : (s.ret n).nmitimen = s.nmitimen := rfl
@[simp] theorem ret_hdmaen (s : State) (n : Nat) : (s.ret n).hdmaen = s.hdmaen := rfl
@[simp] theorem ret_memsel (s : State) (n : Nat) : (s.ret n).memsel = s.memsel := rfl
@[simp] theorem ret_dma (s : State) (n : Nat) : (s.ret n).dma = s.dma := rfl
@[simp] theorem ret_rom (s : State) (n : Nat) : (s.ret n).rom = s.rom := rfl
@[simp] theorem ret_config (s : State) (n : Nat) : (s.ret n).config = s.config := rfl
@[simp] theorem ret_cycles (s : State) (n : Nat) : (s.ret n).cycles = n := rfl

/-! ### `State.withZN` -/

@[simp] theorem withZN_pc (s : State) (v : Word) (w : Width) : (s.withZN v w).pc = s.pc := rfl
@[simp] theorem withZN_a (s : State) (v : Word) (w : Width) : (s.withZN v w).a = s.a := rfl
@[simp] theorem withZN_x (s : State) (v : Word) (w : Width) : (s.withZN v w).x = s.x := rfl
@[simp] theorem withZN_y (s : State) (v : Word) (w : Width) : (s.withZN v w).y = s.y := rfl
@[simp] theorem withZN_d (s : State) (v : Word) (w : Width) : (s.withZN v w).d = s.d := rfl
@[simp] theorem withZN_sp (s : State) (v : Word) (w : Width) : (s.withZN v w).sp = s.sp := rfl
@[simp] theorem withZN_pbr (s : State) (v : Word) (w : Width) : (s.withZN v w).pbr = s.pbr := rfl
@[simp] theorem withZN_dbr (s : State) (v : Word) (w : Width) : (s.withZN v w).dbr = s.dbr := rfl
@[simp] theorem withZN_p (s : State) (v : Word) (w : Width) : (s.withZN v w).p = setZN s.p v w := rfl
@[simp] theorem withZN_e (s : State) (v : Word) (w : Width) : (s.withZN v w).e = s.e := rfl
@[simp] theorem withZN_wram (s : State) (v : Word) (w : Width) : (s.withZN v w).wram = s.wram := rfl
@[simp] theorem withZN_ppu (s : State) (v : Word) (w : Width) : (s.withZN v w).ppu = s.ppu := rfl
@[simp] theorem withZN_nmitimen (s : State) (v : Word) (w : Width) : (s.withZN v w).nmitimen = s.nmitimen := rfl
@[simp] theorem withZN_hdmaen (s : State) (v : Word) (w : Width) : (s.withZN v w).hdmaen = s.hdmaen := rfl
@[simp] theorem withZN_memsel (s : State) (v : Word) (w : Width) : (s.withZN v w).memsel = s.memsel := rfl
@[simp] theorem withZN_dma (s : State) (v : Word) (w : Width) : (s.withZN v w).dma = s.dma := rfl
@[simp] theorem withZN_rom (s : State) (v : Word) (w : Width) : (s.withZN v w).rom = s.rom := rfl
@[simp] theorem withZN_config (s : State) (v : Word) (w : Width) : (s.withZN v w).config = s.config := rfl
@[simp] theorem withZN_cycles (s : State) (v : Word) (w : Width) : (s.withZN v w).cycles = s.cycles := rfl

/-! ### `State.withCompare` -/

@[simp] theorem withCompare_pc (s : State) (r m : Word) (w : Width) : (s.withCompare r m w).pc = s.pc := rfl
@[simp] theorem withCompare_a (s : State) (r m : Word) (w : Width) : (s.withCompare r m w).a = s.a := rfl
@[simp] theorem withCompare_x (s : State) (r m : Word) (w : Width) : (s.withCompare r m w).x = s.x := rfl
@[simp] theorem withCompare_y (s : State) (r m : Word) (w : Width) : (s.withCompare r m w).y = s.y := rfl
@[simp] theorem withCompare_d (s : State) (r m : Word) (w : Width) : (s.withCompare r m w).d = s.d := rfl
@[simp] theorem withCompare_sp (s : State) (r m : Word) (w : Width) : (s.withCompare r m w).sp = s.sp := rfl
@[simp] theorem withCompare_pbr (s : State) (r m : Word) (w : Width) : (s.withCompare r m w).pbr = s.pbr := rfl
@[simp] theorem withCompare_dbr (s : State) (r m : Word) (w : Width) : (s.withCompare r m w).dbr = s.dbr := rfl
@[simp] theorem withCompare_p (s : State) (r m : Word) (w : Width) : (s.withCompare r m w).p = compareFlags s.p r m w := rfl
@[simp] theorem withCompare_e (s : State) (r m : Word) (w : Width) : (s.withCompare r m w).e = s.e := rfl
@[simp] theorem withCompare_wram (s : State) (r m : Word) (w : Width) : (s.withCompare r m w).wram = s.wram := rfl
@[simp] theorem withCompare_ppu (s : State) (r m : Word) (w : Width) : (s.withCompare r m w).ppu = s.ppu := rfl
@[simp] theorem withCompare_nmitimen (s : State) (r m : Word) (w : Width) : (s.withCompare r m w).nmitimen = s.nmitimen := rfl
@[simp] theorem withCompare_hdmaen (s : State) (r m : Word) (w : Width) : (s.withCompare r m w).hdmaen = s.hdmaen := rfl
@[simp] theorem withCompare_memsel (s : State) (r m : Word) (w : Width) : (s.withCompare r m w).memsel = s.memsel := rfl
@[simp] theorem withCompare_dma (s : State) (r m : Word) (w : Width) : (s.withCompare r m w).dma = s.dma := rfl
@[simp] theorem withCompare_rom (s : State) (r m : Word) (w : Width) : (s.withCompare r m w).rom = s.rom := rfl
@[simp] theorem withCompare_config (s : State) (r m : Word) (w : Width) : (s.withCompare r m w).config = s.config := rfl
@[simp] theorem withCompare_cycles (s : State) (r m : Word) (w : Width) : (s.withCompare r m w).cycles = s.cycles := rfl

/-! ### `State.setLow`, the fields no write touches -/

@[simp] theorem setLow_pc (s : State) (r : DataReg) (w : Width) (v : Word) : (s.setLow r w v).pc = s.pc := by cases r <;> rfl
@[simp] theorem setLow_d (s : State) (r : DataReg) (w : Width) (v : Word) : (s.setLow r w v).d = s.d := by cases r <;> rfl
@[simp] theorem setLow_sp (s : State) (r : DataReg) (w : Width) (v : Word) : (s.setLow r w v).sp = s.sp := by cases r <;> rfl
@[simp] theorem setLow_pbr (s : State) (r : DataReg) (w : Width) (v : Word) : (s.setLow r w v).pbr = s.pbr := by cases r <;> rfl
@[simp] theorem setLow_dbr (s : State) (r : DataReg) (w : Width) (v : Word) : (s.setLow r w v).dbr = s.dbr := by cases r <;> rfl
@[simp] theorem setLow_p (s : State) (r : DataReg) (w : Width) (v : Word) : (s.setLow r w v).p = s.p := by cases r <;> rfl
@[simp] theorem setLow_e (s : State) (r : DataReg) (w : Width) (v : Word) : (s.setLow r w v).e = s.e := by cases r <;> rfl
@[simp] theorem setLow_wram (s : State) (r : DataReg) (w : Width) (v : Word) : (s.setLow r w v).wram = s.wram := by cases r <;> rfl
@[simp] theorem setLow_ppu (s : State) (r : DataReg) (w : Width) (v : Word) : (s.setLow r w v).ppu = s.ppu := by cases r <;> rfl
@[simp] theorem setLow_nmitimen (s : State) (r : DataReg) (w : Width) (v : Word) : (s.setLow r w v).nmitimen = s.nmitimen := by cases r <;> rfl
@[simp] theorem setLow_hdmaen (s : State) (r : DataReg) (w : Width) (v : Word) : (s.setLow r w v).hdmaen = s.hdmaen := by cases r <;> rfl
@[simp] theorem setLow_memsel (s : State) (r : DataReg) (w : Width) (v : Word) : (s.setLow r w v).memsel = s.memsel := by cases r <;> rfl
@[simp] theorem setLow_dma (s : State) (r : DataReg) (w : Width) (v : Word) : (s.setLow r w v).dma = s.dma := by cases r <;> rfl
@[simp] theorem setLow_rom (s : State) (r : DataReg) (w : Width) (v : Word) : (s.setLow r w v).rom = s.rom := by cases r <;> rfl
@[simp] theorem setLow_config (s : State) (r : DataReg) (w : Width) (v : Word) : (s.setLow r w v).config = s.config := by cases r <;> rfl
@[simp] theorem setLow_cycles (s : State) (r : DataReg) (w : Width) (v : Word) : (s.setLow r w v).cycles = s.cycles := by cases r <;> rfl

/-! ### `State.setLow`, the register written and the others -/

@[simp] theorem setLow_a_a (s : State) (w : Width) (v : Word) : (s.setLow .a w v).a = setLow s.a w v := rfl
@[simp] theorem setLow_a_x (s : State) (w : Width) (v : Word) : (s.setLow .a w v).x = s.x := rfl
@[simp] theorem setLow_a_y (s : State) (w : Width) (v : Word) : (s.setLow .a w v).y = s.y := rfl
@[simp] theorem setLow_x_a (s : State) (w : Width) (v : Word) : (s.setLow .x w v).a = s.a := rfl
@[simp] theorem setLow_x_x (s : State) (w : Width) (v : Word) : (s.setLow .x w v).x = setLow s.x w v := rfl
@[simp] theorem setLow_x_y (s : State) (w : Width) (v : Word) : (s.setLow .x w v).y = s.y := rfl
@[simp] theorem setLow_y_a (s : State) (w : Width) (v : Word) : (s.setLow .y w v).a = s.a := rfl
@[simp] theorem setLow_y_x (s : State) (w : Width) (v : Word) : (s.setLow .y w v).x = s.x := rfl
@[simp] theorem setLow_y_y (s : State) (w : Width) (v : Word) : (s.setLow .y w v).y = setLow s.y w v := rfl

/-! ### `State.settleIndexHigh` -/

/-- Settling the index high bytes writes X and Y at most. -/
theorem settleIndexHigh_eq (s : State) :
    s.settleIndexHigh =
      { s with
        x := if s.config.xFlagClearsIndexHigh && getFlag s.p .x then low s.x .w8 else s.x
        y := if s.config.xFlagClearsIndexHigh && getFlag s.p .x then low s.y .w8 else s.y } := by
  unfold State.settleIndexHigh
  split <;> rfl

/-! ### `State.settleIndexHigh`, the fields it never touches -/

@[simp] theorem settleIndexHigh_pc (s : State) : (s.settleIndexHigh).pc = s.pc := by rw [settleIndexHigh_eq]
@[simp] theorem settleIndexHigh_a (s : State) : (s.settleIndexHigh).a = s.a := by rw [settleIndexHigh_eq]
@[simp] theorem settleIndexHigh_d (s : State) : (s.settleIndexHigh).d = s.d := by rw [settleIndexHigh_eq]
@[simp] theorem settleIndexHigh_sp (s : State) : (s.settleIndexHigh).sp = s.sp := by rw [settleIndexHigh_eq]
@[simp] theorem settleIndexHigh_pbr (s : State) : (s.settleIndexHigh).pbr = s.pbr := by rw [settleIndexHigh_eq]
@[simp] theorem settleIndexHigh_dbr (s : State) : (s.settleIndexHigh).dbr = s.dbr := by rw [settleIndexHigh_eq]
@[simp] theorem settleIndexHigh_p (s : State) : (s.settleIndexHigh).p = s.p := by rw [settleIndexHigh_eq]
@[simp] theorem settleIndexHigh_e (s : State) : (s.settleIndexHigh).e = s.e := by rw [settleIndexHigh_eq]
@[simp] theorem settleIndexHigh_wram (s : State) : (s.settleIndexHigh).wram = s.wram := by rw [settleIndexHigh_eq]
@[simp] theorem settleIndexHigh_ppu (s : State) : (s.settleIndexHigh).ppu = s.ppu := by rw [settleIndexHigh_eq]
@[simp] theorem settleIndexHigh_nmitimen (s : State) : (s.settleIndexHigh).nmitimen = s.nmitimen := by rw [settleIndexHigh_eq]
@[simp] theorem settleIndexHigh_hdmaen (s : State) : (s.settleIndexHigh).hdmaen = s.hdmaen := by rw [settleIndexHigh_eq]
@[simp] theorem settleIndexHigh_memsel (s : State) : (s.settleIndexHigh).memsel = s.memsel := by rw [settleIndexHigh_eq]
@[simp] theorem settleIndexHigh_dma (s : State) : (s.settleIndexHigh).dma = s.dma := by rw [settleIndexHigh_eq]
@[simp] theorem settleIndexHigh_rom (s : State) : (s.settleIndexHigh).rom = s.rom := by rw [settleIndexHigh_eq]
@[simp] theorem settleIndexHigh_config (s : State) : (s.settleIndexHigh).config = s.config := by rw [settleIndexHigh_eq]
@[simp] theorem settleIndexHigh_cycles (s : State) : (s.settleIndexHigh).cycles = s.cycles := by rw [settleIndexHigh_eq]

end Sys2Proof.Laws
end

