-- ==== Sys2Proof/Laws/Step.lean ====
section
/-! SUPPORT. Two facts about the whole step: an instruction never refuses, and which addresses hold nothing. -/

namespace Sys2Proof.Laws

open Sys2Proof.Machine

/-- Every meaning ends through `commit`: it answers a next state or a fault, never a refusal. -/
theorem exec_eq_commit (i : Instr) (s : State) : ∃ r, exec i s = commit r := by
  cases i <;>
    simp only [exec, execClc, execSei, execCli, execXce, execRep, execSep, execLdaImm, execLdxImm, execLdyImm, execLdaAbs,
      execLdxAbs, execStaAbs, execStxAbs, execStyAbs, execStaDp, execStxDp, execStzAbs, execStzDpX, execTcd, execTcs, execTxs,
      execInx, execDex, execIna, execXba, execCmpAbs, execCmpImm, execCpxAbs, execCpxImm, execPha, execPhx, execPhp, execPhk,
      execPla, execPlx, execPld, execPlb, execPlp, execJsr, execJsl, execRts, execRtl, execJmp, execBne, execStp] <;>
    exact ⟨_, rfl⟩

/-- The PPU register addresses of R46, and nothing else, hold a PPU register. -/
theorem ppuRegAt_eq_none {n : Nat}
    (h : n ∉ [0x2100, 0x2105, 0x2107, 0x2108, 0x2109, 0x210A, 0x210B, 0x210C, 0x2115, 0x2116, 0x2117, 0x2118, 0x2119,
      0x2121, 0x2122, 0x212C, 0x212D]) : ppuRegAt n = none := by
  simp only [List.mem_cons, List.not_mem_nil, or_false, not_or] at h
  obtain ⟨h1, h2, h3, h4, h5, h6, h7, h8, h9, h10, h11, h12, h13, h14, h15, h16, h17⟩ := h
  unfold ppuRegAt
  rw [if_neg h1, if_neg h2, dif_neg (by omega), dif_neg (by omega), if_neg h9, if_neg h10, if_neg h11, if_neg h12,
    if_neg h13, if_neg h14, if_neg h15, if_neg h16, if_neg h17]

/-- The system register addresses of R46, and nothing else, hold a system register. -/
theorem sysRegAt_eq_none {n : Nat} (h : n ∉ [0x4200, 0x420B, 0x420C, 0x420D])
    (hd : ¬ (0x4300 ≤ n ∧ n < 0x4370 ∧ n % 16 < 7)) : sysRegAt n = none := by
  simp only [List.mem_cons, List.not_mem_nil, or_false, not_or] at h
  obtain ⟨h1, h2, h3, h4⟩ := h
  unfold sysRegAt
  rw [if_neg h1, if_neg h2, if_neg h3, if_neg h4, dif_neg hd]

/-- An address between work RAM and the ROM window with no register is unmapped. -/
theorem decodeAddr_eq_unmapped {addr : Word} (h1 : 0x2000 ≤ addr.toNat) (h2 : addr.toNat < 0x8000)
    (hp : ppuRegAt addr.toNat = none) (hs : sysRegAt addr.toNat = none) : decodeAddr addr = .unmapped := by
  unfold decodeAddr
  rw [if_neg (by omega), if_neg (by omega), hp, hs]

end Sys2Proof.Laws
end

