-- ==== Sys2Proof/Tests/Slice0.lean ====
section
/-! SUPPORT. The model's own tests: decoding words written out from R141 and R144, the well-formedness smoke test, and one
step on small states. Every expected value is a vector of spec/95_test_vectors.md (named V-…) or an example of the rule cited.
After them, for each statement with hypotheses, a witness that meets the hypotheses. -/

namespace Sys2Proof.Tests

open Sys2Proof.Machine

/-! ### Helpers -/

/-- The outcome is a next state with the property. -/
def nextIs (o : Host.Outcome State Fault Refusal) (p : State → Bool) : Bool :=
  match o with
  | .next t => p t
  | .fault _ => false
  | .refused _ => false

/-- The outcome is this fault. -/
def faultIs (o : Host.Outcome State Fault Refusal) (f : Fault) : Bool :=
  match o with
  | .fault g => decide (g = f)
  | .next _ => false
  | .refused _ => false

/-- The state of 95_test_vectors.md's conventions, after reset with PC = 0x8000, and these bytes at 00:8000. -/
def boot (code : List Byte) : State :=
  State.applyReset { State.reset with rom := ⟨0x8000, Cells.ofListFrom 0 code ++ [(0x7FFD, 0x80)]⟩ }

/-- A byte of WRAM. -/
def ram (s : State) (i : Nat) : Byte := Cells.read s.wram i

/-- P has these Z and N. -/
def znAre (s : State) (z n : Bool) : Bool := getFlag s.p .z == z && getFlag s.p .n == n

/-! ### Well-formedness: an 8-bit immediate above 0xFF is refused in each of the five forms -/

theorem test_wellFormed_refuses_lda : Instr.wellFormed ⟨.w8, .w16⟩ (.ldaImm 0x100) = false := by decide
theorem test_wellFormed_refuses_cmp : Instr.wellFormed ⟨.w8, .w16⟩ (.cmpImm 0x1234) = false := by decide
theorem test_wellFormed_refuses_ldx : Instr.wellFormed ⟨.w16, .w8⟩ (.ldxImm 0x100) = false := by decide
theorem test_wellFormed_refuses_ldy : Instr.wellFormed ⟨.w16, .w8⟩ (.ldyImm 0xFFFF) = false := by decide
theorem test_wellFormed_refuses_cpx : Instr.wellFormed ⟨.w16, .w8⟩ (.cpxImm 0x100) = false := by decide
theorem test_wellFormed_admits_lda16 : Instr.wellFormed ⟨.w16, .w8⟩ (.ldaImm 0x1234) = true := by decide

/-! ### Decoding: every opcode byte of R144 with operand bytes 34 12 7E where the format has them -/

/-- The instruction decoded from bytes under widths, none if there is none or bytes are left over. -/
def decodesTo (wd : Widths) (bytes : List Byte) : Option Instr :=
  match decode wd bytes with
  | .ok (i, []) => some i
  | _ => none

/-- Both widths 8. -/
def narrow : Widths := ⟨.w8, .w8⟩

/-- Both widths 16. -/
def wide : Widths := ⟨.w16, .w16⟩

theorem test_decode_flag_mode :
    [[0x18], [0x78], [0x58], [0xFB], [0xC2, 0x30], [0xE2, 0x20]].map (decodesTo narrow) =
      [some .clc, some .sei, some .cli, some .xce, some (.rep 0x30), some (.sep 0x20)] := by decide

theorem test_decode_immediates_8 :
    [[0xA9, 0x34], [0xA2, 0x34], [0xA0, 0x34], [0xC9, 0x34], [0xE0, 0x34]].map (decodesTo narrow) =
      [some (.ldaImm 0x34), some (.ldxImm 0x34), some (.ldyImm 0x34), some (.cmpImm 0x34), some (.cpxImm 0x34)] := by
  decide

theorem test_decode_immediates_16 :
    [[0xA9, 0x34, 0x12], [0xA2, 0x34, 0x12], [0xA0, 0x34, 0x12], [0xC9, 0x34, 0x12], [0xE0, 0x34, 0x12]].map
        (decodesTo wide) =
      [some (.ldaImm 0x1234), some (.ldxImm 0x1234), some (.ldyImm 0x1234), some (.cmpImm 0x1234),
        some (.cpxImm 0x1234)] := by
  decide

theorem test_decode_load_store :
    [[0xAD, 0x34, 0x12], [0xAE, 0x34, 0x12], [0x8D, 0x34, 0x12], [0x8E, 0x34, 0x12], [0x8C, 0x34, 0x12], [0x85, 0x34],
        [0x86, 0x34], [0x9C, 0x34, 0x12], [0x74, 0x34]].map (decodesTo wide) =
      [some (.ldaAbs 0x1234), some (.ldxAbs 0x1234), some (.staAbs 0x1234), some (.stxAbs 0x1234), some (.styAbs 0x1234),
        some (.staDp 0x34), some (.stxDp 0x34), some (.stzAbs 0x1234), some (.stzDpX 0x34)] := by
  decide

theorem test_decode_transfer_compare :
    [[0x5B], [0x1B], [0x9A], [0xE8], [0xCA], [0x1A], [0xEB], [0xCD, 0x34, 0x12], [0xEC, 0x34, 0x12]].map
        (decodesTo narrow) =
      [some .tcd, some .tcs, some .txs, some .inx, some .dex, some .ina, some .xba, some (.cmpAbs 0x1234),
        some (.cpxAbs 0x1234)] := by
  decide

theorem test_decode_stack :
    [[0x48], [0xDA], [0x08], [0x4B], [0x68], [0xFA], [0x2B], [0xAB], [0x28]].map (decodesTo narrow) =
      [some .pha, some .phx, some .php, some .phk, some .pla, some .plx, some .pld, some .plb, some .plp] := by decide

theorem test_decode_control :
    [[0x20, 0x34, 0x12], [0x22, 0x34, 0x12, 0x7E], [0x60], [0x6B], [0x4C, 0x34, 0x12], [0xD0, 0xFB], [0xDB]].map
        (decodesTo narrow) =
      [some (.jsr 0x1234), some (.jsl 0x1234 0x7E), some .rts, some .rtl, some (.jmp 0x1234), some (.bne 0xFB),
        some .stp] := by
  decide

/-- V-D1, V-D2, V-D4: bytes outside the map. -/
theorem test_decode_unknown :
    ([0x00, 0xEA, 0x40, 0xCB, 0x42, 0xA5] : List Byte).map (fun op => (opcodeRow? op).isNone) =
      [true, true, true, true, true, true] := by
  decide

/-- The host's view: the first byte is the low byte of the table word, and operand bytes beyond the row's bits are 0. -/
theorem test_decodeTableWord :
    decodeTableWord 8 0xA9 = some (.ldaImm 0) ∧ decodeTableWord 32 0x7E123422 = some (.jsl 0x1234 0x7E) ∧
      decodeTableWord 8 0x00 = none := by
  decide

/-- `step` runs the placed instruction after reset: JSL is placed and jumps to 7E:1234. -/
theorem test_withFetchWord :
    nextIs (step (State.reset.withFetchWord 32 0x7E123422)) (fun t => t.pc == 0x1234 && t.pbr == 0x7E) = true := by
  decide

/-- Every opcode of the map, placed after reset, runs to a next state, but for STP, which halts. -/
theorem test_every_opcode_runs_after_reset :
    opcodeMap.all (fun r =>
      let o := step (State.reset.withFetchWord 8 r.opcode.toNat)
      if r.opcode = 0xDB then faultIs o .halted else nextIs o (fun _ => true)) = true := by
  decide

/-! ### Reset (V-S6, V-R3, V-R4, V-S5) -/

theorem test_reset_vector :
    (boot []).pc = 0x8000 ∧ (boot []).p = 0x34 ∧ (boot []).e = true ∧ (boot []).sp = 0x0100 := by decide

theorem test_reset_p_forces_m :
    (State.applyReset { State.reset with config := { Config.default with resetP := 0x04 } }).p = 0x24 := by decide

theorem test_powerOn_refuses_short :
    (match powerOn Config.default ⟨0x4000, []⟩ [] with
     | .refused r => decide (r = .romTooShort 0x4000)
     | _ => false) = true := by
  decide

theorem test_header_sizes :
    (Rom.header ⟨0x8000, [(0x7FD7, 0x05), (0x7FD8, 0x03)]⟩).romSize = 0x8000 ∧
      (Rom.header ⟨0x8000, [(0x7FD7, 0x05), (0x7FD8, 0x03)]⟩).sramSize = 0x2000 := by
  decide

/-! ### Flags and mode (V-F1 to V-F13) -/

theorem test_clc : nextIs (step { boot [0x18] with p := 0x35 })
    (fun t => t.p == 0x34 && t.pc == 0x8001 && t.cycles == 2) = true := by decide

theorem test_sei : nextIs (exec .sei { boot [] with p := 0x30 }) (fun t => t.p == 0x34 && t.cycles == 2) = true := by decide

theorem test_cli : nextIs (exec .cli { boot [] with p := 0x34 }) (fun t => t.p == 0x30 && t.cycles == 2) = true := by decide

theorem test_xce_leaves_emulation : nextIs (step (boot [0xFB]))
    (fun t => !t.e && t.p == 0x35 && t.sp == 0x0100 && t.cycles == 2) = true := by decide

theorem test_xce_enters_emulation : nextIs (exec .xce { boot [] with e := false, p := 0x35, sp := 0x1234 })
    (fun t => t.e && t.p == 0x34 && t.sp == 0x0134) = true := by decide

theorem test_rep : nextIs (step (boot [0xC2, 0x30])) (fun t => t.p == 0x04 && t.pc == 0x8002 && t.cycles == 3) = true := by
  decide

theorem test_sep_keeps_index_high : nextIs (exec (.sep 0x10) { boot [] with p := 0x04, x := 0x1234, y := 0xABCD })
    (fun t => t.p == 0x14 && t.x == 0x1234 && t.y == 0xABCD && t.cycles == 3) = true := by decide

theorem test_sep_clears_index_high : nextIs (exec (.sep 0x10)
      { boot [] with p := 0x04, x := 0x1234, y := 0xABCD, config := { Config.default with xFlagClearsIndexHigh := true } })
    (fun t => t.p == 0x14 && t.x == 0x0034 && t.y == 0x00CD) = true := by decide

/-! ### Loads and stores (V-S1, V-S7, V-L…) -/

theorem test_ldaImm_8 : nextIs (step { boot [0xA9, 0x80] with a := 0x1234, p := 0x36 })
    (fun t => t.a == 0x1280 && t.p == 0xB4 && t.pc == 0x8002 && t.cycles == 2) = true := by decide

theorem test_ldaImm_16 : nextIs (step { boot [0xA9, 0x00, 0x80] with p := 0x04 })
    (fun t => t.a == 0x8000 && znAre t false true && t.pc == 0x8003 && t.cycles == 3) = true := by decide

theorem test_ldxImm_8 : nextIs (step { boot [0xA2, 0x07] with x := 0xAB00 }) (fun t => t.x == 0xAB07) = true := by decide

theorem test_ldyImm_8 : nextIs (step { boot [0xA0, 0x00] with y := 0xAB00 })
    (fun t => t.y == 0xAB00 && znAre t true false && t.cycles == 2) = true := by decide

theorem test_ldaAbs_rom : nextIs (exec (.ldaAbs 0x9000) { boot [] with rom := ⟨0x10000, [(0x9000, 0xFE)]⟩, dbr := 0x01 })
    (fun t => t.a == 0x00FE && znAre t false true && t.cycles == 4) = true := by decide

theorem test_ldaAbs_second_byte_unmapped : faultIs (exec (.ldaAbs 0x1FFF) { boot [] with p := 0x14 })
    (.unmappedAccess 0x002000) = true := by decide

theorem test_ldxAbs_16 : nextIs (exec (.ldxAbs 0x0010) { boot [] with p := 0x04, wram := [(0x11, 0x80)] })
    (fun t => t.x == 0x8000 && znAre t false true && t.cycles == 5) = true := by decide

theorem test_staAbs_register : nextIs (exec (.staAbs 0x2115) { boot [] with a := 0x0080 })
    (fun t => t.ppu.vmain == 0x80 && znAre t false true && t.cycles == 4) = true := by decide

theorem test_staAbs_second_byte_faults : faultIs (exec (.staAbs 0x420B) { boot [] with p := 0x14, a := 0x0100 })
    (.unsupportedDmaMode 8) = true := by decide

theorem test_stxAbs_16 : nextIs (exec (.stxAbs 0x0100) { boot [] with p := 0x04, x := 0x1234 })
    (fun t => ram t 0x100 == 0x34 && ram t 0x101 == 0x12 && t.cycles == 5) = true := by decide

theorem test_styAbs_8 : nextIs (exec (.styAbs 0x0100) { boot [] with y := 0x1200, wram := [(0x100, 0x77)] })
    (fun t => ram t 0x100 == 0x00 && znAre t true false && t.cycles == 4) = true := by decide

theorem test_staDp_wraps : nextIs (exec (.staDp 0x02) { boot [] with d := 0xFFFF, a := 0x0041 })
    (fun t => ram t 0x0001 == 0x41 && t.cycles == 4) = true := by decide

theorem test_stxDp_16 : nextIs (exec (.stxDp 0x0F) { boot [] with d := 0x0001, p := 0x04, x := 0xBEEF })
    (fun t => ram t 0x10 == 0xEF && ram t 0x11 == 0xBE && znAre t false true && t.cycles == 5) = true := by decide

theorem test_stzAbs_by_m : nextIs (exec (.stzAbs 0x0300) { boot [] with p := 0x24, wram := [(0x300, 0xFF), (0x301, 0xFF)] })
    (fun t => ram t 0x300 == 0x00 && ram t 0x301 == 0xFF && t.p == 0x24 && t.cycles == 5) = true := by decide

theorem test_stzDpX_low_x : nextIs (exec (.stzDpX 0x10) { boot [] with x := 0xFF05, wram := [(0x15, 0xFF)] })
    (fun t => ram t 0x15 == 0x00 && t.cycles == 4) = true := by decide

/-! ### Transfers, increments and compares (V-T…, V-S8) -/

theorem test_tcd : nextIs (exec .tcd { boot [] with a := 0x8000 }) (fun t => t.d == 0x8000 && znAre t false true) = true := by
  decide

theorem test_tcs : nextIs (exec .tcs { boot [] with a := 0x1234 }) (fun t => t.sp == 0x0134 && t.p == 0x34) = true := by
  decide

theorem test_txs_native_8 : nextIs (exec .txs { boot [] with e := false, x := 0x12FF })
    (fun t => t.sp == 0x00FF && znAre t false true) = true := by decide

theorem test_txs_emulation_16 : nextIs (exec .txs { boot [] with p := 0x24, x := 0x1FFF })
    (fun t => t.sp == 0x01FF && znAre t false false) = true := by decide

theorem test_inx_8 : nextIs (exec .inx { boot [] with x := 0x12FF }) (fun t => t.x == 0x1200 && znAre t true false) = true := by
  decide

theorem test_dex_8 : nextIs (exec .dex { boot [] with x := 0x1200 }) (fun t => t.x == 0x12FF && znAre t false true) = true := by
  decide

theorem test_ina_16 : nextIs (exec .ina { boot [] with p := 0x14, a := 0x7FFF })
    (fun t => t.a == 0x8000 && t.p == 0x94) = true := by decide

theorem test_xba : nextIs (exec .xba { boot [] with a := 0x00FF })
    (fun t => t.a == 0xFF00 && znAre t true false && t.cycles == 3) = true := by decide

theorem test_cmpAbs : nextIs (exec (.cmpAbs 0x0040) { boot [] with a := 0x0010, p := 0xB4, wram := [(0x40, 0x10)] })
    (fun t => t.p == 0x37 && t.a == 0x0010 && t.cycles == 4) = true := by decide

theorem test_cmpImm_fails : nextIs (exec (.cmpImm 0x20) { boot [] with a := 0x0010, p := 0x37 })
    (fun t => t.p == 0xB4) = true := by decide

theorem test_cpxAbs_16 : nextIs (exec (.cpxAbs 0x0020) { boot [] with p := 0x04, x := 0x0100, wram := [(0x21, 0x02)] })
    (fun t => t.p == 0x84 && t.cycles == 3) = true := by decide

theorem test_cpxImm_8 : nextIs (exec (.cpxImm 0x05) { boot [] with x := 0xFF05 })
    (fun t => t.p == 0x37 && t.cycles == 2) = true := by decide

/-! ### Stack (V-K…) -/

theorem test_pha_page_one : nextIs (exec .pha { boot [] with p := 0x14, a := 0x1234 })
    (fun t => ram t 0x100 == 0x12 && ram t 0x1FF == 0x34 && t.sp == 0x01FE && t.cycles == 4) = true := by decide

theorem test_pha_register_region : nextIs (exec .pha { boot [] with e := false, sp := 0x2117, a := 0x0012 })
    (fun t => t.ppu.vaddr == 0x1200 && t.sp == 0x2116 && t.cycles == 3) = true := by decide

theorem test_phx_8 : nextIs (exec .phx { boot [] with sp := 0x01FF, x := 0xAB05 })
    (fun t => ram t 0x1FF == 0x05 && t.sp == 0x01FE) = true := by decide

theorem test_php : nextIs (exec .php { boot [] with p := 0x37, sp := 0x01FF })
    (fun t => ram t 0x1FF == 0x37 && t.sp == 0x01FE && t.cycles == 3) = true := by decide

theorem test_php_in_rom : faultIs (exec .php { boot [] with e := false, sp := 0x8000 }) (.unmappedAccess 0x008000) = true := by
  decide

theorem test_phk : nextIs (exec .phk { boot [] with pbr := 0x01, sp := 0x01FF }) (fun t => ram t 0x1FF == 0x01) = true := by
  decide

theorem test_pla_16 : nextIs (exec .pla { boot [] with e := false, p := 0x14, sp := 0x01FB, wram := [(0x1FC, 0x34), (0x1FD, 0x12)] })
    (fun t => t.a == 0x1234 && t.sp == 0x01FD && znAre t false false && t.cycles == 5) = true := by decide

theorem test_plx_8 : nextIs (exec .plx { boot [] with sp := 0x01FE, x := 0x1200, wram := [(0x1FF, 0x80)] })
    (fun t => t.x == 0x1280 && t.sp == 0x01FF && znAre t false true && t.cycles == 4) = true := by decide

theorem test_pld_page_one : nextIs (exec .pld { boot [] with sp := 0x01FF, wram := [(0x101, 0x21)] })
    (fun t => t.d == 0x2100 && t.sp == 0x0101 && t.cycles == 5) = true := by decide

theorem test_plb : nextIs (exec .plb { boot [] with sp := 0x01FE, wram := [(0x1FF, 0x81)] })
    (fun t => t.dbr == 0x81 && znAre t false true && t.cycles == 4) = true := by decide

theorem test_plp : nextIs (exec .plp { boot [] with sp := 0x01FE, wram := [(0x1FF, 0x03)] })
    (fun t => t.p == 0x03 && t.cycles == 4) = true := by decide

/-! ### Control transfer (V-C…) -/

theorem test_jsr : nextIs (exec (.jsr 0x8020) { boot [] with pc := 0x800E, sp := 0x01FF, e := false })
    (fun t => ram t 0x1FF == 0x80 && ram t 0x1FE == 0x0D && t.sp == 0x01FD && t.pc == 0x8020 && t.cycles == 6) = true := by
  decide

theorem test_jsl_page_one : nextIs (step { boot [0x22, 0x00, 0x80, 0x00] with sp := 0x0101 })
    (fun t => ram t 0x101 == 0x00 && ram t 0x100 == 0x80 && ram t 0x1FF == 0x03 && t.sp == 0x01FE && t.pc == 0x8000) =
      true := by
  decide

theorem test_rts : nextIs (exec .rts { boot [] with sp := 0x01FD, wram := [(0x1FE, 0x0D), (0x1FF, 0x80)] })
    (fun t => t.pc == 0x800E && t.sp == 0x01FF && t.cycles == 6) = true := by decide

theorem test_rtl : nextIs (exec .rtl
      { boot [] with sp := 0x01FC, pbr := 0x01, wram := [(0x1FD, 0x0B), (0x1FE, 0x80)] })
    (fun t => t.pc == 0x800C && t.pbr == 0x00 && t.sp == 0x01FF) = true := by decide

theorem test_jmp : nextIs (step (boot [0x4C, 0x00, 0x80])) (fun t => t.pc == 0x8000 && t.cycles == 3) = true := by decide

theorem test_bne_taken : nextIs (exec (.bne 0xFB) { boot [] with pc := 0x800E })
    (fun t => t.pc == 0x8009 && t.cycles == 4) = true := by decide

theorem test_bne_not_taken : nextIs (exec (.bne 0xFB) { boot [] with pc := 0x800E, p := 0x36, e := false })
    (fun t => t.pc == 0x800E && t.cycles == 2) = true := by decide

theorem test_stp : faultIs (step (boot [0xDB])) .halted = true := by decide

/-! ### Decoder errors and the bus (V-D…, V-L9 to V-L12, V-M…) -/

theorem test_unimplemented : faultIs (step
      { boot [0xEA] with config := { Config.default with recognisedUnimplemented := [(0xEA, "Implied")] } })
    (.unimplementedInstruction 0xEA "Implied") = true := by decide

theorem test_unknown : faultIs (step (boot [0xEA])) (.unknownOpcode 0xEA) = true := by decide

theorem test_fetch_unmapped : faultIs (step { boot [] with pc := 0x3000 }) (.unmappedAccess 0x003000) = true := by decide

theorem test_fetch_wraps : nextIs (step { boot [] with
      pc := 0xFFFF, rom := ⟨0x8000, [(0x1000, 0x10), (0x7FFF, 0xAD)]⟩, wram := [(1, 0x90)] })
    (fun t => t.a == 0x0010 && t.pc == 0x0002) = true := by decide

theorem test_remap_fault : faultIs (exec (.staAbs 0x2118) { boot [] with ppu := { Ppu.powerOn with vmain := 0x04 } })
    (.unsupportedRemap 0x04) = true := by decide

theorem test_vram_word_write : nextIs (exec (.staAbs 0x2118)
      { boot [] with p := 0x14, a := 0xBBAA, ppu := { Ppu.powerOn with vmain := 0x80, vaddr := 0x0005 } })
    (fun t => inspectVram t 0x0005 == 0xBBAA && t.ppu.vaddr == 0x0006) = true := by decide

theorem test_vram_half_writes : nextIs (exec (.staAbs 0x2118)
      { boot [] with p := 0x14, a := 0xBBAA, ppu := { Ppu.powerOn with vaddr := 0x1000 } })
    (fun t => inspectVram t 0x1000 == 0x00AA && inspectVram t 0x1001 == 0xBB00 && t.ppu.vaddr == 0x1001) = true := by decide

theorem test_cgram_wraps : nextIs (exec (.staAbs 0x2122) { boot [] with a := 0x0001, ppu := { Ppu.powerOn with cgidx := 1023 } })
    (fun t => inspectCgram t 1023 == 0x01 && t.ppu.cgidx == 0) = true := by decide

theorem test_dma_register_reads_back : nextIs (exec (.ldaAbs 0x4300)
      { boot [] with dma := (boot []).dma.set 0 { DmaChannel.zero with ctrl := 0x01 } })
    (fun t => t.a == 0x0001) = true := by decide

/-! ### DMA (V-DMA-1 to V-DMA-16) -/

/-- A state ready to write `enable` to 0x420B, with channel 0 as given and WRAM[0x0100..0x0102] = 01 02 03. -/
def dmaReady (enable : Byte) (ch0 : DmaChannel) : State :=
  { boot [] with a := zext16 enable, wram := [(0x100, 1), (0x101, 2), (0x102, 3)], dma := (boot []).dma.set 0 ch0 }

theorem test_dma_two_registers : nextIs (exec (.staAbs 0x420B)
      { dmaReady 0x01 ⟨0x41, 0x18, 0x9000, 0, 4⟩ with
        ppu := { Ppu.powerOn with vmain := 0x80 },
        rom := ⟨0x8000, [(0x1000, 0x11), (0x1001, 0x22), (0x1002, 0x33), (0x1003, 0x44)]⟩ })
    (fun t => inspectVram t 0 == 0x2211 && inspectVram t 1 == 0x4433 && t.ppu.vaddr == 2 && t.cycles == 4) = true := by decide

theorem test_dma_decrement : nextIs (exec (.staAbs 0x420B) (dmaReady 0x01 ⟨0x10, 0x22, 0x0102, 0, 3⟩))
    (fun t => t.ppu.cgram == [(0, 3), (1, 2), (2, 1)] && t.ppu.cgidx == 3) = true := by decide

theorem test_dma_source_wraps : nextIs (exec (.staAbs 0x420B)
      { dmaReady 0x01 ⟨0x00, 0x22, 0xFFFF, 0, 2⟩ with rom := ⟨0x8000, [(0x7FFF, 0xAA)]⟩, wram := [(0, 0xBB)] })
    (fun t => t.ppu.cgram == [(0, 0xAA), (1, 0xBB)]) = true := by decide

theorem test_dma_unsupported : faultIs (exec (.staAbs 0x420B) (dmaReady 0x01 ⟨0x02, 0x22, 0x0100, 0, 3⟩))
    (.unsupportedDmaMode 0) = true := by decide

theorem test_dma_no_channel_7 : faultIs (exec (.staAbs 0x420B) (dmaReady 0x80 DmaChannel.zero)) (.unsupportedDmaMode 7) = true := by
  decide

theorem test_dma_unmapped_destination : faultIs (exec (.staAbs 0x420B) (dmaReady 0x01 ⟨0x00, 0x80, 0x0100, 0, 1⟩))
    (.unmappedAccess 0x002180) = true := by decide

theorem test_dma_writeback : nextIs (exec (.staAbs 0x420B)
      { dmaReady 0x01 ⟨0x00, 0x18, 0x0100, 0, 2⟩ with config := { Config.default with dmaWriteback := true } })
    (fun t => t.dma[0].src == 0x0102 && t.dma[0].size == 0) = true := by decide

/-! ### A run ends at STP in the state before it (R310) -/

theorem test_run_ends_halted :
    (match Safety.run 3 (boot [0xA9, 0x42, 0xDB]) with
     | .halted s => decide (s.pc = 0x8002 ∧ s.a = 0x0042)
     | _ => false) = true := by
  decide

/-! ### Witnesses: for each statement with hypotheses, states and operands that meet them, at boundary values -/

theorem next_of {o : Host.Outcome State Fault Refusal} (h : nextIs o (fun _ => true) = true) : ∃ t, o = .next t := by
  cases o with
  | next t => exact ⟨t, rfl⟩
  | fault f => simp [nextIs] at h
  | refused r => simp [nextIs] at h

/-- The access answers a value. -/
def isOk {α : Type} (x : Except Fault α) : Bool :=
  match x with
  | .ok _ => true
  | .error _ => false

theorem ok_of {α : Type} {x : Except Fault α} (h : isOk x = true) : ∃ v, x = .ok v := by
  cases x with
  | ok v => exact ⟨v, rfl⟩
  | error f => simp [isOk] at h

/-- Native mode, 8-bit widths, two bytes at each end of work RAM, S at the top of work RAM. -/
def native8 : State :=
  { boot [] with e := false, sp := 0x1FFF, wram := [(0x0000, 0x11), (0x0001, 0x22), (0x1FFE, 0x33), (0x1FFF, 0x84)] }

/-- The same with 16-bit widths. -/
def native16 : State := { native8 with p := 0x04 }

theorem witness_DecodeOfEncodeIsTheInstruction :
    Instr.wellFormed narrow (.ldaImm 0x00FF) = true ∧ Instr.wellFormed wide (.ldaImm 0xFFFF) = true ∧
      Instr.wellFormed narrow (.jsl 0xFFFF 0xFF) = true := by
  decide

theorem witness_EncodeOfDecodeIsTheBytes :
    decode narrow [0xA9, 0xFF, 0x00] = .ok (.ldaImm 0x00FF, [0x00]) ∧ decode wide [0xA9, 0xFF, 0xFF] = .ok (.ldaImm 0xFFFF, []) := by
  decide

/-- The opcode at 0xFFFF in ROM and the operand at 0x0000 in work RAM. -/
def wrapped : State := { boot [] with pc := 0xFFFF, rom := ⟨0x8000, [(0x7FFF, 0xA9)]⟩, wram := [(0, 0x80)] }

theorem witness_StepRunsTheDecodedInstruction :
    (∀ (k : Nat) (h : k < [0xA9#8, 0x80#8].length),
      busRead wrapped wrapped.pbr (wrapped.pc + BitVec.ofNat 16 k) = .ok [0xA9#8, 0x80#8][k]) ∧
    decode wrapped.widths [0xA9, 0x80] = .ok (.ldaImm 0x0080, []) := by
  decide

theorem witness_UnlistedOpcodesFault :
    busRead (boot [0xFF]) 0 0x8000 = .ok 0xFF ∧ 0xFF#8 ∉ Spec.opcodeBytes ∧
    (boot [0xFF]).config.recognisedUnimplemented.lookup 0xFF = none ∧
    ([(0xFF, "Implied")] : List (Byte × String)).lookup 0xFF = some "Implied" := by
  decide

theorem witness_FetchFaultsAreReportedInByteOrder :
    busRead (boot []) 0 0x2000 = .error (.unmappedAccess 0x002000) ∧
    (busRead { boot [] with wram := [(0x1FFF, 0x20)] } 0 0x1FFF = .ok 0x20 ∧
      (opcodeRow? 0x20).map (fun row => row.format.operandBytes narrow) = some 2 ∧
      busRead { boot [] with wram := [(0x1FFF, 0x20)] } 0 0x2000 = .error (.unmappedAccess 0x002000)) ∧
    (busRead { boot [] with wram := [(0x1FFE, 0x20)] } 0 0x1FFE = .ok 0x20 ∧
      (∀ j < 1, busRead { boot [] with wram := [(0x1FFE, 0x20)] } 0 (0x1FFE + BitVec.ofNat 16 (j + 1)) = .ok 0x00)) := by
  decide

theorem witness_WidthsFollowPAndE : (boot []).config.emuForcesWidth = false := by decide

theorem witness_LoadAbsoluteReadsDataBank :
    Spec.wA native8 = .w8 ∧ Spec.wA native16 = .w16 ∧ Spec.wX native8 = .w8 ∧ Spec.wX native16 = .w16 ∧
    Spec.Reads native8 0x00 0x1FFF .w8 0x0084 ∧ Spec.Reads native16 0x00 0x1FFE .w16 0x8433 ∧
    Spec.ReadFails native8 0x00 0x2000 .w8 (.unmappedAccess 0x002000) ∧
    Spec.ReadFails native16 0x00 0x1FFF .w16 (.unmappedAccess 0x002000) :=
  ⟨by decide, by decide, by decide, by decide, ⟨0x84, by decide, by decide⟩, ⟨0x33, 0x84, by decide, by decide, by decide⟩,
    .inl (by decide), .inr ⟨rfl, ⟨0x84, by decide⟩, by decide⟩⟩

theorem writes_of {s : State} {a : Word} {w : Width} {v : Word} (h : isOk (memWrite s a w v) = true) :
    ∃ t, Spec.Writes s a w v t := by
  obtain ⟨t, ht⟩ := ok_of h
  refine ⟨t, ?_⟩
  cases w with
  | w8 => exact ht
  | w16 => exact Sys2Proof.Laws.bind_eq_ok.1 ht

theorem witness_StaAbsoluteStoresAccumulator :
    (∃ t, Spec.Writes native8 0x1FFF (Spec.wA native8) native8.a t) ∧
    (∃ t, Spec.Writes native16 0x1FFE (Spec.wA native16) native16.a t) ∧
    Spec.WriteFails native8 0x8000 (Spec.wA native8) native8.a (.unmappedAccess 0x008000) ∧
    Spec.WriteFails native16 0x1FFF (Spec.wA native16) native16.a (.unmappedAccess 0x002000) :=
  ⟨writes_of (by decide), writes_of (by decide), .inl (by decide), .inr ⟨by decide, _, rfl, rfl⟩⟩

/-- D at the top of the address space, so that a direct-page address wraps to the bottom of work RAM. -/
def highD : State := { native16 with d := 0xFFFF, x := 0x1FFE }

theorem witness_IndexAndDirectPageStores :
    (∃ t, Spec.Writes native16 0x1FFE (Spec.wX native16) native16.x t) ∧
    (∃ t, Spec.Writes native8 0x1FFF (Spec.wX native8) native8.y t) ∧
    (∃ t, Spec.Writes highD (BitVec.ofNat 16 (highD.d.toNat + 0x01)) (Spec.wA highD) highD.a t) ∧
    (∃ t, Spec.Writes highD (BitVec.ofNat 16 (highD.d.toNat + 0xFF)) (Spec.wX highD) highD.x t) ∧
    Spec.WriteFails highD 0x1FFF (Spec.wX highD) highD.x (.unmappedAccess 0x002000) ∧
    Spec.WriteFails highD 0x1FFF (Spec.wX highD) highD.y (.unmappedAccess 0x002000) ∧
    Spec.WriteFails highD (BitVec.ofNat 16 (highD.d.toNat + 0x00)) (Spec.wA highD) highD.a (.unmappedAccess 0x00FFFF) ∧
    Spec.WriteFails highD (BitVec.ofNat 16 (highD.d.toNat + 0x00)) (Spec.wX highD) highD.x (.unmappedAccess 0x00FFFF) :=
  ⟨writes_of (by decide), writes_of (by decide), writes_of (by decide), writes_of (by decide), .inr ⟨by decide, _, rfl, rfl⟩,
    .inr ⟨by decide, _, rfl, rfl⟩, .inl (by decide), .inl (by decide)⟩

theorem witness_StzStoresZeroByAccumulatorWidth :
    (∃ t, Spec.Writes native16 0x1FFE (Spec.wA native16) 0 t) ∧
    (∃ t, Spec.Writes highD (BitVec.ofNat 16 (highD.d.toNat + 0x01 + (Spec.lowBits highD.x (Spec.wX highD)).toNat))
      (Spec.wA highD) 0 t) ∧
    Spec.WriteFails native16 0x1FFF (Spec.wA native16) 0 (.unmappedAccess 0x002000) ∧
    Spec.WriteFails highD (BitVec.ofNat 16 (highD.d.toNat + 0x02 + (Spec.lowBits highD.x (Spec.wX highD)).toNat))
      (Spec.wA highD) 0 (.unmappedAccess 0x002000) :=
  ⟨writes_of (by decide), writes_of (by decide), .inr ⟨by decide, _, rfl, rfl⟩, .inr ⟨by decide, _, rfl, rfl⟩⟩

theorem witness_StoresToWorkRamComplete :
    Spec.storeTarget (.staAbs 0x1FFF) native8 = some (.w8, 0x1FFF) ∧
    Spec.storeTarget (.stxAbs 0x1FFE) native16 = some (.w16, 0x1FFE) ∧
    Spec.storeTarget (.styAbs 0x0000) native16 = some (.w16, 0x0000) ∧
    Spec.storeTarget (.staDp 0x01) highD = some (.w16, 0x0000) ∧
    Spec.storeTarget (.stxDp 0xFF) highD = some (.w16, 0x00FE) ∧
    Spec.storeTarget (.stzAbs 0x1FFF) native8 = some (.w8, 0x1FFF) ∧
    Spec.storeTarget (.stzDpX 0x01) highD = some (.w16, 0x1FFE) := by
  decide

theorem witness_StoresLeaveEverythingElse :
    (∃ t, exec (.staAbs 0x2118) native16 = .next t) ∧ (∃ t, exec (.stxAbs 0x420B) native8 = .next t) ∧
    (∃ t, exec (.styAbs 0x1FFF) native8 = .next t) ∧ (∃ t, exec (.staDp 0x01) highD = .next t) ∧
    (∃ t, exec (.stxDp 0xFF) highD = .next t) ∧ (∃ t, exec (.stzAbs 0x4366) native8 = .next t) ∧
    (∃ t, exec (.stzDpX 0x01) highD = .next t) ∧ native8.config.dmaWriteback = false ∧
    (0x420A#16 ≠ 0x420B ∧ 0x2118#16 + 1 ≠ 0x420B) :=
  ⟨next_of (by decide), next_of (by decide), next_of (by decide), next_of (by decide), next_of (by decide), next_of (by decide),
    next_of (by decide), by decide, by decide⟩

theorem witness_XbaSwapsTheBytes :
    ∃ t u, exec .xba { native8 with a := 0x1234 } = .next t ∧ exec .xba t = .next u := ⟨_, _, rfl, rfl⟩

theorem witness_ComparesSetCarryZeroNegative :
    Spec.Reads native8 native8.dbr 0x1FFF (Spec.wA native8) 0x0084 ∧ Spec.Reads native16 native16.dbr 0x1FFE (Spec.wX native16) 0x8433 ∧
    Spec.ReadFails native8 native8.dbr 0x2000 (Spec.wA native8) (.unmappedAccess 0x002000) ∧
    Spec.ReadFails native16 native16.dbr 0x1FFF (Spec.wX native16) (.unmappedAccess 0x002000) :=
  ⟨⟨0x84, by decide, by decide⟩, ⟨0x33, 0x84, by decide, by decide, by decide⟩, .inl (by decide),
    .inr ⟨by decide, ⟨0x84, by decide⟩, by decide⟩⟩

/-- The state with S elsewhere. -/
def withSp (sp : Word) (s : State) : State := { s with sp := sp }

theorem push8_ram {s : State} (v : Byte) (h : s.sp.toNat < 0x2000) :
    Spec.Push8 s v { s with wram := Cells.write s.wram s.sp.toNat v, sp := Spec.down s.e s.sp } :=
  ⟨_, Sys2Proof.Laws.busWrite_wram v h, rfl⟩

theorem push16_ram {s : State} (v : Word) (h : s.sp.toNat < 0x2000) (h' : (Spec.down s.e s.sp).toNat < 0x2000) :
    ∃ t, Spec.Push16 s v t := ⟨_, _, push8_ram _ h, push8_ram _ h'⟩

/-- A 16-bit push from the bottom of work RAM in native mode: the second byte goes to 0xFFFF. -/
theorem push16_below : Spec.Push16Fails (withSp 0x0000 native8) 0x7FFF (.unmappedAccess 0x00FFFF) :=
  .inr ⟨_, push8_ram _ (by decide), by unfold Spec.Push8Fails; decide⟩

theorem witness_PushInstructionsPushTheirRegister :
    (∃ t, Spec.PushAt .w8 native8 native8.a t) ∧ (∃ t, Spec.PushAt .w16 native16 native16.x t) ∧
    (∃ t, Spec.Push8 native8 native8.p t) ∧ (∃ t, Spec.Push8 native8 native8.pbr t) ∧
    Spec.PushAtFails .w16 (withSp 0x0000 native8) 0x7FFF (.unmappedAccess 0x00FFFF) ∧
    Spec.PushAtFails .w8 (withSp 0x2000 native8) 0x0012 (.unmappedAccess 0x002000) ∧
    Spec.Push8Fails (withSp 0x8000 native8) 0x12 (.unmappedAccess 0x008000) :=
  ⟨⟨_, push8_ram _ (by decide)⟩, push16_ram _ (by decide) (by decide), ⟨_, push8_ram _ (by decide)⟩, ⟨_, push8_ram _ (by decide)⟩,
    push16_below, by unfold Spec.PushAtFails Spec.Push8Fails; decide, by unfold Spec.Push8Fails; decide⟩

theorem stackInWorkRam :
    (∀ a ∈ Spec.pushAddresses native16.e 2 native16.sp, a.toNat < 0x2000) ∧
    (∀ a ∈ Spec.pushAddresses native8.e 3 native8.sp, a.toNat < 0x2000) ∧
    (∀ a ∈ Spec.pushAddresses (boot []).e 2 (boot []).sp, a.toNat < 0x2000) ∧
    (∀ a ∈ Spec.pushAddresses (boot []).e 3 (boot []).sp, a.toNat < 0x2000) ∧
    (∀ a ∈ Spec.pushAddresses false 3 0x0002, a.toNat < 0x2000) := by
  simp [Spec.pushAddresses, Spec.down, boot, native16, native8, State.applyReset, State.reset, Config.default]

theorem witness_PushesToWorkRamComplete :
    Spec.pushedBytes .pha native16 = some [0x00, 0x00] ∧
    (∀ a ∈ Spec.pushAddresses native16.e 2 native16.sp, a.toNat < 0x2000) ∧
    Spec.pushedBytes (.jsl 0x8000 0x01) (boot []) = some [0x00, 0x7F, 0xFF] ∧
    (∀ a ∈ Spec.pushAddresses (boot []).e 3 (boot []).sp, a.toNat < 0x2000) :=
  ⟨by decide, stackInWorkRam.1, by decide, stackInWorkRam.2.2.2.1⟩

/-- The bus-read clause: a 16-bit push onto the VRAM address registers, and one onto the addresses beside 0x420B with
`DMA_WRITEBACK` set. -/
theorem pushedRegisters :
    (0x2117#16 ∈ Spec.pushAddresses native16.e 2 (withSp 0x2117 native16).sp ∧
      0x2118#16 ∉ Spec.pushAddresses native16.e 2 (withSp 0x2117 native16).sp ∧
      0x2115#16 ∉ Spec.pushAddresses native16.e 2 (withSp 0x2117 native16).sp) ∧
    (0x420B#16 ∈ Spec.pushAddresses native16.e 2 0x420C ∧ 0x420B#16 ∉ Spec.pushAddresses native16.e 2 0x420D) := by
  simp [Spec.pushAddresses, Spec.down, native16, native8, withSp, boot]

theorem witness_PushesLeaveEverythingElse :
    ((withSp 0x2117 native16).config.dmaWriteback = false ∧
      0x2118#16 ∉ Spec.pushAddresses native16.e 2 (withSp 0x2117 native16).sp ∧
      0x420B#16 ∉ Spec.pushAddresses native16.e 2 0x420D) ∧
    (∃ t, exec .pha (withSp 0x420D { native16 with config := { Config.default with dmaWriteback := true } }) = .next t) ∧
    (∃ t, exec .pha (withSp 0x2117 native16) = .next t) ∧ (∃ t, exec .phx native8 = .next t) ∧ (∃ t, exec .php native8 = .next t) ∧
    (∃ t, exec .phk native8 = .next t) ∧ (∃ t, exec (.jsr 0x8000) native8 = .next t) ∧ (∃ t, exec (.jsl 0x8000 0x01) (boot []) = .next t) :=
  ⟨⟨by decide, pushedRegisters.1.2.1, pushedRegisters.2.2⟩, next_of (by decide), next_of (by decide), next_of (by decide), next_of (by decide), next_of (by decide), next_of (by decide), next_of (by decide)⟩

theorem witness_PullInstructionsLoadTheirRegister :
    Spec.PullsAt (Spec.wA (withSp 0x1FFE native8)) (withSp 0x1FFE native8) 0x0084 ∧
    Spec.PullsAt (Spec.wX (withSp 0x1FFD native16)) (withSp 0x1FFD native16) 0x8433 ∧
    Spec.PullsByte (withSp 0xFFFF native8) 0xFFFF 0x11 ∧
    Spec.PullAtFails .w8 native8 (.unmappedAccess 0x002000) ∧
    Spec.PullAtFails .w16 (withSp 0x1FFE native16) (.unmappedAccess 0x002000) :=
  ⟨⟨0x84, by unfold Spec.PullsByte; decide, by decide⟩,
    ⟨0x33, 0x84, by unfold Spec.PullsByte; decide, by unfold Spec.PullsByte; decide, by decide⟩, by unfold Spec.PullsByte; decide,
    .inl (by decide), .inr ⟨rfl, ⟨0x84, by unfold Spec.PullsByte; decide⟩, by decide⟩⟩

theorem witness_PldAndPlpPull :
    Spec.PullsAt .w16 (withSp 0x1FFD native8) 0x8433 ∧ Spec.PullsByte (withSp 0x1FFE native8) 0x1FFE 0x84 ∧
    Spec.PullAtFails .w16 native8 (.unmappedAccess 0x002000) ∧ Spec.PullAtFails .w8 native8 (.unmappedAccess 0x002000) :=
  ⟨⟨0x33, 0x84, by unfold Spec.PullsByte; decide, by unfold Spec.PullsByte; decide, by decide⟩,
    by unfold Spec.PullsByte; decide, .inl (by decide), .inl (by decide)⟩

theorem witness_PushThenPullRestoresValueAndStackPointer :
    ((boot []).e = true ∧ (boot []).sp &&& 0xFF00 = 0x0100 ∧ (boot []).sp.toNat < 0x2000 ∧
      (Spec.down (boot []).e (boot []).sp).toNat < 0x2000) ∧
    (native8.e = false ∧ native8.sp = 0x1FFF ∧ (Spec.down native8.e native8.sp).toNat < 0x2000) := by
  decide

theorem witness_CallsPushReturnAddress :
    (∃ t, Spec.Push16 native8 (native8.pc - 1) t) ∧
    Spec.Push16Fails (withSp 0x0000 native8) 0x7FFF (.unmappedAccess 0x00FFFF) ∧
    (∃ u, Spec.Push8 native8 native8.pbr u ∧ ∃ t, Spec.Push16 u (native8.pc - 1) t) ∧
    Spec.Push8Fails (withSp 0x2000 native8) 0x00 (.unmappedAccess 0x002000) ∧
    (∃ u, Spec.Push8 (withSp 0x0000 native8) 0x00 u ∧ Spec.Push16Fails u 0x7FFF (.unmappedAccess 0x00FFFF)) :=
  ⟨push16_ram _ (by decide) (by decide), push16_below, ⟨_, push8_ram _ (by decide), push16_ram _ (by decide) (by decide)⟩,
    by unfold Spec.Push8Fails; decide, ⟨_, push8_ram _ (by decide), .inl (by unfold Spec.Push8Fails; decide)⟩⟩

theorem witness_ReturnsResumeAfterTheCall :
    Spec.PullsAt .w16 (withSp 0x1FFD native8) 0x8433 ∧ Spec.PullAtFails .w16 native8 (.unmappedAccess 0x002000) ∧
    (Spec.PullsAt .w16 (withSp 0x01FD (boot [])) 0x0000 ∧
      Spec.PullsByte (withSp 0x01FD (boot [])) (Spec.pulledSp .w16 (withSp 0x01FD (boot []))) 0x00) ∧
    busRead (withSp 0x1FFD native8) 0x00 (Spec.up false (Spec.pulledSp .w16 (withSp 0x1FFD native8))) =
      .error (.unmappedAccess 0x002000) :=
  ⟨⟨0x33, 0x84, by unfold Spec.PullsByte; decide, by unfold Spec.PullsByte; decide, by decide⟩, .inl (by decide),
    ⟨⟨0x00, 0x00, by unfold Spec.PullsByte; decide, by unfold Spec.PullsByte; decide, by decide⟩, by unfold Spec.PullsByte; decide⟩,
    by decide⟩

theorem witness_BneBranchesWhenZeroClear : (boot []).p &&& 0x02 = 0 ∧ (0x36#8) &&& 0x02 ≠ 0 := by decide

theorem witness_StpHaltsUntilReset : busRead (boot [0xDB]) (boot [0xDB]).pbr (boot [0xDB]).pc = .ok 0xDB := by decide

theorem witness_ReturnUndoesCall :
    ((boot []).e = true → (boot []).sp &&& 0xFF00 = 0x0100) ∧
    (∀ b ∈ Spec.pushAddresses (boot []).e 2 (boot []).sp, b.toNat < 0x2000) ∧
    (∀ b ∈ Spec.pushAddresses (boot []).e 3 (boot []).sp, b.toNat < 0x2000) ∧
    (native8.e = true → native8.sp &&& 0xFF00 = 0x0100) ∧
    (∀ b ∈ Spec.pushAddresses native8.e 3 native8.sp, b.toNat < 0x2000) :=
  ⟨by decide, stackInWorkRam.2.2.1, stackInWorkRam.2.2.2.1, by decide, stackInWorkRam.2.1⟩

theorem witness_BusReadFollowsTheAddressMap :
    (0x0000#16).toNat < 0x2000 ∧ (0x1FFF#16).toNat < 0x2000 ∧ 0x8000 ≤ (0x8000#16).toNat ∧
    (0x00#8 &&& (boot []).config.romBankMask).toNat * 0x8000 + (0xFFFF - 0x8000) < (boot []).rom.length ∧
    (boot []).rom.length ≤ (0x01#8 &&& (boot []).config.romBankMask).toNat * 0x8000 + (0x8000 - 0x8000) ∧
    Spec.unmappedAddress 0x2000 ∧ Spec.unmappedAddress 0x210D ∧ Spec.unmappedAddress 0x4307 ∧ Spec.unmappedAddress 0x4370 ∧
    Spec.unmappedAddress 0x7FFF := by
  unfold Spec.unmappedAddress
  decide

theorem witness_BusWriteFollowsTheAddressMap :
    (0x1FFF#16).toNat < 0x2000 ∧ 0x8000 ≤ (0x8000#16).toNat ∧ Spec.unmappedAddress 0x2000 ∧ Spec.unmappedAddress 0x420A := by
  unfold Spec.unmappedAddress
  decide

theorem witness_BusWriteLeavesOtherAddresses :
    (∃ t, busWrite native8 0x420B 0x01 = .ok t) ∧ native8.config.dmaWriteback = false ∧
    (∃ t, busWrite { native8 with config := { Config.default with dmaWriteback := true } } 0x1FFF 0x01 = .ok t) :=
  ⟨ok_of (by decide), by decide, ok_of (by decide)⟩

theorem witness_VramDataPortsWriteHalfAndAdvance :
    (0x04#8) &&& 0x0C ≠ 0 ∧ (0x08#8) &&& 0x0C ≠ 0 ∧ (0x80#8) &&& 0x0C = 0 ∧ (boot []).ppu.vmain &&& 0x0C = 0 := by decide

theorem witness_DmaTriggerValidatesThenRunsInOrder :
    (0x80#8).getLsbD 7 = true ∧
    ((0x41#8).getLsbD 7 = false ∧ (0x41#8).getLsbD 6 = true ∧
      ¬ Spec.runs ((boot []).dma.set 6 { DmaChannel.zero with ctrl := 0x80 })[6].ctrl ∧
      ∀ m : Fin 7, m < 6 → (0x41#8).getLsbD m.val = true → Spec.runs (boot []).dma[m].ctrl) ∧
    ((0x7F#8).getLsbD 7 = false ∧ ∀ n : Fin 7, (0x7F#8).getLsbD n.val = true → Spec.runs (boot []).dma[n].ctrl) := by
  unfold Spec.runs
  decide

theorem witness_DmaTransferIsOrdinaryBusAccesses :
    (Spec.runs (dmaReady 0x01 ⟨0x01, 0x21, 0x0100, 0, 2⟩).dma[0].ctrl ∧
      ∃ t b, Spec.Transfers (dmaReady 0x01 ⟨0x01, 0x21, 0x0100, 0, 2⟩).dma[0] 2 0 0x0100
        (dmaReady 0x01 ⟨0x01, 0x21, 0x0100, 0, 2⟩) t b) ∧
    (∃ u, Spec.Transfers (dmaReady 0x01 ⟨0x00, 0x22, 0x1FFF, 0, 2⟩).dma[0] 1 0 0x1FFF
        (dmaReady 0x01 ⟨0x00, 0x22, 0x1FFF, 0, 2⟩) u 0x2000 ∧ busRead u 0x00 0x2000 = .error (.unmappedAccess 0x002000)) ∧
    (let s := dmaReady 0x01 ⟨0x00, 0x80, 0x0100, 0, 2⟩
     0 < Spec.byteCount s.config s.dma[0] ∧ Spec.Transfers s.dma[0] 0 0 0x0100 s s 0x0100 ∧ ∃ v, busRead s 0x00 0x0100 = .ok v ∧
       busWrite s (0x2100 ||| (Spec.destination s.dma[0] 0).setWidth 16) v = .error (.unmappedAccess 0x002180)) :=
  ⟨⟨by unfold Spec.runs; decide, _, _, _, _, rfl, rfl, _, _, rfl, rfl, rfl, rfl⟩,
    ⟨_, ⟨_, _, rfl, rfl, rfl, rfl⟩, by decide⟩, by decide, ⟨rfl, rfl⟩, 0x01, by decide, by decide⟩

theorem witness_DmaCopiesWorkRamToPalette :
    let s := { dmaReady 0x01 ⟨0x00, 0x22, 0x1C00, 0, 0x0400⟩ with ppu := { Ppu.powerOn with cgidx := 1023 } }
    s.config.dmaWriteback = false ∧ s.dma[0].ctrl &&& 0x9F = 0 ∧ s.dma[0].dest = 0x22 ∧ s.dma[0].size ≠ 0 ∧
      s.dma[0].size.toNat ≤ 1024 ∧ s.dma[0].src.toNat + s.dma[0].size.toNat ≤ 0x2000 := by
  decide

theorem witness_DmaCopiesWorkRamToVramWords :
    let s := { dmaReady 0x01 ⟨0x41, 0x18, 0x0000, 0, 0x2000⟩ with ppu := { Ppu.powerOn with vmain := 0x80, vaddr := 0xFFFF } }
    s.config.dmaWriteback = false ∧ s.dma[0].ctrl &&& 0x9F = 0x01 ∧ s.dma[0].dest = 0x18 ∧ s.ppu.vmain = 0x80 ∧
      s.dma[0].size.toNat = 2 * 0x1000 ∧ s.dma[0].src.toNat + 2 * 0x1000 ≤ 0x2000 := by
  decide

theorem witness_ResetVectorExample : (boot []).rom.byte 0x7FFC = 0x00 ∧ (boot []).rom.byte 0x7FFD = 0x80 := by decide

theorem witness_PowerOnZeroesThenResets :
    (⟨0x7FFF, []⟩ : Rom).length < 0x8000 ∧ 0x8000 ≤ Rom.blank.length ∧ Spec.parametersInBounds Config.default ∧
      Spec.parametersInBounds
        { Config.default with resetSp := 0x01FF, recognisedUnimplemented := [(0xEA, "Implied"), (0x00, "Immediate")] } ∧
      ¬ Spec.parametersInBounds { Config.default with resetSp := 0x0200 } ∧
      ¬ Spec.parametersInBounds { Config.default with recognisedUnimplemented := [(0xDB, "Implied")] } ∧
      ¬ Spec.parametersInBounds { Config.default with recognisedUnimplemented := [(0xEA, "Implied"), (0xEA, "Accumulator")] } := by
  unfold Spec.parametersInBounds
  decide

theorem witness_HeaderSizesAreShifted : Rom.byte ⟨0x8000, [(0x7FD7, 0x05)]⟩ 0x7FD7 = 0x05 := by decide

theorem witness_EveryStepKeepsTheInvariant :
    Safety.Inv (boot [0x8D, 0x18, 0x21]) ∧ ∃ t, step (boot [0x8D, 0x18, 0x21]) = .next t :=
  ⟨⟨by decide, by decide, by decide, by decide⟩, next_of (by decide)⟩

theorem witness_ResetMeetsTheInvariant :
    Cells.wf (boot []).rom.length (boot []).rom.bytes = true ∧ Memory.wf [(0x1FFF, 0x01)] = true ∧
      ∃ t, powerOn Config.default (boot []).rom [(0x1FFF, 0x01)] = .next t :=
  ⟨by decide, by decide, next_of (by decide)⟩

theorem witness_StepNeverChangesCartridgeOrParameters : ∃ t, step (boot [0x48]) = .next t := next_of (by decide)

theorem witness_OnlyListedInstructionsWriteARegister :
    (∃ t, exec .plb (withSp 0x1FFE native8) = .next t ∧ t.dbr ≠ native8.dbr) ∧
    (∃ t, exec (.sep 0x10) { native16 with x := 0x1234, config := { Config.default with xFlagClearsIndexHigh := true } } = .next t ∧
      t.x ≠ 0x1234) ∧
    (∃ t, exec .xce { native8 with p := 0x31, sp := 0x1FFF } = .next t ∧ t.sp ≠ 0x1FFF ∧ t.e = true) ∧
    (∃ t, exec .phk native8 = .next t ∧ t.sp ≠ native8.sp) ∧
    (∃ t, exec (.jmp 0x8123) native8 = .next t ∧ t.pc ≠ native8.pc) :=
  ⟨⟨_, rfl, by decide⟩, ⟨_, rfl, by decide⟩, ⟨_, rfl, by decide, rfl⟩, ⟨_, rfl, by decide⟩, ⟨_, rfl, by decide⟩⟩

theorem witness_OnlyListedInstructionsWriteAFlag :
    (∃ t, exec .sei { native8 with p := 0x30 } = .next t ∧ getFlag t.p .i ≠ getFlag 0x30 .i) ∧
    (∃ t, exec .inx { native8 with p := 0x30, x := 0x00FF } = .next t ∧ getFlag t.p .z ≠ getFlag 0x30 .z) ∧
    (∃ t, exec .dex { native8 with p := 0x30, x := 0x0000 } = .next t ∧ getFlag t.p .n ≠ getFlag 0x30 .n) ∧
    (∃ t, exec (.staAbs 0x1FFF) { native8 with config := { Config.default with storeSetsZn := false } } = .next t) ∧
    (∃ t, exec .phk native8 = .next t) :=
  ⟨⟨_, rfl, by decide⟩, ⟨_, rfl, by decide⟩, ⟨_, rfl, by decide⟩, next_of (by decide), next_of (by decide)⟩

theorem witness_OtherInstructionsLeaveMemory :
    Spec.writesMemory (.ldaAbs 0x1FFF) = false ∧ ∃ t, exec (.ldaAbs 0x1FFF) native8 = .next t :=
  ⟨by decide, next_of (by decide)⟩

theorem witness_CycleCountsDependOnWidthsDZeroAndEmulationOnly :
    (∃ t, step (boot [0x22, 0x00, 0x80, 0x01]) = .next t) ∧
    (∃ t t', exec (.staDp 0x01) { native8 with d := 0x0001 } = .next t ∧
      exec (.staDp 0x01) { native8 with d := 0x01FF, a := 0x0080 } = .next t') ∧
    ((0x0001#16 &&& 0x00FF = 0) ↔ (0x01FF#16 &&& 0x00FF = 0)) :=
  ⟨next_of (by decide), ⟨_, _, rfl, rfl⟩, by decide⟩

theorem witness_SetZNFollowsTheActiveWidth : Flag.c ≠ .z ∧ Flag.c ≠ .n := by decide

theorem witness_LoadImmediateWritesRegisterAtWidth : narrow.a = .w8 ∧ narrow.x = .w8 ∧ wide.a = .w16 ∧ wide.x = .w16 := by decide

theorem witness_RegisterReadsGivePlaceholderOrStoredByte :
    0x2100 ∈ Spec.placeholderAddresses ∧ 0x420D ∈ Spec.placeholderAddresses := by decide

theorem witness_PlainRegistersStoreTheByte : ((6, 6) : Fin 7 × Fin 7) ≠ (6, 5) ∧ ((0, 6) : Fin 7 × Fin 7) ≠ (1, 6) := by decide

theorem witness_HdmaEnableAcceptsZeroOnly : (0x00#8 = 0) ∧ (0x80#8 ≠ 0) := by decide

end Sys2Proof.Tests
end

section
/-! PROOFS. setZN at the active width (00_scope.md R13), for the model's flag computation and for the spec's mask on P. -/

namespace Sys2Proof.Proofs.SetZN

open Sys2Proof.Machine Sys2Proof.Laws

/-! ### A word at a width -/

/-- `low` is the mask of R12. -/
theorem low_eq_and_mask (v : Word) (w : Width) : low v w = v &&& Spec.mask w := by
  apply BitVec.eq_of_toNat_eq
  cases w with
  | w8 =>
    rw [low_w8, toNat_zext16, toNat_loByte, BitVec.toNat_and]
    exact (Nat.and_two_pow_sub_one_eq_mod v.toNat 8).symm
  | w16 =>
    rw [low_w16, BitVec.toNat_and]
    exact (Nat.and_two_pow_sub_one_of_lt_two_pow v.isLt).symm

theorem toNat_low (v : Word) (w : Width) : (low v w).toNat = v.toNat % 2 ^ Spec.bits w := by
  cases w with
  | w8 => rw [low_w8, toNat_zext16, toNat_loByte]; rfl
  | w16 => rw [low_w16]; exact (Nat.mod_eq_of_lt v.isLt).symm

theorem low_beq_zero (v : Word) (w : Width) : (low v w == 0) = decide (v.toNat % 2 ^ Spec.bits w = 0) := by
  rw [← toNat_low, beq_eq_decide]
  exact decide_eq_decide.mpr BitVec.toNat_inj.symm

theorem topBit_eq_getLsbD (v : Word) (w : Width) : topBit v w = v.getLsbD (Spec.bits w - 1) := by
  cases w <;> rfl

/-- The top bit at a width is the sign bit of the word truncated to it. -/
theorem topBit_eq_msb (v : Word) (w : Width) : topBit v w = (v.setWidth (Spec.bits w)).msb := by
  cases w <;> simp [topBit, Spec.bits, BitVec.msb_eq_getLsbD_last]

theorem topBit_eq_decide (v : Word) (w : Width) :
    topBit v w = decide (2 ^ (Spec.bits w - 1) ≤ v.toNat % 2 ^ Spec.bits w) := by
  rw [topBit_eq_msb, BitVec.msb_eq_decide, BitVec.toNat_setWidth]

/-! ### The spec's P -/

/-- The spec's masks write Z and N and keep the six other flags. -/
theorem getFlag_specWithZN (p : Byte) (v : Word) (w : Width) (f : Flag) :
    getFlag (Spec.withZN p v w) f =
      match f with
      | .z => decide (v &&& Spec.mask w = 0)
      | .n => v.getLsbD (Spec.bits w - 1)
      | f => getFlag p f := by
  unfold Spec.withZN
  cases f <;> split <;> split <;> simp_all [getFlag, Flag.bit]

/-- The model's setZN and the spec's masks give the same P. -/
theorem setZN_eq_specWithZN (p : Byte) (v : Word) (w : Width) : setZN p v w = Spec.withZN p v w := by
  apply byte_ext_flags
  intro f
  cases f with
  | z => simp only [getFlag_setZN, getFlag_specWithZN, low_eq_and_mask, beq_eq_decide]
  | n => simp only [getFlag_setZN, getFlag_specWithZN, topBit_eq_getLsbD]
  | _ => simp only [getFlag_setZN, getFlag_specWithZN]

/-- Settles O8: Z by the value of the width-masked word, N by the sign bit at the width, the rest by the flag laws of setZN. -/
theorem setZNFollowsTheActiveWidth : Obligations.SetZNFollowsTheActiveWidth := by
  intro s v w
  refine ⟨?_, ?_, ?_, ?_⟩
  · rw [State.withZN, setZN_eq_specWithZN]
  · rw [withZN_p, getFlag_setZN]
    exact low_beq_zero v w
  · rw [withZN_p, getFlag_setZN]
    exact topBit_eq_decide v w
  · intro f hz hn
    rw [withZN_p, getFlag_setZN]
    cases f with
    | z => exact absurd rfl hz
    | n => exact absurd rfl hn
    | _ => rfl

end Sys2Proof.Proofs.SetZN
end

section
/-! PROOFS. The register writes of 20_memory.md that only store a byte (R91) and those that set a pointer (R93, R95), and the
read-back of a DMA channel byte (R90). -/

namespace Sys2Proof.Proofs.RegisterStores

open Sys2Proof.Machine Sys2Proof.Laws

/-! ### Bus accesses that reach a register -/

section
variable {s : State} {addr : Word} {v : Byte}

/-- A bus write to a PPU register is the register's own write. -/
theorem busWrite_ppu {r : PpuReg} {ppu : Ppu} (ha : decodeAddr addr = .ppu r) (hw : ppuWrite s.ppu r v = .ok ppu) :
    busWrite s addr v = .ok { s with ppu := ppu } := by
  simp only [busWrite, ha, hw, ok_bind, pure_eq_ok]

/-- A bus write to a system register is the register's own write. -/
theorem busWrite_sys {r : SysReg} (ha : decodeAddr addr = .sys r) : busWrite s addr v = sysWrite s r v := by
  simp only [busWrite, ha]

/-- A bus read of a system register is the register's own read, in every bank. -/
theorem busRead_sys {r : SysReg} (ha : decodeAddr addr = .sys r) (bank : Byte) :
    busRead s bank addr = .ok (sysRead s r) := by
  simp only [busRead, ha]

end

/-! ### The addresses of the indexed registers (R46) -/

theorem decodeAddr_bgsc : ∀ i : Fin 4, decodeAddr (BitVec.ofNat 16 (0x2107 + i.val)) = .ppu (.bgsc i) := by decide

theorem decodeAddr_bgnba : ∀ i : Fin 2, decodeAddr (BitVec.ofNat 16 (0x210B + i.val)) = .ppu (.bgnba i) := by decide

theorem toNat_channelAddress (n k : Fin 7) : (Spec.channelAddress n.val k.val).toNat = 0x4300 + 16 * n.val + k.val := by
  simp only [Spec.channelAddress, BitVec.toNat_ofNat]
  omega

theorem sysRegAt_dma (n k : Fin 7) : sysRegAt (0x4300 + 16 * n.val + k.val) = some (.dma n k) := by
  unfold sysRegAt
  rw [if_neg (by omega), if_neg (by omega), if_neg (by omega), if_neg (by omega), dif_pos (by omega)]
  congr 2 <;> apply Fin.ext <;> dsimp only <;> omega

/-- Byte k of channel n is the register at 0x43nk. -/
theorem decodeAddr_channelAddress (n k : Fin 7) : decodeAddr (Spec.channelAddress n.val k.val) = .sys (.dma n k) := by
  have hp : ppuRegAt (0x4300 + 16 * n.val + k.val) = none :=
    ppuRegAt_eq_none (by simp only [List.mem_cons, List.not_mem_nil, or_false, not_or]; omega)
  unfold decodeAddr
  rw [toNat_channelAddress, if_neg (by omega), if_neg (by omega), hp, sysRegAt_dma]

/-! ### The bytes of a DMA channel (R47) -/

/-- Byte j of a channel after byte k is stored; the two bytes of a word are stored apart (R90). -/
theorem getByte_setByte (ch : DmaChannel) (j k : Fin 7) (v : Byte) :
    (ch.setByte k v).getByte j = if j = k then v else ch.getByte j := by
  fin_cases k <;> fin_cases j <;> simp [DmaChannel.setByte, DmaChannel.getByte]

/-- Storing byte k of channel n keeps every other byte of every channel. -/
theorem getByte_set_of_ne (dma : Vector DmaChannel 7) {m j n k : Fin 7} (h : (m, j) ≠ (n, k)) (v : Byte) :
    ((dma.set n (dma[n].setByte k v))[m]).getByte j = (dma[m]).getByte j := by
  by_cases hm : m = n
  · subst hm
    have hj : j ≠ k := fun hj => h (by rw [hj])
    simp only [Fin.getElem_fin, Vector.getElem_set_self, getByte_setByte, if_neg hj]
  · have hne : n.val ≠ m.val := fun he => hm (Fin.ext he.symm)
    simp only [Fin.getElem_fin, Vector.getElem_set_ne _ _ hne]

/-- A channel byte takes the byte written, reads back in every bank and leaves every other channel byte (R90, R91, D23). -/
theorem busWrite_channel (s : State) (v : Byte) (n k : Fin 7) :
    ∃ t, busWrite s (Spec.channelAddress n.val k.val) v = .ok t ∧ t = { s with dma := t.dma } ∧
      (∀ bank, busRead t bank (Spec.channelAddress n.val k.val) = .ok v) ∧
      ∀ m j : Fin 7, (m, j) ≠ (n, k) → (t.dma[m]).getByte j = (s.dma[m]).getByte j := by
  have ha := decodeAddr_channelAddress n k
  refine ⟨_, busWrite_sys ha, rfl, fun bank => ?_, fun m j h => getByte_set_of_ne s.dma h v⟩
  rw [busRead_sys ha]
  simp only [sysRead, Fin.getElem_fin, Vector.getElem_set_self, getByte_setByte, if_true]

/-! ### The two obligations -/

/-- Settles O41: each address decodes to its register, whose write stores the byte; the channel bytes by `busWrite_channel`. -/
theorem plainRegistersStoreTheByte : Obligations.PlainRegistersStoreTheByte := by
  intro s v
  refine ⟨?disp, ?bgmode, fun i => ?bgsc, fun i => ?bgnba, ?vmain, ?tm, ?ts, ?nmitimen, ?memsel, busWrite_channel s v⟩
  case disp => exact busWrite_ppu (r := .disp) (by decide) rfl
  case bgmode => exact busWrite_ppu (r := .bgmode) (by decide) rfl
  case bgsc => exact busWrite_ppu (decodeAddr_bgsc i) rfl
  case bgnba => exact busWrite_ppu (decodeAddr_bgnba i) rfl
  case vmain => exact busWrite_ppu (r := .vmain) (by decide) rfl
  case tm => exact busWrite_ppu (r := .tm) (by decide) rfl
  case ts => exact busWrite_ppu (r := .ts) (by decide) rfl
  case nmitimen => exact busWrite_sys (r := .nmitimen) (by decide)
  case memsel => exact busWrite_sys (r := .memsel) (by decide)

/-- The byte index of a palette entry is twice its number, and fits in the 10 bits of CGIDX (R95). -/
theorem two_mul_setWidth_eq_ofNat (v : Byte) : 2 * v.setWidth 10 = BitVec.ofNat 10 (2 * v.toNat) := by
  apply BitVec.eq_of_toNat_eq
  simp

/-- Settles O42: the VRAM pointer's bytes are the model's own join; CGIDX by `two_mul_setWidth_eq_ofNat`. -/
theorem pointerRegistersSetThePointers : Obligations.PointerRegistersSetThePointers := by
  intro s v
  refine ⟨?vmaddl, ?vmaddh, ?cgadd⟩
  case vmaddl => exact busWrite_ppu (r := .vmaddl) (by decide) rfl
  case vmaddh => exact busWrite_ppu (r := .vmaddh) (by decide) rfl
  case cgadd =>
    rw [← two_mul_setWidth_eq_ofNat]
    exact busWrite_ppu (r := .cgadd) (by decide) rfl

end Sys2Proof.Proofs.RegisterStores
end

section
/-! PROOFS. The flag instructions (40_flags_mode.md): CLC, SEI and CLI (R200 to R202), REP and SEP (R204, R205), with the
decoding of an opcode's row (R141, R144) and the spec's bit test of a flag of P. -/

namespace Sys2Proof.Proofs.FlagMode

open Sys2Proof.Machine Sys2Proof.Laws Sys2Proof.Proofs.SetZN

/-! ### Decoding through the opcode map -/

/-- An opcode byte of the map, with exactly the operand bytes of its format, decodes to the instruction of its row. -/
theorem decodesAs_of_row {wd : Widths} {op : Byte} {row : OpcodeRow} {operands : List Byte}
    (hrow : opcodeRow? op = some row) (hlen : operands.length = row.format.operandBytes wd) :
    Spec.DecodesAs wd (op :: operands) (row.make (OperandBytes.ofList operands)) := by
  intro rest
  have hfit : ¬ (operands ++ rest).length < row.format.operandBytes wd := by
    rw [List.length_append]; omega
  simp only [List.cons_append, decode, hrow, if_neg hfit, List.take_left' hlen, List.drop_left' hlen]

/-! ### One flag of P as a mask (R36) -/

theorem setFlag_true (p : Byte) (f : Flag) : setFlag p f true = p ||| f.mask := rfl

theorem setFlag_false (p : Byte) (f : Flag) : setFlag p f false = p &&& ~~~f.mask := rfl

/-- A flag is 1 exactly when its mask meets P. -/
theorem getFlag_iff_and_mask_ne_zero (p : Byte) (f : Flag) : getFlag p f = true ↔ p &&& f.mask ≠ 0 := by
  have hmask : f.mask = BitVec.twoPow 8 f.bit := (BitVec.twoPow_eq 8 f.bit).symm
  have hne : BitVec.twoPow 8 f.bit ≠ 0 := by cases f <;> decide
  rw [hmask, BitVec.and_twoPow]
  exact (ite_ne_right_iff.trans (and_iff_left hne)).symm

/-! ### The index high bytes (R42) -/

/-- Settling the index high bytes in the spec's masks: bit 4 of P is X, and an index register keeps its low byte. -/
theorem settleIndexHigh_eq_and_mask (s : State) :
    s.settleIndexHigh =
      { s with
        x := if s.config.xFlagClearsIndexHigh = true ∧ s.p &&& 0x10 ≠ 0 then s.x &&& 0x00FF else s.x
        y := if s.config.xFlagClearsIndexHigh = true ∧ s.p &&& 0x10 ≠ 0 then s.y &&& 0x00FF else s.y } := by
  have hx : getFlag s.p .x = true ↔ s.p &&& 0x10 ≠ 0 := getFlag_iff_and_mask_ne_zero s.p .x
  simp only [settleIndexHigh_eq, Bool.and_eq_true, hx, low_eq_and_mask, Spec.mask]

/-! ### The two obligations -/

/-- Settles O10: each opcode's row has no operand, and each flag write is the spec's mask on P. -/
theorem flagInstructionsWriteOneFlag : Obligations.FlagInstructionsWriteOneFlag := by
  refine ⟨fun wd => ⟨?decodeClc, ?decodeSei, ?decodeCli⟩, fun s => ⟨?clc, ?sei, ?cli⟩⟩
  case decodeClc => exact decodesAs_of_row (row := ⟨0x18, .implied, fun _ => .clc⟩) rfl rfl
  case decodeSei => exact decodesAs_of_row (row := ⟨0x78, .implied, fun _ => .sei⟩) rfl rfl
  case decodeCli => exact decodesAs_of_row (row := ⟨0x58, .implied, fun _ => .cli⟩) rfl rfl
  case clc => rw [exec, execClc, setFlag_false]; rfl
  case sei => rw [exec, execSei, setFlag_true]; rfl
  case cli => rw [exec, execCli, setFlag_false]; rfl

/-- Settles O12: REP is its own mask on P; SEP settles the index high bytes after its write, by
`settleIndexHigh_eq_and_mask`. -/
theorem repClearsAndSepSetsStatusBits : Obligations.RepClearsAndSepSetsStatusBits := by
  refine ⟨fun wd m => ⟨?decodeRep, ?decodeSep⟩, fun s m => ⟨?rep, ?sep⟩⟩
  case decodeRep => exact decodesAs_of_row (row := ⟨0xC2, .imm8, fun o => .rep o.b1⟩) (operands := [m]) rfl rfl
  case decodeSep => exact decodesAs_of_row (row := ⟨0xE2, .imm8, fun o => .sep o.b1⟩) (operands := [m]) rfl rfl
  case rep => rw [exec, execRep, commit_ok]; rfl
  case sep => rw [exec, execSep, commit_ok, settleIndexHigh_eq_and_mask]; rfl

end Sys2Proof.Proofs.FlagMode
end

section
/-! PROOFS. TCD, the increments and XBA (42_transfer_compare.md R231, R234 to R237), with the spec's widths (R40) and the register
write at a width (R12). -/

namespace Sys2Proof.Proofs.TransferCompare

open Sys2Proof.Machine Sys2Proof.Laws Sys2Proof.Proofs.SetZN Sys2Proof.Proofs.FlagMode

/-! ### The spec's widths and its register write -/

theorem widths_a_eq_wA (s : State) : s.widths.a = Spec.wA s := by
  have hm : getFlag s.p .m = true ↔ s.p &&& 0x20 ≠ 0 := getFlag_iff_and_mask_ne_zero s.p .m
  simp only [State.widths, widthOf, Spec.wA, Bool.or_eq_true, Bool.and_eq_true, hm]

theorem widths_x_eq_wX (s : State) : s.widths.x = Spec.wX s := by
  have hx : getFlag s.p .x = true ↔ s.p &&& 0x10 ≠ 0 := getFlag_iff_and_mask_ne_zero s.p .x
  simp only [State.widths, widthOf, Spec.wX, Bool.or_eq_true, Bool.and_eq_true, hx]

theorem hiByte_merged_w8 (r v : Word) : hiByte (Spec.merged r .w8 v) = hiByte r := by
  have bytewise : hiByte (Spec.merged r .w8 v) = (hiByte r &&& BitVec.allOnes 8) ||| (hiByte v &&& 0#8) := by
    rw [Spec.merged, hiByte, BitVec.extractLsb'_or, BitVec.extractLsb'_and, BitVec.extractLsb'_and]; rfl
  rw [bytewise, BitVec.and_allOnes, BitVec.and_zero, BitVec.or_zero]

theorem loByte_merged_w8 (r v : Word) : loByte (Spec.merged r .w8 v) = loByte v := by
  have bytewise : loByte (Spec.merged r .w8 v) = (loByte r &&& 0#8) ||| (loByte v &&& BitVec.allOnes 8) := by
    rw [Spec.merged, loByte, BitVec.extractLsb'_or, BitVec.extractLsb'_and, BitVec.extractLsb'_and]; rfl
  rw [bytewise, BitVec.and_allOnes, BitVec.and_zero, BitVec.zero_or]

theorem merged_w16 (r v : Word) : Spec.merged r .w16 v = v := by
  have whole : Spec.merged r .w16 v = (r &&& 0#16) ||| (v &&& BitVec.allOnes 16) := rfl
  rw [whole, BitVec.and_allOnes, BitVec.and_zero, BitVec.zero_or]

/-- `setLow` is the masked merge of R12. -/
theorem setLow_eq_merged (r : Word) (w : Width) (v : Word) : Machine.setLow r w v = Spec.merged r w v := by
  cases w with
  | w8 => rw [setLow_w8, ← joinBytes_hi_lo (Spec.merged r .w8 v), hiByte_merged_w8, loByte_merged_w8]
  | w16 => rw [setLow_w16, merged_w16]

theorem writeBack_x_eq_merged (s : State) (v : Word) :
    writeBack s .x v = { s with x := Spec.merged s.x (Spec.wX s) v, p := Spec.withZN s.p v (Spec.wX s) } := by
  rw [← widths_x_eq_wX, ← setLow_eq_merged, ← setZN_eq_specWithZN]; rfl

theorem writeBack_a_eq_merged (s : State) (v : Word) :
    writeBack s .a v = { s with a := Spec.merged s.a (Spec.wA s) v, p := Spec.withZN s.p v (Spec.wA s) } := by
  rw [← widths_a_eq_wA, ← setLow_eq_merged, ← setZN_eq_specWithZN]; rfl

/-! ### One more and one less at a width -/

theorem two_pow_bits_dvd (w : Width) : 2 ^ Spec.bits w ∣ 2 ^ 16 := by cases w <;> decide

/-- A word masked to a width, as arithmetic modulo the width's size. -/
theorem low_eq_ofNat_mod (v : Word) (w : Width) : low v w = BitVec.ofNat 16 (v.toNat % 2 ^ Spec.bits w) := by
  rw [← toNat_low, BitVec.ofNat_toNat, BitVec.setWidth_eq]

theorem low_low_add_one (r : Word) (w : Width) :
    low (low r w + 1) w = BitVec.ofNat 16 ((r.toNat % 2 ^ Spec.bits w + 1) % 2 ^ Spec.bits w) := by
  rw [low_eq_ofNat_mod, BitVec.toNat_add, Nat.mod_mod_of_dvd _ (two_pow_bits_dvd w), toNat_low]; rfl

theorem low_low_sub_one (r : Word) (w : Width) :
    low (low r w - 1) w =
      BitVec.ofNat 16 ((r.toNat % 2 ^ Spec.bits w + 2 ^ Spec.bits w - 1) % 2 ^ Spec.bits w) := by
  rw [low_eq_ofNat_mod, BitVec.toNat_sub, Nat.mod_mod_of_dvd _ (two_pow_bits_dvd w), toNat_low]
  congr 1
  have one : (1 : Word).toNat = 1 := rfl
  cases w with
  | w8 => rw [one, Spec.bits]; omega
  | w16 => rw [one, Spec.bits]; omega

/-! ### The three obligations -/

/-- Settles O20: the opcode's row has no operand, and the flags are `setZN` of the whole of A. -/
theorem tcdMovesSixteenBits : Obligations.TcdMovesSixteenBits := by
  refine ⟨fun wd => ?decodeTcd, fun s => ?tcd⟩
  case decodeTcd => exact decodesAs_of_row (row := ⟨0x5B, .implied, fun _ => .tcd⟩) rfl rfl
  case tcd => rw [exec, execTcd, commit_ok, State.withZN, setZN_eq_specWithZN]; rfl

/-- Settles O22: one more and one less modulo the width's size, by `low_low_add_one` and `low_low_sub_one`, written back by the
masked merge. -/
theorem incrementsWrapWithinWidth : Obligations.IncrementsWrapWithinWidth := by
  refine ⟨fun wd => ⟨?decodeInx, ?decodeDex, ?decodeIna⟩, fun s => ⟨?inx, ?dex, ?ina⟩⟩
  case decodeInx => exact decodesAs_of_row (row := ⟨0xE8, .implied, fun _ => .inx⟩) rfl rfl
  case decodeDex => exact decodesAs_of_row (row := ⟨0xCA, .implied, fun _ => .dex⟩) rfl rfl
  case decodeIna => exact decodesAs_of_row (row := ⟨0x1A, .implied, fun _ => .ina⟩) rfl rfl
  case inx => rw [exec, execInx, commit_ok, widths_x_eq_wX, low_low_add_one, writeBack_x_eq_merged]; rfl
  case dex => rw [exec, execDex, commit_ok, widths_x_eq_wX, low_low_sub_one, writeBack_x_eq_merged]; rfl
  case ina => rw [exec, execIna, commit_ok, widths_a_eq_wA, low_low_add_one, writeBack_a_eq_merged]; rfl

/-- XBA in the model's terms: the bytes of A join in the other order. -/
theorem exec_xba (s : State) :
    exec .xba s = .next { s with
      a := joinBytes (loByte s.a) (hiByte s.a)
      p := Spec.withZN s.p (joinBytes (loByte s.a) (hiByte s.a)) .w8
      cycles := 3 } := by
  rw [exec, execXba, commit_ok, ← setZN_eq_specWithZN]; rfl

theorem a_of_exec_xba {s t : State} (h : exec .xba s = .next t) : t.a = joinBytes (loByte s.a) (hiByte s.a) := by
  rw [exec_xba, Host.Outcome.next.injEq] at h
  rw [← h]

/-- Settles O23: the swap is `exec_xba`, and swapping the bytes of the swapped word joins them as they were. -/
theorem xbaSwapsTheBytes : Obligations.XbaSwapsTheBytes := by
  refine ⟨fun wd => ?decodeXba, fun s => ⟨?swap, ?twice⟩⟩
  case decodeXba => exact decodesAs_of_row (row := ⟨0xEB, .implied, fun _ => .xba⟩) rfl rfl
  case swap => exact exec_xba s
  case twice =>
    intro t u ht hu
    rw [a_of_exec_xba hu, a_of_exec_xba ht, loByte_joinBytes, hiByte_joinBytes, joinBytes_hi_lo]

end Sys2Proof.Proofs.TransferCompare
end

section
/-! PROOFS. JMP (44_control.md R274), with the word that an absolute operand's bytes spell (R142). -/

namespace Sys2Proof.Proofs.Control

open Sys2Proof.Machine Sys2Proof.Laws Sys2Proof.Proofs.FlagMode

/-- The spec's two bytes of a word, low byte first, assemble to that word again. -/
@[simp] theorem u16_ofList_bytesOf (a : Word) : (OperandBytes.ofList (Spec.bytesOf a)).u16 = a := joinBytes_hi_lo a

/-- An opcode whose row takes an absolute operand, before the bytes of `a`, decodes to the row's instruction on `a`. -/
theorem decodesAs_abs {op : Byte} {make : Word → Instr} (hrow : opcodeRow? op = some ⟨op, .abs, fun o => make o.u16⟩)
    (wd : Widths) (a : Word) : Spec.DecodesAs wd (op :: Spec.bytesOf a) (make a) := by
  simpa only [u16_ofList_bytesOf] using decodesAs_of_row (wd := wd) (operands := Spec.bytesOf a) hrow rfl

/-- Settles O33: the opcode's row takes an absolute operand, and the jump commits PC and the cycles alone. -/
theorem jmpSetsProgramCounter : Obligations.JmpSetsProgramCounter := by
  refine ⟨fun wd a => ?decodeJmp, fun s a => ?jmp⟩
  case decodeJmp => exact decodesAs_abs rfl wd a
  case jmp => rw [exec, execJmp, commit_ok]; rfl

end Sys2Proof.Proofs.Control
end

section
/-! PROOFS. The reset request (70_reset_and_hazards.md R340, R342). -/

namespace Sys2Proof.Proofs.Reset

open Sys2Proof.Machine Sys2Proof.Laws

@[simp] theorem applyReset_e (s : State) : s.applyReset.e = true := rfl

@[simp] theorem applyReset_pc (s : State) : s.applyReset.pc = s.rom.resetVector := rfl

/-- The bit that reset forces is bit 5, the accumulator width's own, whatever `RESET_P` is (R60, D17). -/
@[simp] theorem applyReset_p (s : State) : s.applyReset.p = setFlag s.config.resetP .m true := rfl

/-- Settles O51: reset sets E and P.M in every state, and the vector's bytes 0x00 and 0x80, low byte first, join to 0x8000. -/
theorem resetVectorExample : Obligations.ResetVectorExample := by
  refine fun s => ⟨applyReset_e s, ?accWidth, fun hlo hhi => ?vector⟩
  case accWidth => rw [applyReset_p, getFlag_setFlag, if_pos rfl]
  case vector => rw [applyReset_pc, Rom.resetVector, hlo, hhi]; rfl

end Sys2Proof.Proofs.Reset
end

section
/-! PROOFS. The decoder and the encoder undo each other (30_encoding.md R140 to R145). -/

namespace Sys2Proof.Proofs.Encoding

open Sys2Proof.Machine Sys2Proof.Laws Sys2Proof.Proofs.FlagMode Sys2Proof.Proofs.Control

variable {wd : Widths} {op : Byte}

/-! ### Decoding what was encoded -/

/-- An opcode whose row has no operand decodes to the row's instruction. -/
theorem decodesAs_implied {i : Instr} (hrow : opcodeRow? op = some ⟨op, .implied, fun _ => i⟩) :
    Spec.DecodesAs wd [op] i :=
  decodesAs_of_row (operands := []) hrow rfl

/-- An opcode whose row has one operand byte, before that byte, decodes to the row's instruction on it. -/
theorem decodesAs_byte {fmt : Format} {make : Byte → Instr} (hrow : opcodeRow? op = some ⟨op, fmt, fun o => make o.b1⟩)
    (hlen : fmt.operandBytes wd = 1) (b : Byte) : Spec.DecodesAs wd [op, b] (make b) :=
  decodesAs_of_row (operands := [b]) hrow hlen.symm

theorem length_encodeImm (w : Width) (imm : Word) : (encodeImm w imm).length = w.bytes := by cases w <;> rfl

/-- At width 8 an immediate that fits is its low byte, zero-extended (R142). -/
theorem zext16_loByte_of_lt {imm : Word} (h : imm.toNat < 0x100) : zext16 (loByte imm) = imm := by
  apply BitVec.eq_of_toNat_eq
  rw [toNat_zext16, toNat_loByte, Nat.mod_eq_of_lt h]

theorem u16_ofList_encodeImm {w : Width} {imm : Word} (h : w.immFits imm = true) :
    (OperandBytes.ofList (encodeImm w imm)).u16 = imm := by
  cases w with
  | w8 => rw [encodeImm, OperandBytes.ofList, OperandBytes.u16, ← zext16_eq_joinBytes, zext16_loByte_of_lt (of_decide_eq_true h)]
  | w16 => exact u16_ofList_bytesOf imm

/-- An opcode whose row takes an immediate of width `w`, before the bytes of one that fits, decodes to the row's instruction on
it. -/
theorem decodesAs_imm {fmt : Format} {make : Word → Instr} {w : Width} {imm : Word}
    (hrow : opcodeRow? op = some ⟨op, fmt, fun o => make o.u16⟩) (hlen : fmt.operandBytes wd = w.bytes)
    (hfits : w.immFits imm = true) : Spec.DecodesAs wd (op :: encodeImm w imm) (make imm) := by
  have h := decodesAs_of_row (wd := wd) hrow ((length_encodeImm w imm).trans hlen.symm)
  simpa only [u16_ofList_encodeImm hfits] using h

/-- The encoding of a well-formed instruction decodes to it, one form of operand after the other. -/
theorem decodesAs_encode {i : Instr} (hwf : i.wellFormed wd = true) : Spec.DecodesAs wd (encode wd i) i := by
  cases i
  case clc | sei | cli | xce => exact decodesAs_implied rfl
  case tcd | tcs | txs | inx | dex | ina | xba => exact decodesAs_implied rfl
  case pha | phx | php | phk | pla | plx | pld | plb | plp => exact decodesAs_implied rfl
  case rts | rtl | stp => exact decodesAs_implied rfl
  case rep b | sep b | staDp b | stxDp b | stzDpX b | bne b => exact decodesAs_byte rfl rfl b
  case ldaImm | ldxImm | ldyImm | cmpImm | cpxImm => exact decodesAs_imm rfl rfl hwf
  case ldaAbs a | ldxAbs a | staAbs a | stxAbs a | styAbs a | stzAbs a => exact decodesAs_abs rfl wd a
  case cmpAbs a | cpxAbs a | jsr a | jmp a => exact decodesAs_abs rfl wd a
  case jsl a bk =>
    have h := decodesAs_of_row (wd := wd) (op := 0x22) (operands := [loByte a, hiByte a, bk]) rfl rfl
    simpa only [OperandBytes.ofList, OperandBytes.u16, joinBytes_hi_lo, encode, encodeU16, List.cons_append, List.nil_append] using h

/-- Settles O1: what `decodesAs_encode` says of every rest. -/
theorem decodeOfEncodeIsTheInstruction : Obligations.DecodeOfEncodeIsTheInstruction :=
  fun _ _ rest hwf => decodesAs_encode hwf rest

/-! ### Encoding what was decoded -/

/-- The operand bytes of a row's length make a well-formed instruction whose encoding they are, after the row's opcode. -/
def RowEncodes (wd : Widths) (row : OpcodeRow) : Prop :=
  ∀ operands : List Byte, operands.length = row.format.operandBytes wd →
    (row.make (OperandBytes.ofList operands)).wellFormed wd = true ∧
      encode wd (row.make (OperandBytes.ofList operands)) = row.opcode :: operands

theorem rowEncodes_implied {i : Instr} (hwf : i.wellFormed wd = true) (henc : encode wd i = [op]) :
    RowEncodes wd ⟨op, .implied, fun _ => i⟩ := by
  intro operands hlen
  rw [List.eq_nil_of_length_eq_zero hlen]
  exact ⟨hwf, henc⟩

theorem rowEncodes_byte {fmt : Format} {make : Byte → Instr} (hlen : fmt.operandBytes wd = 1)
    (hwf : ∀ b, (make b).wellFormed wd = true) (henc : ∀ b, encode wd (make b) = [op, b]) :
    RowEncodes wd ⟨op, fmt, fun o => make o.b1⟩ := by
  intro operands h
  obtain ⟨b, rfl⟩ := List.length_eq_one_iff.1 (h.trans hlen)
  exact ⟨hwf b, henc b⟩

/-- One operand byte is an immediate at width 8, two are one at width 16 (R142). -/
theorem encodeImm_u16_ofList {w : Width} {operands : List Byte} (h : operands.length = w.bytes) :
    w.immFits (OperandBytes.ofList operands).u16 = true ∧ encodeImm w (OperandBytes.ofList operands).u16 = operands := by
  cases w with
  | w8 =>
    obtain ⟨b, rfl⟩ := List.length_eq_one_iff.1 h
    have hu : (OperandBytes.ofList [b]).u16 = zext16 b := (zext16_eq_joinBytes b).symm
    rw [hu, encodeImm, loByte_zext16]
    refine ⟨decide_eq_true ?_, rfl⟩
    rw [toNat_zext16]
    exact b.isLt
  | w16 =>
    obtain ⟨lo, hi, rfl⟩ := List.length_eq_two.1 h
    rw [encodeImm, encodeU16, OperandBytes.ofList, OperandBytes.u16, loByte_joinBytes, hiByte_joinBytes]
    exact ⟨rfl, rfl⟩

theorem rowEncodes_imm {fmt : Format} {make : Word → Instr} (w : Width) (hlen : fmt.operandBytes wd = w.bytes)
    (hwf : ∀ v, w.immFits v = true → (make v).wellFormed wd = true)
    (henc : ∀ v, encode wd (make v) = op :: encodeImm w v) : RowEncodes wd ⟨op, fmt, fun o => make o.u16⟩ := by
  intro operands h
  obtain ⟨hfits, hbytes⟩ := encodeImm_u16_ofList (h.trans hlen)
  exact ⟨hwf _ hfits, by rw [henc, hbytes]⟩

/-- An absolute operand has the bytes of a 16-bit immediate (R141). -/
theorem rowEncodes_abs {make : Word → Instr} (hwf : ∀ a, (make a).wellFormed wd = true)
    (henc : ∀ a, encode wd (make a) = op :: encodeU16 a) : RowEncodes wd ⟨op, .abs, fun o => make o.u16⟩ :=
  rowEncodes_imm .w16 rfl (fun a _ => hwf a) henc

theorem rowEncodes_jsl : RowEncodes wd ⟨0x22, .long, fun o => .jsl o.u16 o.b3⟩ := by
  intro operands h
  obtain ⟨b1, b2, b3, rfl⟩ := List.length_eq_three.1 h
  simp [OperandBytes.ofList, OperandBytes.u16, encode, encodeU16, Instr.wellFormed]

theorem rowEncodes_flagModeRows : ∀ row ∈ flagModeRows, RowEncodes wd row := by
  simp only [flagModeRows, List.forall_mem_cons]
  refine ⟨?clc, ?sei, ?cli, ?xce, ?rep, ?sep, List.forall_mem_nil _⟩
  case clc | sei | cli | xce => exact rowEncodes_implied rfl rfl
  case rep | sep => exact rowEncodes_byte rfl (fun _ => rfl) (fun _ => rfl)

theorem rowEncodes_loadStoreRows : ∀ row ∈ loadStoreRows, RowEncodes wd row := by
  simp only [loadStoreRows, List.forall_mem_cons]
  refine ⟨?ldaImm, ?ldxImm, ?ldyImm, ?ldaAbs, ?ldxAbs, ?staAbs, ?stxAbs, ?styAbs, ?staDp, ?stxDp, ?stzAbs, ?stzDpX,
    List.forall_mem_nil _⟩
  case ldaImm => exact rowEncodes_imm wd.a rfl (fun _ h => h) (fun _ => rfl)
  case ldxImm | ldyImm => exact rowEncodes_imm wd.x rfl (fun _ h => h) (fun _ => rfl)
  case ldaAbs | ldxAbs | staAbs | stxAbs | styAbs | stzAbs => exact rowEncodes_abs (fun _ => rfl) (fun _ => rfl)
  case staDp | stxDp | stzDpX => exact rowEncodes_byte rfl (fun _ => rfl) (fun _ => rfl)

theorem rowEncodes_transferCompareRows : ∀ row ∈ transferCompareRows, RowEncodes wd row := by
  simp only [transferCompareRows, List.forall_mem_cons]
  refine ⟨?tcd, ?tcs, ?txs, ?inx, ?dex, ?ina, ?xba, ?cmpAbs, ?cmpImm, ?cpxAbs, ?cpxImm, List.forall_mem_nil _⟩
  case tcd | tcs | txs | inx | dex | ina | xba => exact rowEncodes_implied rfl rfl
  case cmpAbs | cpxAbs => exact rowEncodes_abs (fun _ => rfl) (fun _ => rfl)
  case cmpImm => exact rowEncodes_imm wd.a rfl (fun _ h => h) (fun _ => rfl)
  case cpxImm => exact rowEncodes_imm wd.x rfl (fun _ h => h) (fun _ => rfl)

theorem rowEncodes_stackRows : ∀ row ∈ stackRows, RowEncodes wd row := by
  simp only [stackRows, List.forall_mem_cons]
  refine ⟨?pha, ?phx, ?php, ?phk, ?pla, ?plx, ?pld, ?plb, ?plp, List.forall_mem_nil _⟩
  case pha | phx | php | phk | pla | plx | pld | plb | plp => exact rowEncodes_implied rfl rfl

theorem rowEncodes_controlRows : ∀ row ∈ controlRows, RowEncodes wd row := by
  simp only [controlRows, List.forall_mem_cons]
  refine ⟨?jsr, rowEncodes_jsl, ?rts, ?rtl, ?jmp, ?bne, ?stp, List.forall_mem_nil _⟩
  case jsr | jmp => exact rowEncodes_abs (fun _ => rfl) (fun _ => rfl)
  case rts | rtl | stp => exact rowEncodes_implied rfl rfl
  case bne => exact rowEncodes_byte rfl (fun _ => rfl) (fun _ => rfl)

theorem rowEncodes_of_mem_opcodeMap : ∀ row ∈ opcodeMap, RowEncodes wd row := by
  simp only [opcodeMap, List.forall_mem_append]
  exact ⟨⟨⟨⟨rowEncodes_flagModeRows, rowEncodes_loadStoreRows⟩, rowEncodes_transferCompareRows⟩, rowEncodes_stackRows⟩,
    rowEncodes_controlRows⟩

/-- The row found for an opcode byte is a row of the map with that byte. -/
theorem opcodeRow?_eq_some {row : OpcodeRow} (h : opcodeRow? op = some row) : row ∈ opcodeMap ∧ row.opcode = op :=
  ⟨List.mem_of_find?_eq_some h, beq_iff_eq.1 (List.find?_some (p := fun r : OpcodeRow => r.opcode == op) h)⟩

/-- What the decoder answers, in the terms of the opcode map: the row's instruction on the bytes that follow the opcode. -/
theorem decode_eq_ok {bytes rest : List Byte} {i : Instr} (h : decode wd bytes = .ok (i, rest)) :
    ∃ op operands row, bytes = op :: (operands ++ rest) ∧ opcodeRow? op = some row ∧
      operands.length = row.format.operandBytes wd ∧ i = row.make (OperandBytes.ofList operands) := by
  cases bytes with
  | nil => cases h
  | cons op tail =>
    simp only [decode] at h
    split at h
    · cases h
    · rename_i row hrow
      split at h
      · cases h
      · rename_i hlen
        obtain ⟨rfl, rfl⟩ := Prod.mk.inj (Except.ok.inj h)
        exact ⟨op, _, row, by rw [List.take_append_drop], hrow, List.length_take_of_le (Nat.le_of_not_lt hlen), rfl⟩

/-- Settles O2: the bytes read are a row's opcode and operands, which `rowEncodes_of_mem_opcodeMap` encodes back. -/
theorem encodeOfDecodeIsTheBytes : Obligations.EncodeOfDecodeIsTheBytes := by
  intro wd bytes rest i h
  obtain ⟨op, operands, row, rfl, hrow, hlen, rfl⟩ := decode_eq_ok h
  obtain ⟨hmem, rfl⟩ := opcodeRow?_eq_some hrow
  obtain ⟨hwf, henc⟩ := rowEncodes_of_mem_opcodeMap row hmem operands hlen
  exact ⟨hwf, by rw [henc, List.cons_append]⟩

/-- Settles O3: the decoder runs on the seven words. -/
theorem writtenOutWordsDecode : Obligations.WrittenOutWordsDecode := by
  unfold Obligations.WrittenOutWordsDecode
  decide

end Sys2Proof.Proofs.Encoding
end

section
/-! PROOFS. Fetch, decode and the errors of both within a step (20_memory.md R77; 30_encoding.md R143, R146, R147; 60_exceptions.md
R300 to R303), and the halt (44_control.md R276). -/

namespace Sys2Proof.Proofs.Fetch

open Sys2Proof.Machine Sys2Proof.Laws Sys2Proof.Proofs.Encoding

variable {s : State} {f : Fault}

/-! ### Fetching bytes (R77) -/

/-- Address k of what follows the byte at `a` is address k + 1 from `a`. -/
theorem add_one_add_ofNat (a : Word) (k : Nat) : a + 1 + BitVec.ofNat 16 k = a + BitVec.ofNat 16 (k + 1) := by
  rw [BitVec.add_assoc, BitVec.add_comm 1, BitVec.ofNat_add]
  rfl

theorem fetch8_eq_ok {b : Byte} (h : busRead s s.pbr s.pc = .ok b) : fetch8 s = .ok ({ s with pc := s.pc + 1 }, b) := by
  rw [fetch8, h, ok_bind, pure_eq_ok]

theorem fetch8_eq_error (h : busRead s s.pbr s.pc = .error f) : fetch8 s = .error f := by
  rw [fetch8, h, error_bind]

/-- A byte that can be read is fetched, and the rest after it. -/
theorem fetchBytes_succ {b : Byte} (h : busRead s s.pbr s.pc = .ok b) (n : Nat) :
    fetchBytes (n + 1) s = fetchBytes n { s with pc := s.pc + 1 } >>= fun r => .ok (r.1, b :: r.2) := by
  rw [fetchBytes, fetch8_eq_ok h]
  rfl

/-- Bytes that can all be read are fetched in order. -/
theorem fetchBytes_eq_ok {bytes : List Byte}
    (h : ∀ (k : Nat) (hk : k < bytes.length), busRead s s.pbr (s.pc + BitVec.ofNat 16 k) = .ok bytes[k]) :
    fetchBytes bytes.length s = .ok ({ s with pc := s.pc + BitVec.ofNat 16 bytes.length }, bytes) := by
  induction bytes generalizing s with
  | nil => rw [List.length_nil, fetchBytes, BitVec.add_zero]
  | cons b bytes ih =>
    have hb : busRead s s.pbr s.pc = .ok b := by simpa using h 0 (Nat.zero_lt_succ _)
    have hrest := ih (s := { s with pc := s.pc + 1 }) fun k hk => by
      rw [add_one_add_ofNat]
      exact h (k + 1) (Nat.succ_lt_succ hk)
    rw [List.length_cons, fetchBytes_succ hb, hrest, ok_bind, add_one_add_ofNat]

/-- The first byte that cannot be read ends the fetch with its error. -/
theorem fetchBytes_eq_error {n k : Nat} (hk : k < n)
    (hread : ∀ j < k, ∃ b, busRead s s.pbr (s.pc + BitVec.ofNat 16 j) = .ok b)
    (hfail : busRead s s.pbr (s.pc + BitVec.ofNat 16 k) = .error f) : fetchBytes n s = .error f := by
  induction k generalizing n s with
  | zero =>
    cases n with
    | zero => exact absurd hk (Nat.not_lt_zero _)
    | succ n => rw [fetchBytes, fetch8_eq_error (by simpa using hfail), error_bind]
  | succ k ih =>
    cases n with
    | zero => exact absurd hk (Nat.not_lt_zero _)
    | succ n =>
      obtain ⟨b, hb⟩ := hread 0 (Nat.zero_lt_succ _)
      have hrest : fetchBytes n { s with pc := s.pc + 1 } = .error f := by
        apply ih (Nat.lt_of_succ_lt_succ hk)
        · intro j hj
          rw [add_one_add_ofNat]
          exact hread (j + 1) (Nat.succ_lt_succ hj)
        · rw [add_one_add_ofNat]
          exact hfail
      rw [fetchBytes_succ (by simpa using hb), hrest, error_bind]

/-! ### The decoder's part of a step (R143) -/

/-- After an opcode byte of the map, the fetch is that of its operand bytes. -/
theorem fetchInstr_of_row {op : Byte} {row : OpcodeRow} (hop : busRead s s.pbr s.pc = .ok op) (hrow : opcodeRow? op = some row) :
    fetchInstr s = fetchBytes (row.format.operandBytes s.widths) { s with pc := s.pc + 1 } >>=
      fun r => .ok (r.1, row.make (OperandBytes.ofList r.2)) := by
  simp only [fetchInstr, fetch8_eq_ok hop, ok_bind, hrow, pure_eq_ok]

theorem fetchInstr_notInMap {op : Byte} (hop : busRead s s.pbr s.pc = .ok op) (hrow : opcodeRow? op = none) :
    fetchInstr s = .error (notInMapFault s.config op) := by
  simp only [fetchInstr, fetch8_eq_ok hop, ok_bind, hrow, raise]

theorem step_eq_exec {t : State} {i : Instr} (h : fetchInstr s = .ok (t, i)) : step s = exec i t := by rw [step, h]

theorem step_eq_fault (h : fetchInstr s = .error f) : step s = .fault f := by rw [step, h]

/-- Settles O4: the bytes are a row's opcode and operands (`decode_eq_ok`), and the fetch reads the same. -/
theorem stepRunsTheDecodedInstruction : Obligations.StepRunsTheDecodedInstruction := by
  intro s bytes i hread hdecode
  obtain ⟨op, operands, row, rfl, hrow, hlen, rfl⟩ := decode_eq_ok hdecode
  rw [List.append_nil] at hread ⊢
  have hop : busRead s s.pbr s.pc = .ok op := by simpa using hread 0 (Nat.zero_lt_succ _)
  have hoperands := fetchBytes_eq_ok (s := { s with pc := s.pc + 1 }) (bytes := operands) fun k hk => by
    rw [add_one_add_ofNat]
    exact hread (k + 1) (Nat.succ_lt_succ hk)
  apply step_eq_exec
  rw [fetchInstr_of_row hop hrow, ← hlen, hoperands, ok_bind, add_one_add_ofNat, List.length_cons]

/-! ### The errors of the fetch -/

/-- The opcode bytes without a row are those outside the 45. -/
theorem opcodeRow?_eq_none_iff {op : Byte} : opcodeRow? op = none ↔ op ∉ Spec.opcodeBytes := by
  have hmap : Spec.opcodeBytes = opcodeMap.map OpcodeRow.opcode := rfl
  rw [opcodeRow?, List.find?_eq_none, hmap, List.mem_map]
  simp only [beq_iff_eq, not_exists, not_and]

/-- Settles O5: the byte has no row, and the lookup in `RECOGNISED_UNIMPLEMENTED` names the error. -/
theorem unlistedOpcodesFault : Obligations.UnlistedOpcodesFault := by
  intro s op hop hmem
  have hfault := step_eq_fault (fetchInstr_notInMap hop (opcodeRow?_eq_none_iff.2 hmem))
  refine ⟨fun hnone => ?unknown, fun mode hsome => ?unimplemented⟩
  case unknown => rw [hfault, notInMapFault, hnone]
  case unimplemented => rw [hfault, notInMapFault, hsome]

/-- Settles O6: `fetch8` for the opcode byte, `fetchBytes_eq_error` for the operand bytes. -/
theorem fetchFaultsAreReportedInByteOrder : Obligations.FetchFaultsAreReportedInByteOrder := by
  refine fun s f => ⟨fun hfail => ?opcode, fun op row k hop hrow hk hread hfail => ?operand⟩
  case opcode =>
    apply step_eq_fault
    rw [fetchInstr, fetch8_eq_error hfail, error_bind]
  case operand =>
    have hoperands := fetchBytes_eq_error (s := { s with pc := s.pc + 1 }) (f := f) hk
      (fun j hj => by rw [add_one_add_ofNat]; exact hread j hj) (by rw [add_one_add_ofNat]; exact hfail)
    apply step_eq_fault
    rw [fetchInstr_of_row hop hrow, hoperands, error_bind]

/-! ### What a step answers -/

theorem code_le_five (f : Fault) : f.code ≤ 5 := by cases f <;> simp [Fault.code]

/-- A step answers a next state or an error, never a refusal: its instruction ends through `commit`. -/
theorem step_cases (s : State) : (∃ t, step s = .next t) ∨ ∃ f, step s = .fault f := by
  rw [step]
  split
  · rename_i t i _
    obtain ⟨r, hr⟩ := exec_eq_commit i t
    rw [hr]
    cases r with
    | ok u => exact .inl ⟨u, rfl⟩
    | error f => exact .inr ⟨f, rfl⟩
  · exact .inr ⟨_, rfl⟩

theorem stepRequest_of_next {t : State} (h : step s = .next t) : stepRequest s = (.ok t.cycles, t) := by rw [stepRequest, h]

theorem stepRequest_of_fault (h : step s = .fault f) : stepRequest s = (.error f, s) := by rw [stepRequest, h]

/-- Settles O7: the two answers of `step_cases`, as the step request passes them on. -/
theorem stepAnswersNextOrOneOfSixErrors : Obligations.StepAnswersNextOrOneOfSixErrors := by
  intro s
  obtain ⟨t, ht⟩ | ⟨f, hf⟩ := step_cases s
  · exact .inl ⟨t, ht, stepRequest_of_next ht⟩
  · exact .inr ⟨f, hf, code_le_five f, stepRequest_of_fault hf⟩

/-- Settles O35: STP has no operand and commits its error; a run ends at the first step that raises it. -/
theorem stpHaltsUntilReset : Obligations.StpHaltsUntilReset := by
  refine ⟨fun wd => decodesAs_encode (i := .stp) rfl, fun s => rfl, fun s hop => ?_⟩
  have hrow : opcodeRow? 0xDB = some ⟨0xDB, .implied, fun _ => .stp⟩ := rfl
  have hstep : step s = .fault .halted := step_eq_exec (fetchInstr_of_row hop hrow)
  exact ⟨hstep, stepRequest_of_fault hstep, fun k => by rw [Safety.run, hstep]⟩

end Sys2Proof.Proofs.Fetch
end

section
/-! PROOFS. The instructions that read memory or an immediate (41_load_store.md R210 to R214; 42_transfer_compare.md R230, R238 to
R241), with MemRead in the spec's terms (20_memory.md R74) and the widths (10_state.md R40). -/

namespace Sys2Proof.Proofs.Reads

open Sys2Proof.Machine Sys2Proof.Laws Sys2Proof.Proofs.SetZN Sys2Proof.Proofs.FlagMode Sys2Proof.Proofs.TransferCompare
  Sys2Proof.Proofs.Encoding

variable {s : State} {bank : Byte} {a v : Word} {w : Width} {r : DataReg} {f : Fault}

/-! ### The widths -/

theorem widthOf_eq_w8_iff (h : s.config.emuForcesWidth = false) (narrow : Bool) : widthOf narrow s = .w8 ↔ narrow = true := by
  cases narrow <;> simp [widthOf, h]

/-- Settles O9: the spec's wA and wX are the model's widths; without `EMU_FORCES_WIDTH` only P.M and P.X enter them. -/
theorem widthsFollowPAndE : Obligations.WidthsFollowPAndE := by
  intro s
  refine ⟨?spec, fun h => ⟨widthOf_eq_w8_iff h _, widthOf_eq_w8_iff h _⟩⟩
  rw [← widths_a_eq_wA, ← widths_x_eq_wX]

theorem byWidth_eq_count (w : Width) (n8 n16 : Nat) : byWidth w n8 n16 = Spec.count w n8 n16 := by cases w <;> rfl

/-! ### MemRead -/

theorem reads_iff : Spec.Reads s bank a w v ↔ memRead s bank a w = .ok v := by
  cases w with
  | w8 => simp only [Spec.Reads, memRead, bind_eq_ok, pure_eq_ok, Except.ok.injEq, zext16_eq_joinBytes, joinBytes, @eq_comm _ v]; rfl
  | w16 => simp only [Spec.Reads, memRead, bind_eq_ok, pure_eq_ok, Except.ok.injEq, joinBytes, @eq_comm _ v, exists_and_left]

theorem readFails_iff : Spec.ReadFails s bank a w f ↔ memRead s bank a w = .error f := by
  cases w with
  | w8 => simp [Spec.ReadFails, memRead, bind_eq_error]
  | w16 => simp [Spec.ReadFails, memRead, bind_eq_error]

/-! ### Loads -/

theorem loadAbsolute_eq_error (h : memRead s s.dbr a (s.widthOfReg r) = .error f) : loadAbsolute s r a = .error f := by
  rw [loadAbsolute, h, error_bind]

theorem writeBack_y_eq_merged (s : State) (v : Word) :
    writeBack s .y v = { s with y := Spec.merged s.y (Spec.wX s) v, p := Spec.withZN s.p v (Spec.wX s) } := by
  rw [← widths_x_eq_wX, ← setLow_eq_merged, ← setZN_eq_specWithZN]; rfl

theorem widthOfReg_a_eq_wA (s : State) : s.widthOfReg .a = Spec.wA s := widths_a_eq_wA s

theorem widthOfReg_x_eq_wX (s : State) : s.widthOfReg .x = Spec.wX s := widths_x_eq_wX s

theorem widthOfReg_y_eq_wX (s : State) : s.widthOfReg .y = Spec.wX s := widths_x_eq_wX s

section
variable {op : Byte} {wd : Widths} {fmt : Format} {make : Word → Instr}
  (hrow : opcodeRow? op = some ⟨op, fmt, fun o => make o.u16⟩)
include hrow

/-- An immediate of one byte is that byte, zero-extended (R142). -/
theorem decodesAs_imm8 (hlen : fmt.operandBytes wd = w.bytes) (hw : w = .w8) (b1 : Byte) :
    Spec.DecodesAs wd [op, b1] (make (0x00#8 ++ b1)) :=
  decodesAs_of_row (operands := [b1]) hrow (by rw [hlen, hw]; rfl)

theorem decodesAs_imm16 (hlen : fmt.operandBytes wd = w.bytes) (hw : w = .w16) (b1 b2 : Byte) :
    Spec.DecodesAs wd [op, b1, b2] (make (b2 ++ b1)) :=
  decodesAs_of_row (operands := [b1, b2]) hrow (by rw [hlen, hw]; rfl)

end

/-- Settles O13: the immediate forms by the row's format at the width, the load by the masked merge. -/
theorem loadImmediateWritesRegisterAtWidth : Obligations.LoadImmediateWritesRegisterAtWidth := by
  refine ⟨fun wd b1 b2 => ⟨fun h => ?lda8, fun h => ?lda16, fun h => ?index8, fun h => ?index16⟩,
    fun s imm => ⟨?lda, ?ldx, ?ldy⟩⟩
  case lda8 => exact decodesAs_imm8 rfl rfl h b1
  case lda16 => exact decodesAs_imm16 rfl rfl h b1 b2
  case index8 => exact ⟨decodesAs_imm8 rfl rfl h b1, decodesAs_imm8 rfl rfl h b1⟩
  case index16 =>
    exact ⟨decodesAs_imm16 rfl rfl h b1 b2, decodesAs_imm16 rfl rfl h b1 b2⟩
  case lda =>
    rw [exec, execLdaImm, loadImmediate, commit_ok, writeBack_a_eq_merged, widthOfReg_a_eq_wA, byWidth_eq_count]; rfl
  case ldx =>
    rw [exec, execLdxImm, loadImmediate, commit_ok, writeBack_x_eq_merged, widthOfReg_x_eq_wX, byWidth_eq_count]; rfl
  case ldy =>
    rw [exec, execLdyImm, loadImmediate, commit_ok, writeBack_y_eq_merged, widthOfReg_y_eq_wX, byWidth_eq_count]; rfl

/-- Settles O14: a load completes with what MemRead answers and passes on its error. -/
theorem loadAbsoluteReadsDataBank : Obligations.LoadAbsoluteReadsDataBank := by
  refine ⟨fun wd a => ⟨decodesAs_encode (i := .ldaAbs a) rfl, decodesAs_encode (i := .ldxAbs a) rfl⟩,
    fun s a => ⟨fun v h => ?lda, fun f h => ?ldaFails, fun v h => ?ldx, fun f h => ?ldxFails⟩⟩
  case lda =>
    rw [← widthOfReg_a_eq_wA, reads_iff] at h
    rw [exec, execLdaAbs, loadAbsolute_eq_ok.2 ⟨v, h, rfl⟩, commit_ok, writeBack_a_eq_merged, widthOfReg_a_eq_wA, byWidth_eq_count]
    rfl
  case ldx =>
    rw [← widthOfReg_x_eq_wX, reads_iff] at h
    rw [exec, execLdxAbs, loadAbsolute_eq_ok.2 ⟨v, h, rfl⟩, commit_ok, writeBack_x_eq_merged, widthOfReg_x_eq_wX, byWidth_eq_count]
    rfl
  case ldaFails =>
    rw [← widthOfReg_a_eq_wA, readFails_iff] at h
    rw [exec, execLdaAbs, loadAbsolute_eq_error h, commit_error]
  case ldxFails =>
    rw [← widthOfReg_x_eq_wX, readFails_iff] at h
    rw [exec, execLdxAbs, loadAbsolute_eq_error h, commit_error]

/-! ### Compares (R230) -/

/-- Writing carry in the spec's masks. -/
theorem setFlag_c_eq_mask (p : Byte) (b : Bool) : setFlag p .c b = (p &&& 0xFE) ||| (if b then 0x01 else 0x00) := by
  revert p b
  decide

theorem setFlag_c_decide (p : Byte) (P : Prop) [Decidable P] :
    setFlag p .c (decide P) = (p &&& 0xFE) ||| (if P then 0x01 else 0x00) := by
  rw [setFlag_c_eq_mask]
  by_cases h : P <;> simp [h]

theorem compareFlags_eq_specWithCompare (p : Byte) (r m : Word) (w : Width) : compareFlags p r m w = Spec.withCompare p r m w := by
  rw [compareFlags, setZN_low, setZN_eq_specWithZN, setFlag_c_decide, low_eq_and_mask, low_eq_and_mask]; rfl

theorem withCompare_eq (s : State) (r m : Word) (w : Width) :
    s.withCompare r m w = { s with p := Spec.withCompare s.p r m w } := by
  rw [State.withCompare, compareFlags_eq_specWithCompare]

theorem compareAbsolute_eq_error {n : Nat} (h : memRead s s.dbr a (s.widthOfReg r) = .error f) :
    compareAbsolute s r a n = .error f := by
  rw [compareAbsolute, h, error_bind]

/-- Settles O24: P by `compareFlags_eq_specWithCompare`, the operand as MemRead answers it or its error. -/
theorem comparesSetCarryZeroNegative : Obligations.ComparesSetCarryZeroNegative := by
  refine ⟨fun wd a => ⟨decodesAs_encode (i := .cmpAbs a) rfl, decodesAs_encode (i := .cpxAbs a) rfl⟩,
    fun wd b1 b2 => ⟨fun h => ?cmp8, fun h => ?cmp16, fun h => ?cpx8, fun h => ?cpx16⟩,
    fun s a imm => ⟨fun m h => ?cmp, fun f h => ?cmpFails, ?cmpImm, fun m h => ?cpx, fun f h => ?cpxFails, ?cpxImm⟩⟩
  case cmp8 | cpx8 => exact decodesAs_imm8 rfl rfl h b1
  case cmp16 | cpx16 => exact decodesAs_imm16 rfl rfl h b1 b2
  case cmp =>
    rw [← widthOfReg_a_eq_wA, reads_iff] at h
    rw [exec, execCmpAbs, compareAbsolute_eq_ok.2 ⟨m, h, rfl⟩, commit_ok, withCompare_eq, widthOfReg_a_eq_wA]; rfl
  case cmpFails =>
    rw [← widthOfReg_a_eq_wA, readFails_iff] at h
    rw [exec, execCmpAbs, compareAbsolute_eq_error h, commit_error]
  case cmpImm => rw [exec, execCmpImm, compareImmediate, commit_ok, withCompare_eq, widthOfReg_a_eq_wA]; rfl
  case cpx =>
    rw [← widthOfReg_x_eq_wX, reads_iff] at h
    rw [exec, execCpxAbs, compareAbsolute_eq_ok.2 ⟨m, h, rfl⟩, commit_ok, withCompare_eq, widthOfReg_x_eq_wX, widths_x_eq_wX,
      byWidth_eq_count]
    rfl
  case cpxFails =>
    rw [← widthOfReg_x_eq_wX, readFails_iff] at h
    rw [exec, execCpxAbs, compareAbsolute_eq_error h, commit_error]
  case cpxImm =>
    rw [exec, execCpxImm, compareImmediate, commit_ok, withCompare_eq, widthOfReg_x_eq_wX, widths_x_eq_wX, byWidth_eq_count]
    rfl

end Sys2Proof.Proofs.Reads
end

section
/-! PROOFS. The instructions that write S or E from a register (40_flags_mode.md R203; 42_transfer_compare.md R232, R233) and BNE
(44_control.md R275). -/

namespace Sys2Proof.Proofs.StackPointer

open Sys2Proof.Machine Sys2Proof.Laws Sys2Proof.Proofs.SetZN Sys2Proof.Proofs.FlagMode Sys2Proof.Proofs.TransferCompare
  Sys2Proof.Proofs.Encoding Sys2Proof.Proofs.Reads

theorem joinBytes_one_eq_or : ∀ b : Byte, joinBytes 0x01 b = 0x0100 ||| zext16 b := by decide

/-- Page one in the spec's masks. -/
theorem pageOne_eq_or (v : Word) : pageOne v = 0x0100 ||| (v &&& 0x00FF) := by
  rw [pageOne, joinBytes_one_eq_or, ← low_w8, low_eq_and_mask]; rfl

/-- Page one keeps the low byte of the word alone. -/
theorem pageOne_low (v : Word) (w : Width) : pageOne (low v w) = pageOne v := by
  cases w with
  | w8 => rw [pageOne, low_w8, loByte_zext16, pageOne]
  | w16 => rfl

/-- Settles O11: C takes E by the spec's mask, and S moves by `pageOne_eq_or`. -/
theorem xceExchangesCarryAndEmulation : Obligations.XceExchangesCarryAndEmulation := by
  refine ⟨fun wd => decodesAs_encode (i := .xce) rfl, fun s => ?_⟩
  rw [exec, execXce, commit_ok, setFlag_c_eq_mask, pageOne_eq_or]; rfl

/-- Settles O21: page one by `pageOne_eq_or`; masking X first changes neither its low byte nor its Z and N. -/
theorem tcsAndTxsWriteStackPointer : Obligations.TcsAndTxsWriteStackPointer := by
  refine ⟨fun wd => ⟨decodesAs_encode (i := .tcs) rfl, decodesAs_encode (i := .txs) rfl⟩, fun s => ⟨?tcs, ?txs⟩⟩
  case tcs => rw [exec, execTcs, commit_ok, pageOne_eq_or]; rfl
  case txs =>
    simp only [exec, execTxs, commit_ok, State.withZN, setZN_low, pageOne_low]
    rw [setZN_eq_specWithZN, pageOne_eq_or, low_eq_and_mask, widths_x_eq_wX]; rfl

/-- A signed displacement is added as an integer, modulo 2^16. -/
theorem add_sext16 (pc : Word) (rel : Byte) : pc + sext16 rel = BitVec.ofInt 16 (pc.toNat + rel.toInt) := by
  rw [BitVec.ofInt_add, BitVec.ofInt_natCast, BitVec.ofNat_toNat, BitVec.setWidth_eq]; rfl

/-- Settles O34: Z is bit 1 of P, and the displacement by `add_sext16`. -/
theorem bneBranchesWhenZeroClear : Obligations.BneBranchesWhenZeroClear := by
  refine ⟨fun wd rel => decodesAs_encode (i := .bne rel) rfl, fun s rel => ⟨fun hz => ?taken, fun hz => ?notTaken⟩⟩
  case taken =>
    have hclear : getFlag s.p .z = false := by
      by_contra h
      exact (getFlag_iff_and_mask_ne_zero s.p .z).1 (by simpa using h) hz
    simp only [exec, execBne, commit_ok, hclear, Bool.not_false, if_true, add_sext16, State.ret]
  case notTaken =>
    have hset : getFlag s.p .z = true := (getFlag_iff_and_mask_ne_zero s.p .z).2 hz
    simp [exec, execBne, hset, State.ret]

end Sys2Proof.Proofs.StackPointer
end

section
/-! PROOFS. The memory bus (20_memory.md sections 1, 4 to 6): what a read finds at each address, what a write does there, and the
frame of a write. -/

namespace Sys2Proof.Proofs.Bus

open Sys2Proof.Machine Sys2Proof.Laws Sys2Proof.Proofs.RegisterStores

variable {s t : State} {addr : Word} {v : Byte}

/-! ### Which addresses hold a system register (R46, R47) -/

theorem sysRegAt_of_decodeAddr {r : SysReg} (h : decodeAddr addr = .sys r) : sysRegAt addr.toNat = some r := by
  unfold decodeAddr at h
  split_ifs at h
  split at h
  · cases h
  · split at h
    · rename_i r' hr
      rw [hr, BusTarget.sys.inj h]
    · cases h

theorem eq_channelAddress_of_decodeAddr {n k : Fin 7} (h : decodeAddr addr = .sys (.dma n k)) :
    addr = Spec.channelAddress n.val k.val := by
  have hr := sysRegAt_of_decodeAddr h
  unfold sysRegAt at hr
  split_ifs at hr <;> simp only [Option.some.injEq, SysReg.dma.injEq, reduceCtorEq] at hr
  obtain ⟨rfl, rfl⟩ := hr
  apply BitVec.eq_of_toNat_eq
  rw [toNat_channelAddress]
  dsimp only
  omega

theorem eq_mdmaen_of_decodeAddr (h : decodeAddr addr = .sys .mdmaen) : addr = 0x420B := by
  have hr := sysRegAt_of_decodeAddr h
  unfold sysRegAt at hr
  split_ifs at hr <;> simp only [Option.some.injEq, reduceCtorEq] at hr
  rename_i heq
  exact BitVec.eq_of_toNat_eq heq

/-- An address the spec calls unmapped holds nothing (R72). -/
theorem decodeAddr_of_unmappedAddress (h : Spec.unmappedAddress addr) : decodeAddr addr = .unmapped := by
  obtain ⟨hlo, hhi, hlist, htrigger, hchannel⟩ := h
  simp only [Spec.placeholderAddresses, List.mem_cons, List.not_mem_nil, or_false, not_or] at hlist
  refine decodeAddr_eq_unmapped hlo (by omega) (ppuRegAt_eq_none ?_) (sysRegAt_eq_none ?_ ?_)
  · simp only [List.mem_cons, List.not_mem_nil, or_false, not_or]
    omega
  · simp only [List.mem_cons, List.not_mem_nil, or_false, not_or]
    omega
  · rintro ⟨h1, h2, h3⟩
    refine hchannel ⟨(addr.toNat - 0x4300) / 16, by omega⟩ ⟨addr.toNat % 16, h3⟩ (BitVec.eq_of_toNat_eq ?_)
    rw [toNat_channelAddress]
    dsimp only
    omega

/-! ### Reads -/

/-- In the ROM window the byte of the image at the offset of R101 is read, if the image has one. -/
theorem busRead_rom (bank : Byte) (h : 0x8000 ≤ addr.toNat) :
    (romOffset s bank addr < s.rom.length → busRead s bank addr = .ok (Cells.read s.rom.bytes (romOffset s bank addr))) ∧
    (s.rom.length ≤ romOffset s bank addr → busRead s bank addr = .error (.unmappedAccess (bank ++ addr))) := by
  refine ⟨fun hoff => ?_, fun hoff => ?_⟩
  · simp only [busRead, decodeAddr_rom.2 h, Rom.read, if_pos hoff]
  · simp only [busRead, decodeAddr_rom.2 h, Rom.read, if_neg (Nat.not_lt.2 hoff), raise]

/-- Settles O37: work RAM and unmapped addresses by the decoder; in the ROM window the offset of R101 is inside the image or not. -/
theorem busReadFollowsTheAddressMap : Obligations.BusReadFollowsTheAddressMap := by
  refine fun s bank addr => ⟨busRead_wram bank, fun h => ?window, fun h => ?unmapped⟩
  case window =>
    rw [← romOffset_eq s bank h]
    exact busRead_rom bank h
  case unmapped => rw [busRead, decodeAddr_of_unmappedAddress h]; rfl

/-- The target is a register that reads as the open-bus placeholder (R89). -/
def readsPlaceholder : BusTarget → Bool
  | .ppu _ | .sys .nmitimen | .sys .hdmaen | .sys .memsel => true
  | .wram | .rom | .sys .mdmaen | .sys (.dma _ _) | .unmapped => false

theorem busRead_of_readsPlaceholder (bank : Byte) (h : readsPlaceholder (decodeAddr addr) = true) :
    busRead s bank addr = .ok s.config.openBusPlaceholder := by
  unfold busRead
  cases ht : decodeAddr addr with
  | ppu r => rfl
  | sys r =>
    rw [ht] at h
    cases r with
    | nmitimen | hdmaen | memsel => rfl
    | mdmaen | dma => cases h
  | wram | rom | unmapped =>
    rw [ht] at h
    cases h

theorem readsPlaceholder_placeholderAddresses :
    ∀ addr ∈ Spec.placeholderAddresses, readsPlaceholder (decodeAddr (BitVec.ofNat 16 addr)) = true := by decide

/-- A DMA channel byte reads as stored, in every bank (R90). -/
theorem busRead_channel (s : State) (bank : Byte) (n k : Fin 7) :
    busRead s bank (Spec.channelAddress n.val k.val) = .ok (s.dma[n].getByte k) :=
  busRead_sys (decodeAddr_channelAddress n k) bank

/-- Settles O38: each register address decodes to its register, which reads as the placeholder or as stored. -/
theorem registerReadsGivePlaceholderOrStoredByte : Obligations.RegisterReadsGivePlaceholderOrStoredByte := by
  intro s bank
  refine ⟨fun addr h => busRead_of_readsPlaceholder bank (readsPlaceholder_placeholderAddresses addr h),
    busRead_sys (r := .mdmaen) (by decide) bank, fun n => ?_⟩
  have byte := busRead_channel s bank n
  exact ⟨byte 0, byte 1, byte 2, byte 3, byte 4, byte 5, byte 6⟩

/-! ### Writes -/

/-- Settles O39: a write to work RAM is read back by `read_write`; the decoder refuses the two other ranges. -/
theorem busWriteFollowsTheAddressMap : Obligations.BusWriteFollowsTheAddressMap := by
  refine fun s addr v => ⟨fun h => ⟨_, busWrite_wram v h, rfl, fun bank b hb => ?readBack⟩, ?refused⟩
  case readBack =>
    rw [busRead_wram bank hb, busRead_wram bank hb, read_write]
    simp only [BitVec.toNat_inj]
    split <;> rfl
  case refused =>
    rintro (h | h)
    · rw [busWrite, decodeAddr_rom.2 h]; rfl
    · rw [busWrite, decodeAddr_of_unmappedAddress h]; rfl

/-- What a bus write leaves of the DMA channels: every byte but the one it is addressed to, unless it starts a transfer that writes
channels back. -/
theorem getByte_of_busWrite (h : busWrite s addr v = .ok t) (hw : s.config.dmaWriteback = false ∨ addr ≠ 0x420B) {n k : Fin 7}
    (hne : Spec.channelAddress n.val k.val ≠ addr) : t.dma[n].getByte k = s.dma[n].getByte k := by
  unfold busWrite at h
  split at h
  case h_1 => cases h; rfl
  case h_2 =>
    obtain ⟨ppu, _, h⟩ := bind_eq_ok.1 h
    cases h; rfl
  case h_3 r hr =>
    cases r <;> simp only [sysWrite] at h
    case nmitimen | memsel => cases h; rfl
    case mdmaen =>
      obtain ⟨_, hdma, _⟩ := dmaTrigger_spec h
      rw [hdma (hw.resolve_right (not_not_intro (eq_mdmaen_of_decodeAddr hr)))]
    case hdmaen =>
      split at h
      · cases h; rfl
      · cases h
    case dma m j =>
      cases h
      refine getByte_set_of_ne s.dma (fun heq => hne ?_) v
      obtain ⟨rfl, rfl⟩ := Prod.mk.inj heq
      exact (eq_channelAddress_of_decodeAddr hr).symm
  case h_4 | h_5 => cases h

/-- Two states answer a bus read alike when the one byte of work RAM or of a channel that it looks at is the same. -/
theorem busRead_congr_at (hr : t.rom = s.rom) (hc : t.config = s.config)
    (hw : Cells.read t.wram addr.toNat = Cells.read s.wram addr.toNat)
    (hd : ∀ n k : Fin 7, addr = Spec.channelAddress n.val k.val → t.dma[n].getByte k = s.dma[n].getByte k) (bank : Byte) :
    busRead t bank addr = busRead s bank addr := by
  unfold busRead
  split
  case h_1 => rw [hw]
  case h_2 => rw [romOffset_congr hc, hr]
  case h_3 => rw [hc]
  case h_4 r hr =>
    cases r with
    | dma n k => simp only [sysRead, hd n k (eq_channelAddress_of_decodeAddr hr)]
    | _ => simp only [sysRead, hc]
  case h_5 => rfl

/-- What a bus write leaves of work RAM: every byte but the one it is addressed to. -/
theorem read_wram_of_busWrite (h : busWrite s addr v = .ok t) {b : Nat} (hb : b ≠ addr.toNat) :
    Cells.read t.wram b = Cells.read s.wram b := by
  obtain ⟨_, hw, _⟩ := busWrite_spec h
  rw [hw]
  split
  · exact read_write_other _ _ hb
  · rfl

theorem rom_config_of_busOnly (h : BusOnly s t) : t.rom = s.rom ∧ t.config = s.config := by
  unfold BusOnly at h
  rw [h]
  exact ⟨rfl, rfl⟩

/-- A bus write leaves every other address reading as before, unless it starts a transfer that writes channels back. -/
theorem busRead_of_busWrite (h : busWrite s addr v = .ok t) (hw : s.config.dmaWriteback = false ∨ addr ≠ 0x420B) (bank : Byte)
    {b : Word} (hb : b ≠ addr) : busRead t bank b = busRead s bank b := by
  obtain ⟨hrom, hconfig⟩ := rom_config_of_busOnly (busWrite_by h).only
  refine busRead_congr_at hrom hconfig (read_wram_of_busWrite h (fun he => hb (BitVec.eq_of_toNat_eq he))) ?_ bank
  exact fun n k hbk => getByte_of_busWrite h hw (hbk ▸ hb)

/-- Settles O40: what lies off the bus by `busWrite_by`, the other addresses by `busRead_of_busWrite`. -/
theorem busWriteLeavesOtherAddresses : Obligations.BusWriteLeavesOtherAddresses :=
  fun _ _ _ _ h => ⟨(busWrite_by h).only, fun hw bank _ hb => busRead_of_busWrite h hw bank hb⟩

/-! ### The data ports (R94, R96) and HDMAEN (R98) -/

theorem remap_eq_zero_iff : ∀ vmain : Byte, vmain.extractLsb' 2 2 = 0 ↔ vmain &&& 0x0C = 0 := by decide

theorem vramTrigger_eq : ∀ vmain : Byte, vramTrigger vmain = !decide (vmain &&& 0x80 = 0) := by decide

theorem vramIncrement_eq_vramStep : ∀ vmain : Byte, vramIncrement vmain = Spec.vramStep vmain := by decide

theorem add_eq_ofNat (a b : Word) : a + b = BitVec.ofNat 16 (a.toNat + b.toNat) := by
  apply BitVec.eq_of_toNat_eq
  rw [BitVec.toNat_add, BitVec.toNat_ofNat]

theorem busWrite_ppu_error {r : PpuReg} {f : Fault} (ha : decodeAddr addr = .ppu r) (hw : ppuWrite s.ppu r v = .error f) :
    busWrite s addr v = .error f := by
  simp only [busWrite, ha, hw, error_bind]

theorem vramDataWrite_eq_error {ppu : Ppu} (h : ppu.vmain &&& 0x0C ≠ 0) (high : Bool) :
    vramDataWrite ppu high v = .error (.unsupportedRemap ppu.vmain) := by
  rw [vramDataWrite, if_pos (mt (remap_eq_zero_iff _).1 h), raise]

/-- The word at VADDR after one of its halves is written (R94). -/
def halfWritten (ppu : Ppu) (high : Bool) (v : Byte) : Word :=
  let word := Cells.read ppu.vram ppu.vaddr.toNat
  if high then joinBytes v (loByte word) else joinBytes (hiByte word) v

theorem vramDataWrite_eq_ok {ppu : Ppu} (h : ppu.vmain &&& 0x0C = 0) (high : Bool) :
    vramDataWrite ppu high v = .ok { ppu with
      vram := Cells.write ppu.vram ppu.vaddr.toNat (halfWritten ppu high v)
      vaddr := if vramTrigger ppu.vmain = high then
          BitVec.ofNat 16 (ppu.vaddr.toNat + (Spec.vramStep ppu.vmain).toNat) else ppu.vaddr } := by
  rw [vramDataWrite, if_neg (not_not_intro ((remap_eq_zero_iff _).2 h)), ← add_eq_ofNat, ← vramIncrement_eq_vramStep]
  rfl

/-- Settles O43: both ports are `vramDataWrite`, one for each half of the word. -/
theorem vramDataPortsWriteHalfAndAdvance : Obligations.VramDataPortsWriteHalfAndAdvance := by
  intro s v
  have hlow : decodeAddr 0x2118 = .ppu .vmdatal := by decide
  have hhigh : decodeAddr 0x2119 = .ppu .vmdatah := by decide
  refine ⟨fun h => ⟨?lowFails, ?highFails⟩, fun h => ⟨?low, ?high⟩⟩
  case lowFails => exact busWrite_ppu_error hlow (vramDataWrite_eq_error h false)
  case highFails => exact busWrite_ppu_error hhigh (vramDataWrite_eq_error h true)
  case low =>
    refine ⟨_, busWrite_ppu hlow (vramDataWrite_eq_ok h false), ?_, fun i => read_write _ _ _ i⟩
    simp only [vramTrigger_eq, Bool.not_eq_false', decide_eq_true_eq]
  case high =>
    refine ⟨_, busWrite_ppu hhigh (vramDataWrite_eq_ok h true), ?_, fun i => read_write _ _ _ i⟩
    simp only [vramTrigger_eq, Bool.not_eq_true', decide_eq_false_iff_not, ite_not]

/-- Settles O44: the port's own write, read back by `read_write`. -/
theorem paletteDataPortStoresAndAdvances : Obligations.PaletteDataPortStoresAndAdvances := by
  intro s v
  refine ⟨_, busWrite_ppu (r := .cgdata) (by decide) rfl, ?_, fun i => read_write _ _ _ i⟩
  have hidx : s.ppu.cgidx + 1 = BitVec.ofNat 10 ((s.ppu.cgidx.toNat + 1) % 1024) := by
    apply BitVec.eq_of_toNat_eq
    rw [BitVec.toNat_add, BitVec.toNat_ofNat, Nat.mod_mod]
    rfl
  rw [hidx]

/-- Settles O45: the two branches of the register's write. -/
theorem hdmaEnableAcceptsZeroOnly : Obligations.HdmaEnableAcceptsZeroOnly := by
  intro s v
  have ha : decodeAddr 0x420C = .sys .hdmaen := by decide
  refine ⟨fun h => ?zero, fun h => ?other⟩
  case zero => rw [busWrite_sys ha, sysWrite, if_pos h]
  case other => rw [busWrite_sys ha, sysWrite, if_neg h, raise]

end Sys2Proof.Proofs.Bus
end

section
/-! PROOFS. The storing instructions (41_load_store.md R215 to R221), all seven by one equation: the store of a value at the spec's
address and width (20_memory.md R75), then P and the cycle count. -/

namespace Sys2Proof.Proofs.Stores

open Sys2Proof.Machine Sys2Proof.Laws Sys2Proof.Proofs.SetZN Sys2Proof.Proofs.TransferCompare Sys2Proof.Proofs.Encoding
  Sys2Proof.Proofs.Reads Sys2Proof.Proofs.Bus

variable {i : Instr} {s t u : State} {w : Width} {ea v : Word} {f : Fault}

/-! ### The cycle count (R351) -/

/-- The cycle count of an instruction that completes, from the widths, the penalty of the low byte of D, Z and E (R351, R352); STP
never completes. -/
def cycleCount (i : Instr) (wd : Widths) (penalty : Nat) (z e : Bool) : Nat :=
  match i with
  | .clc | .sei | .cli | .xce => 2
  | .rep _ | .sep _ => 3
  | .ldaImm _ => byWidth wd.a 2 3
  | .ldxImm _ | .ldyImm _ => byWidth wd.x 2 3
  | .ldaAbs _ => byWidth wd.a 4 5
  | .ldxAbs _ => byWidth wd.x 4 5
  | .staAbs _ => byWidth wd.a 4 5
  | .stxAbs _ | .styAbs _ => byWidth wd.x 4 5
  | .staDp _ => byWidth wd.a 3 4 + penalty
  | .stxDp _ => byWidth wd.x 3 4 + penalty
  | .stzAbs _ | .stzDpX _ => byWidth wd.x 4 5
  | .tcd | .tcs | .txs | .inx | .dex | .ina => 2
  | .xba => 3
  | .cmpAbs _ | .cmpImm _ => 4
  | .cpxAbs _ | .cpxImm _ => byWidth wd.x 2 3
  | .pha => byWidth wd.a 3 4
  | .phx => byWidth wd.x 3 4
  | .php | .phk => 3
  | .pla => byWidth wd.a 4 5
  | .plx => byWidth wd.x 4 5
  | .pld => 5
  | .plb | .plp => 4
  | .jsr _ | .rts | .rtl => 6
  | .jsl _ _ => 8
  | .jmp _ => 3
  | .bne _ => 2 + (if !z then 1 else 0) + (if e then 1 else 0)
  | .stp => 0

/-- The cycle count of an instruction that completes from `s`. -/
def cyclesOf (i : Instr) (s : State) : Nat :=
  cycleCount i s.widths (directPagePenalty s) (getFlag s.p .z) s.e

/-! ### MemWrite (R75) -/

theorem writes_iff : Spec.Writes s ea w v t ↔ memWrite s ea w v = .ok t := by
  cases w with
  | w8 => rfl
  | w16 => exact bind_eq_ok.symm

theorem writeFails_iff : Spec.WriteFails s ea w v f ↔ memWrite s ea w v = .error f := by
  cases w with
  | w8 => simp [Spec.WriteFails, memWrite, loByte]
  | w16 => simp [Spec.WriteFails, memWrite, bind_eq_error, loByte, hiByte]

/-- A store whose bytes lie in work RAM writes them and nothing else. -/
theorem memWrite_wram (v : Word) (hlo : ea.toNat < 0x2000) (hhi : w = .w16 → ea.toNat + 1 < 0x2000) :
    ∃ m, memWrite s ea w v = .ok { s with wram := m } ∧ Cells.read m ea.toNat = loByte v ∧
      (w = .w16 → Cells.read m (ea.toNat + 1) = hiByte v) := by
  cases w with
  | w8 => exact ⟨_, busWrite_wram _ hlo, read_write_same _ _ _, fun h => by cases h⟩
  | w16 =>
    have hfit := hhi rfl
    have hnext : (ea + 1).toNat = ea.toNat + 1 := by bv_omega
    refine ⟨Cells.write (Cells.write s.wram ea.toNat (loByte v)) (ea.toNat + 1) (hiByte v), ?_, ?_, fun _ => read_write_same _ _ _⟩
    · rw [memWrite, busWrite_wram _ hlo, ok_bind, busWrite_wram _ (by rw [hnext]; exact hfit), hnext]
    · rw [read_write_other _ _ (by omega), read_write_same]

/-- A store leaves every other address reading as before, unless it starts a transfer that writes channels back. -/
theorem busRead_of_memWrite (h : memWrite s ea w v = .ok t)
    (hw : s.config.dmaWriteback = false ∨ (ea ≠ 0x420B ∧ (w = .w16 → ea + 1 ≠ 0x420B))) (bank : Byte) {b : Word} (hb : b ≠ ea)
    (hb' : w = .w16 → b ≠ ea + 1) : busRead t bank b = busRead s bank b := by
  cases w with
  | w8 => exact busRead_of_busWrite h (hw.imp_right And.left) bank hb
  | w16 =>
    obtain ⟨u, hu, ht⟩ := bind_eq_ok.1 h
    have hconfig := (rom_config_of_busOnly (busWrite_by hu).only).2
    rw [busRead_of_busWrite ht (by rw [hconfig]; exact hw.imp_right fun h => h.2 rfl) bank (hb' rfl),
      busRead_of_busWrite hu (hw.imp_right And.left) bank hb]

/-! ### What a storing instruction does -/

/-- The value a storing instruction stores: its register, and 0 for STZ. -/
def storedValue (i : Instr) (s : State) : Word :=
  match i with
  | .staAbs _ | .staDp _ => s.a
  | .stxAbs _ | .stxDp _ => s.x
  | .styAbs _ => s.y
  | _ => 0

/-- P after a store of width `w`: Z and N of the stored value for the instructions that write them, else kept. -/
def storeStatus (i : Instr) (s : State) (w : Width) : Byte :=
  if Spec.writesZN s.config i then setZN s.p (storedValue i s) w else s.p

theorem storeRegister_eq (s : State) (r : DataReg) (ea : Word) (n : Nat) :
    storeRegister s r ea n = memWrite s ea (s.widthOfReg r) (s.get r) >>= fun u =>
      .ok { u with p := if s.config.storeSetsZn then setZN s.p (s.get r) (s.widthOfReg r) else s.p, cycles := n } := by
  cases hm : memWrite s ea (s.widthOfReg r) (s.get r) with
  | ok u => exact storeRegister_eq_ok.2 ⟨u, hm, rfl⟩
  | error f => exact storeRegister_eq_error.2 hm

theorem storeZero_eq (s : State) (ea : Word) :
    storeZero s ea = memWrite s ea s.widths.a 0 >>= fun u => .ok { u with p := s.p, cycles := byWidth s.widths.x 4 5 } := by
  cases hm : memWrite s ea s.widths.a 0 with
  | ok u => rw [storeZero, hm, ok_bind, ok_bind, ← (memWrite_keeps hm).1]; rfl
  | error f => rw [storeZero, hm, error_bind, error_bind]

/-- A storing instruction stores its value at the spec's address and width, then sets P and the cycle count. -/
theorem exec_store (h : Spec.storeTarget i s = some (w, ea)) :
    exec i s = commit (memWrite s ea w (storedValue i s) >>= fun u =>
      .ok { u with p := storeStatus i s w, cycles := cyclesOf i s }) := by
  cases i <;> simp only [Spec.storeTarget, Option.some.injEq, Prod.mk.injEq, reduceCtorEq] at h
  case staAbs | staDp =>
    obtain ⟨rfl, rfl⟩ := h
    rw [← widthOfReg_a_eq_wA]
    exact congrArg commit (storeRegister_eq s .a _ _)
  case stxAbs | stxDp =>
    obtain ⟨rfl, rfl⟩ := h
    rw [← widthOfReg_x_eq_wX]
    exact congrArg commit (storeRegister_eq s .x _ _)
  case styAbs =>
    obtain ⟨rfl, rfl⟩ := h
    rw [← widthOfReg_y_eq_wX]
    exact congrArg commit (storeRegister_eq s .y _ _)
  case stzAbs | stzDpX =>
    obtain ⟨rfl, rfl⟩ := h
    rw [← widths_a_eq_wA]
    exact congrArg commit (storeZero_eq s _)

theorem exec_store_eq_next (h : Spec.storeTarget i s = some (w, ea)) :
    exec i s = .next t ↔ ∃ u, memWrite s ea w (storedValue i s) = .ok u ∧
      t = { u with p := storeStatus i s w, cycles := cyclesOf i s } := by
  rw [exec_store h, commit_eq_next, bind_eq_ok]
  simp only [Except.ok.injEq, @eq_comm _ _ t]

theorem exec_store_of_writes (h : Spec.storeTarget i s = some (w, ea)) (hw : Spec.Writes s ea w (storedValue i s) t) :
    exec i s = .next { t with p := storeStatus i s w, cycles := cyclesOf i s } :=
  (exec_store_eq_next h).2 ⟨t, writes_iff.1 hw, rfl⟩

theorem exec_store_of_writeFails (h : Spec.storeTarget i s = some (w, ea)) (hw : Spec.WriteFails s ea w (storedValue i s) f) :
    exec i s = .fault f := by
  rw [exec_store h, writeFails_iff.1 hw, error_bind, commit_error]

/-! ### Addresses and counts in the spec's terms -/

theorem directPage_eq_ofNat (s : State) (dp : Byte) : directPage s dp = BitVec.ofNat 16 (s.d.toNat + dp.toNat) := by
  rw [directPage, add_eq_ofNat, toNat_zext16]

theorem directPageX_eq_ofNat (s : State) (dp : Byte) :
    directPageX s dp = BitVec.ofNat 16 (s.d.toNat + dp.toNat + (Spec.lowBits s.x (Spec.wX s)).toNat) := by
  rw [directPageX, BitVec.ofNat_add, BitVec.ofNat_toNat, BitVec.setWidth_eq, ← directPage_eq_ofNat, directPage,
    low_eq_and_mask, widths_x_eq_wX]
  rfl

theorem loByte_eq_zero_iff (v : Word) : loByte v = 0 ↔ v &&& 0x00FF = 0 := by
  have hlow : v &&& 0x00FF = zext16 (loByte v) := (low_eq_and_mask v .w8).symm
  rw [hlow, ← BitVec.toNat_inj, ← BitVec.toNat_inj, toNat_zext16]
  rfl

theorem directPagePenalty_eq (s : State) : directPagePenalty s = if s.d &&& 0x00FF = 0 then 0 else 1 := by
  simp only [directPagePenalty, loByte_eq_zero_iff]

theorem storeStatus_eq (i : Instr) (s : State) (w : Width) :
    storeStatus i s w = if Spec.writesZN s.config i then Spec.withZN s.p (storedValue i s) w else s.p := by
  rw [storeStatus, setZN_eq_specWithZN]

section
variable (s : State) (a : Word) (dp : Byte)

theorem cyclesOf_staAbs : cyclesOf (.staAbs a) s = Spec.count (Spec.wA s) 4 5 := by
  rw [← byWidth_eq_count, ← widths_a_eq_wA]; rfl

theorem cyclesOf_stxAbs : cyclesOf (.stxAbs a) s = Spec.count (Spec.wX s) 4 5 := by
  rw [← byWidth_eq_count, ← widths_x_eq_wX]; rfl

theorem cyclesOf_styAbs : cyclesOf (.styAbs a) s = Spec.count (Spec.wX s) 4 5 := cyclesOf_stxAbs s a

theorem cyclesOf_stzAbs : cyclesOf (.stzAbs a) s = Spec.count (Spec.wX s) 4 5 := cyclesOf_stxAbs s a

theorem cyclesOf_stzDpX : cyclesOf (.stzDpX dp) s = Spec.count (Spec.wX s) 4 5 := cyclesOf_stxAbs s 0

theorem cyclesOf_staDp : cyclesOf (.staDp dp) s = Spec.count (Spec.wA s) 3 4 + (if s.d &&& 0x00FF = 0 then 0 else 1) := by
  rw [← byWidth_eq_count, ← widths_a_eq_wA, ← directPagePenalty_eq]; rfl

theorem cyclesOf_stxDp : cyclesOf (.stxDp dp) s = Spec.count (Spec.wX s) 3 4 + (if s.d &&& 0x00FF = 0 then 0 else 1) := by
  rw [← byWidth_eq_count, ← widths_x_eq_wX, ← directPagePenalty_eq]; rfl

end

/-! ### The obligations -/

/-- Settles O15: the store equation at STA absolute. -/
theorem staAbsoluteStoresAccumulator : Obligations.StaAbsoluteStoresAccumulator := by
  refine ⟨fun wd a => decodesAs_encode (i := .staAbs a) rfl, fun s a => ⟨fun t h => ?sta, fun f h => ?staFails⟩⟩
  case sta =>
    rw [← cyclesOf_staAbs s a, exec_store_of_writes (i := .staAbs a) rfl h, storeStatus_eq]; rfl
  case staFails => exact exec_store_of_writeFails (i := .staAbs a) rfl h

/-- Settles O16: the store equation at the four forms, the direct page by `directPage_eq_ofNat`. -/
theorem indexAndDirectPageStores : Obligations.IndexAndDirectPageStores := by
  refine ⟨fun wd a => ⟨decodesAs_encode (i := .stxAbs a) rfl, decodesAs_encode (i := .styAbs a) rfl⟩,
    fun wd dp => ⟨decodesAs_encode (i := .staDp dp) rfl, decodesAs_encode (i := .stxDp dp) rfl⟩, fun s a dp => ?_⟩
  rw [← directPage_eq_ofNat]
  refine ⟨fun t h => ?stx, fun f h => ?stxFails, fun t h => ?sty, fun f h => ?styFails, fun t h => ?staDp, fun f h => ?staDpFails,
    fun t h => ?stxDp, fun f h => ?stxDpFails⟩
  case stx => rw [← cyclesOf_stxAbs s a, exec_store_of_writes (i := .stxAbs a) rfl h, storeStatus_eq]; rfl
  case sty => rw [← cyclesOf_styAbs s a, exec_store_of_writes (i := .styAbs a) rfl h, storeStatus_eq]; rfl
  case staDp => rw [← cyclesOf_staDp s dp, exec_store_of_writes (i := .staDp dp) rfl h, storeStatus_eq]; rfl
  case stxDp => rw [← cyclesOf_stxDp s dp, exec_store_of_writes (i := .stxDp dp) rfl h, storeStatus_eq]; rfl
  case stxFails => exact exec_store_of_writeFails (i := .stxAbs a) rfl h
  case styFails => exact exec_store_of_writeFails (i := .styAbs a) rfl h
  case staDpFails => exact exec_store_of_writeFails (i := .staDp dp) rfl h
  case stxDpFails => exact exec_store_of_writeFails (i := .stxDp dp) rfl h

/-- STZ keeps P, and so does everything behind the bus. -/
theorem exec_stz (h : Spec.storeTarget i s = some (w, ea)) (hzn : Spec.writesZN s.config i = false)
    (hw : Spec.Writes s ea w (storedValue i s) t) : exec i s = .next { t with cycles := cyclesOf i s } := by
  rw [exec_store_of_writes h hw, storeStatus, hzn, if_neg Bool.false_ne_true, ← (memWrite_keeps (writes_iff.1 hw)).1]

/-- Settles O17: the store equation at the two forms, the indexed direct page by `directPageX_eq_ofNat`. -/
theorem stzStoresZeroByAccumulatorWidth : Obligations.StzStoresZeroByAccumulatorWidth := by
  refine ⟨fun wd a => decodesAs_encode (i := .stzAbs a) rfl, fun wd dp => decodesAs_encode (i := .stzDpX dp) rfl,
    fun s a dp => ?_⟩
  rw [← directPageX_eq_ofNat]
  refine ⟨fun t h => ?abs, fun f h => ?absFails, fun t h => ?dpX, fun f h => ?dpXFails⟩
  case abs => rw [← cyclesOf_stzAbs s a]; exact exec_stz (i := .stzAbs a) rfl rfl h
  case dpX => rw [← cyclesOf_stzDpX s dp]; exact exec_stz (i := .stzDpX dp) rfl rfl h
  case absFails => exact exec_store_of_writeFails (i := .stzAbs a) rfl h
  case dpXFails => exact exec_store_of_writeFails (i := .stzDpX dp) rfl h

theorem getFlag_setZN_of_ne {fl : Flag} (hz : fl ≠ .z) (hn : fl ≠ .n) (p : Byte) (v : Word) (w : Width) :
    getFlag (setZN p v w) fl = getFlag p fl := by
  rw [getFlag_setZN]
  cases fl with
  | z => exact absurd rfl hz
  | n => exact absurd rfl hn
  | _ => rfl

/-- A store keeps the flags but Z and N. -/
theorem getFlag_storeStatus {fl : Flag} (hz : fl ≠ .z) (hn : fl ≠ .n) (i : Instr) (s : State) (w : Width) :
    getFlag (storeStatus i s w) fl = getFlag s.p fl := by
  unfold storeStatus
  split
  · exact getFlag_setZN_of_ne hz hn _ _ _
  · rfl

/-- Settles O18: `memWrite_wram` completes the store, and its frame is that of MemWrite. -/
theorem storesToWorkRamComplete : Obligations.StoresToWorkRamComplete := by
  intro i s w ea htarget hlo hhi
  obtain ⟨m, hm, hreadLo, hreadHi⟩ := memWrite_wram (storedValue i s) hlo hhi
  refine ⟨_, (exec_store_eq_next htarget).2 ⟨_, hm, rfl⟩, rfl, fun fl hz hn => getFlag_storeStatus hz hn i s w, storedValue i s, ?_⟩
  refine ⟨?staAbs, ?stxAbs, ?styAbs, ?staDp, ?stxDp, ?stzAbs, ?stzDpX, hreadLo, hreadHi, fun b hb hb' => ?frame⟩
  case staAbs | stxAbs | styAbs => rintro a rfl; rfl
  case staDp | stxDp => rintro dp rfl; rfl
  case stzAbs | stzDpX => rintro x rfl; exact ⟨rfl, rfl⟩
  case frame =>
    refine memWrite_wram_frame hm hb fun hw => ?_
    have hnext : (ea + 1).toNat = ea.toNat + 1 := by have := hhi hw; bv_omega
    rw [hnext]
    exact hb' hw

/-- Settles O19: the frame of MemWrite at the store's address and width. -/
theorem storesLeaveEverythingElse : Obligations.StoresLeaveEverythingElse := by
  intro i s t w ea htarget h
  obtain ⟨u, hu, rfl⟩ := (exec_store_eq_next htarget).1 h
  have honly : BusOnly s u := (memWrite_by hu).only
  refine ⟨?registers, fun fl hz hn => getFlag_storeStatus hz hn i s w, fun b hb hb' => memWrite_wram_frame hu hb hb',
    fun hw bank b hb hb' => ?reads⟩
  case registers =>
    unfold BusOnly at honly
    rw [honly]
  case reads => exact (busRead_congr rfl rfl rfl rfl bank b).trans (busRead_of_memWrite hu hw bank hb hb')

end Sys2Proof.Proofs.Stores
end

section
/-! PROOFS. The stack (20_memory.md R78 to R82): pushes of a list of bytes, pulls, and the instructions that push, pull, call and
return (43_stack.md; 44_control.md R270 to R273). -/

namespace Sys2Proof.Proofs.Stack

open Sys2Proof.Machine Sys2Proof.Laws Sys2Proof.Proofs.SetZN Sys2Proof.Proofs.FlagMode Sys2Proof.Proofs.TransferCompare
  Sys2Proof.Proofs.Encoding Sys2Proof.Proofs.Reads Sys2Proof.Proofs.StackPointer Sys2Proof.Proofs.Bus Sys2Proof.Proofs.Stores

variable {i : Instr} {s t u : State} {w : Width} {v : Word} {b : Byte} {bytes : List Byte} {f : Fault}

/-! ### S after a push and a pull (R78, R79) -/

theorem spDown_eq_down (e : Bool) (sp : Word) : spDown e sp = Spec.down e sp := by rw [spDown, pageOne_eq_or]; rfl

theorem spUp_eq_up (e : Bool) (sp : Word) : spUp e sp = Spec.up e sp := by rw [spUp, pageOne_eq_or]; rfl

/-! ### Pushing a list of bytes -/

/-- The bytes of a list pushed one after the other with Push8. -/
def pushAll (s : State) : List Byte → Except Fault State
  | [] => .ok s
  | b :: rest => push8 s b >>= fun t => pushAll t rest

theorem pushAll_singleton (s : State) (b : Byte) : pushAll s [b] = push8 s b := by
  rw [pushAll]
  cases push8 s b <;> rfl

/-- Push16 pushes the high byte and then the low one (R80). -/
theorem pushAll_word (s : State) (v : Word) : pushAll s [hiByte v, loByte v] = push16 s v := by
  rw [pushAll, push16]
  simp only [pushAll_singleton]

theorem push8_eq_ok : push8 s b = .ok t ↔ Spec.Push8 s b t := by
  simp only [push8, bind_eq_ok, pure_eq_ok, Except.ok.injEq, Spec.Push8, @eq_comm _ _ t]
  refine exists_congr fun u => and_congr_right fun hu => ?_
  have honly := (busWrite_by hu).only
  unfold BusOnly at honly
  rw [spDown_eq_down, show u.e = s.e by rw [honly], show u.sp = s.sp by rw [honly]]

theorem push8_eq_error : push8 s b = .error f ↔ Spec.Push8Fails s b f := by
  simp [push8, bind_eq_error, Spec.Push8Fails]

theorem pushAll_cons_eq_ok : pushAll s (b :: bytes) = .ok t ↔ ∃ u, Spec.Push8 s b u ∧ pushAll u bytes = .ok t := by
  simp only [pushAll, bind_eq_ok, push8_eq_ok]

theorem pushAll_cons_eq_error :
    pushAll s (b :: bytes) = .error f ↔ Spec.Push8Fails s b f ∨ ∃ u, Spec.Push8 s b u ∧ pushAll u bytes = .error f := by
  simp only [pushAll, bind_eq_error, push8_eq_ok, push8_eq_error]

theorem pushAll_nil_eq_ok : pushAll s [] = .ok t ↔ s = t := by rw [pushAll, Except.ok.injEq]

theorem pushAll_nil_ne_error : pushAll s [] = .error f ↔ False := by rw [pushAll]; exact iff_false_intro nofun

theorem push16_eq_ok : pushAll s [hiByte v, loByte v] = .ok t ↔ Spec.Push16 s v t := by
  simp only [pushAll_cons_eq_ok, pushAll_nil_eq_ok, exists_eq_right]; rfl

theorem push16_eq_error : pushAll s [hiByte v, loByte v] = .error f ↔ Spec.Push16Fails s v f := by
  simp only [pushAll_cons_eq_error, pushAll_nil_ne_error, and_false, exists_false, or_false]; rfl

/-! ### The frame of a push -/

theorem push8_frame (h : Spec.Push8 s b t) :
    t = { s with
      sp := Spec.down s.e s.sp, wram := t.wram, ppu := t.ppu, nmitimen := t.nmitimen, hdmaen := t.hdmaen, memsel := t.memsel,
      dma := t.dma } := by
  obtain ⟨u, hu, rfl⟩ := h
  have honly := (busWrite_by hu).only
  unfold BusOnly at honly
  rw [honly]

/-- Pushing bytes moves S down once for each and writes nothing but what lies behind the bus. -/
theorem pushAll_frame (h : pushAll s bytes = .ok t) :
    t = { s with
      sp := (Spec.down s.e)^[bytes.length] s.sp, wram := t.wram, ppu := t.ppu, nmitimen := t.nmitimen, hdmaen := t.hdmaen,
      memsel := t.memsel, dma := t.dma } := by
  induction bytes generalizing s with
  | nil => cases h; rfl
  | cons b bytes ih =>
    obtain ⟨u, hu, hrest⟩ := pushAll_cons_eq_ok.1 h
    rw [ih hrest, push8_frame hu]; rfl

/-- Pushing bytes leaves every byte of work RAM outside the addresses pushed to. -/
theorem pushAll_wram_frame (h : pushAll s bytes = .ok t) {k : Nat}
    (hk : ∀ a ∈ Spec.pushAddresses s.e bytes.length s.sp, k ≠ a.toNat) : Cells.read t.wram k = Cells.read s.wram k := by
  induction bytes generalizing s with
  | nil => cases h; rfl
  | cons b bytes ih =>
    obtain ⟨u, hu, hrest⟩ := pushAll_cons_eq_ok.1 h
    rw [List.length_cons, Spec.pushAddresses, List.forall_mem_cons] at hk
    rw [ih hrest (by rw [push8_frame hu]; exact hk.2)]
    obtain ⟨x, hx, rfl⟩ := hu
    exact read_wram_of_busWrite hx hk.1

/-- Pushing bytes leaves every other address reading as before, unless one of them starts a transfer that writes channels back. -/
theorem busRead_of_pushAll (h : pushAll s bytes = .ok t)
    (hw : s.config.dmaWriteback = false ∨ 0x420B#16 ∉ Spec.pushAddresses s.e bytes.length s.sp) (bank : Byte) {a : Word}
    (ha : a ∉ Spec.pushAddresses s.e bytes.length s.sp) : busRead t bank a = busRead s bank a := by
  induction bytes generalizing s with
  | nil => cases h; rfl
  | cons b bytes ih =>
    obtain ⟨u, hu, hrest⟩ := pushAll_cons_eq_ok.1 h
    simp only [List.length_cons, Spec.pushAddresses, List.mem_cons, not_or] at ha hw
    have hlater : busRead t bank a = busRead u bank a :=
      ih hrest (by rw [push8_frame hu]; exact hw.imp_right And.right) (by rw [push8_frame hu]; exact ha.2)
    obtain ⟨x, hx, rfl⟩ := hu
    rw [hlater, busRead_congr rfl rfl rfl rfl bank a]
    exact busRead_of_busWrite hx (hw.imp_right fun h => Ne.symm h.1) bank ha.1

/-! ### Pushing to work RAM -/

/-- Bytes pushed to work RAM: the pushes complete and change S and work RAM alone. -/
theorem pushAll_wram (hram : ∀ a ∈ Spec.pushAddresses s.e bytes.length s.sp, a.toNat < 0x2000) :
    ∃ m, pushAll s bytes = .ok { s with sp := (Spec.down s.e)^[bytes.length] s.sp, wram := m } := by
  induction bytes generalizing s with
  | nil => exact ⟨_, rfl⟩
  | cons b bytes ih =>
    rw [List.length_cons, Spec.pushAddresses, List.forall_mem_cons] at hram
    obtain ⟨m, hm⟩ := ih (s := { s with wram := Cells.write s.wram s.sp.toNat b, sp := Spec.down s.e s.sp }) hram.2
    exact ⟨m, pushAll_cons_eq_ok.2 ⟨_, ⟨_, busWrite_wram b hram.1, rfl⟩, hm⟩⟩

/-- The low byte of S falls by one with each push, in both modes. -/
theorem loByte_down (e : Bool) (sp : Word) : loByte (Spec.down e sp) = loByte sp - 1 := by
  have hsub : loByte (sp - 1) = loByte sp - 1 := by
    have hword : (sp - 1).toNat = (sp.toNat + 0xFFFF) % 0x10000 := by bv_omega
    have hbyte : (loByte sp - 1).toNat = ((loByte sp).toNat + 0xFF) % 0x100 := by bv_omega
    apply BitVec.eq_of_toNat_eq
    rw [hbyte, toNat_loByte, toNat_loByte, hword]
    omega
  rw [← spDown_eq_down, spDown]
  split
  · rw [loByte_pageOne, hsub]
  · exact hsub

/-- The low bytes of the addresses that pushes write to. -/
theorem loByte_of_mem_pushAddresses {e : Bool} {n : Nat} {sp a : Word} (h : a ∈ Spec.pushAddresses e n sp) :
    ∃ k < n, loByte a = loByte sp - BitVec.ofNat 8 k := by
  induction n generalizing sp with
  | zero => cases h
  | succ n ih =>
    rw [Spec.pushAddresses, List.mem_cons] at h
    obtain rfl | h := h
    · exact ⟨0, Nat.zero_lt_succ _, by simp⟩
    · obtain ⟨k, hk, ha⟩ := ih h
      refine ⟨k + 1, Nat.succ_lt_succ hk, ?_⟩
      rw [ha, loByte_down, BitVec.ofNat_add]
      bv_omega

/-- Fewer than 256 pushes write to different addresses, whatever the mode: a push does not write over an earlier one. -/
theorem not_mem_pushAddresses_down {e : Bool} {n : Nat} (hn : n < 256) (sp : Word) :
    sp ∉ Spec.pushAddresses e n (Spec.down e sp) := by
  intro h
  obtain ⟨k, hk, heq⟩ := loByte_of_mem_pushAddresses h
  rw [loByte_down] at heq
  bv_omega

/-- The bytes pushed to work RAM stand at their addresses afterwards. -/
theorem read_of_pushAll (hn : bytes.length ≤ 256) (h : pushAll s bytes = .ok t)
    (hram : ∀ a ∈ Spec.pushAddresses s.e bytes.length s.sp, a.toNat < 0x2000) {a : Word} {v : Byte}
    (hmem : (a, v) ∈ (Spec.pushAddresses s.e bytes.length s.sp).zip bytes) : Cells.read t.wram a.toNat = v := by
  induction bytes generalizing s with
  | nil => cases List.of_mem_zip hmem |>.2
  | cons b bytes ih =>
    obtain ⟨u, hu, hrest⟩ := pushAll_cons_eq_ok.1 h
    have hframe := push8_frame hu
    rw [List.length_cons] at hn
    rw [List.length_cons, Spec.pushAddresses] at hram hmem
    rw [List.forall_mem_cons] at hram
    rw [List.zip_cons_cons, List.mem_cons] at hmem
    obtain heq | hmem := hmem
    · obtain ⟨rfl, rfl⟩ := Prod.mk.inj heq
      have hkept : Cells.read t.wram s.sp.toNat = Cells.read u.wram s.sp.toNat := by
        apply pushAll_wram_frame hrest
        rw [hframe]
        intro a ha heq
        obtain rfl := BitVec.eq_of_toNat_eq heq
        exact not_mem_pushAddresses_down (Nat.lt_of_succ_le hn) s.sp ha
      obtain ⟨x, hx, rfl⟩ := hu
      rw [busWrite_wram _ hram.1] at hx
      cases hx
      rw [hkept]
      exact read_write_same _ _ _
    · apply ih (by omega) hrest
      · rw [hframe]; exact hram.2
      · rw [hframe]; exact hmem

/-! ### The pushing instructions -/

/-- The bytes of a value pushed at a width, in push order. -/
def bytesAt (w : Width) (v : Word) : List Byte :=
  match w with
  | .w8 => [loByte v]
  | .w16 => [hiByte v, loByte v]

theorem pushAt_iff : Spec.PushAt w s v t ↔ pushAll s (bytesAt w v) = .ok t := by
  cases w with
  | w8 => rw [bytesAt, pushAll_singleton, push8_eq_ok]; rfl
  | w16 => rw [bytesAt, push16_eq_ok]; rfl

theorem pushAtFails_iff : Spec.PushAtFails w s v f ↔ pushAll s (bytesAt w v) = .error f := by
  cases w with
  | w8 => rw [bytesAt, pushAll_singleton, push8_eq_error]; rfl
  | w16 => rw [bytesAt, push16_eq_error]; rfl

theorem pushRegister_eq (s : State) (r : DataReg) :
    pushRegister s r = pushAll s (bytesAt (s.widthOfReg r) (s.get r)) >>= fun u =>
      .ok (u.ret (byWidth (s.widthOfReg r) 3 4)) := by
  unfold pushRegister
  split <;> rename_i hw <;> rw [hw, bytesAt]
  · rw [pushAll_singleton]; rfl
  · rw [pushAll_word]; rfl

/-- Where a call goes after its pushes (R270, R271). -/
def afterPush (i : Instr) (u : State) : State :=
  match i with
  | .jsr a => { u with pc := a }
  | .jsl a bank => { u with pc := a, pbr := bank }
  | _ => u

/-- After its pushes an instruction writes PC and PBR at most. -/
theorem afterPush_frame (i : Instr) (u : State) :
    afterPush i u = { u with pc := (afterPush i u).pc, pbr := (afterPush i u).pbr } := by
  cases i <;> rfl

theorem pushedBytes_pha (s : State) : Spec.pushedBytes .pha s = some (bytesAt s.widths.a s.a) := by
  rw [widths_a_eq_wA]
  simp only [Spec.pushedBytes]
  cases Spec.wA s <;> rfl

theorem pushedBytes_phx (s : State) : Spec.pushedBytes .phx s = some (bytesAt s.widths.x s.x) := by
  rw [widths_x_eq_wX]
  simp only [Spec.pushedBytes]
  cases Spec.wX s <;> rfl

/-- A pushing instruction pushes the spec's bytes in order, then jumps if it is a call, and sets the cycle count. -/
theorem exec_push (h : Spec.pushedBytes i s = some bytes) :
    exec i s = commit (pushAll s bytes >>= fun u => .ok ((afterPush i u).ret (cyclesOf i s))) := by
  cases i
  case pha =>
    rw [pushedBytes_pha, Option.some.injEq] at h
    subst h
    exact congrArg commit (pushRegister_eq s .a)
  case phx =>
    rw [pushedBytes_phx, Option.some.injEq] at h
    subst h
    exact congrArg commit (pushRegister_eq s .x)
  case php | phk =>
    cases h
    rw [pushAll_singleton]; rfl
  case jsr a =>
    cases h
    exact congrArg (fun x => commit (x >>= fun u => .ok (State.ret { u with pc := a } 6))) (pushAll_word s (s.pc - 1)).symm
  case jsl a bank =>
    cases h
    rw [exec, execJsl, pushAll]
    cases push8 s s.pbr with
    | error f => rfl
    | ok t =>
      exact congrArg (fun x => commit (x >>= fun u => .ok (State.ret { u with pbr := bank, pc := a } 8)))
        (pushAll_word t (s.pc - 1)).symm
  all_goals cases h

theorem exec_push_eq_next (h : Spec.pushedBytes i s = some bytes) :
    exec i s = .next t ↔ ∃ u, pushAll s bytes = .ok u ∧ t = (afterPush i u).ret (cyclesOf i s) := by
  rw [exec_push h, commit_eq_next, bind_eq_ok]
  simp only [Except.ok.injEq, @eq_comm _ _ t]

theorem exec_push_eq_fault (h : Spec.pushedBytes i s = some bytes) (hf : pushAll s bytes = .error f) : exec i s = .fault f := by
  rw [exec_push h, hf, error_bind, commit_error]

/-- Settles O25: the push equation at the four instructions. -/
theorem pushInstructionsPushTheirRegister : Obligations.PushInstructionsPushTheirRegister := by
  refine ⟨fun wd => ⟨decodesAs_encode (i := .pha) rfl, decodesAs_encode (i := .phx) rfl, decodesAs_encode (i := .php) rfl,
    decodesAs_encode (i := .phk) rfl⟩, fun s => ?_⟩
  rw [← byWidth_eq_count, ← byWidth_eq_count, ← widths_a_eq_wA, ← widths_x_eq_wX]
  refine ⟨fun t h => ?pha, fun f h => ?phaFails, fun t h => ?phx, fun f h => ?phxFails, fun t h => ?php, fun f h => ?phpFails,
    fun t h => ?phk, fun f h => ?phkFails⟩
  case pha => exact (exec_push_eq_next (pushedBytes_pha s)).2 ⟨t, pushAt_iff.1 h, rfl⟩
  case phx => exact (exec_push_eq_next (pushedBytes_phx s)).2 ⟨t, pushAt_iff.1 h, rfl⟩
  case php => exact (exec_push_eq_next (i := .php) rfl).2 ⟨t, by rw [pushAll_singleton, push8_eq_ok]; exact h, rfl⟩
  case phk => exact (exec_push_eq_next (i := .phk) rfl).2 ⟨t, by rw [pushAll_singleton, push8_eq_ok]; exact h, rfl⟩
  case phaFails => exact exec_push_eq_fault (pushedBytes_pha s) (pushAtFails_iff.1 h)
  case phxFails => exact exec_push_eq_fault (pushedBytes_phx s) (pushAtFails_iff.1 h)
  case phpFails => exact exec_push_eq_fault (i := .php) rfl (by rw [pushAll_singleton, push8_eq_error]; exact h)
  case phkFails => exact exec_push_eq_fault (i := .phk) rfl (by rw [pushAll_singleton, push8_eq_error]; exact h)

/-- Settles O31: the push equation at the two calls. -/
theorem callsPushReturnAddress : Obligations.CallsPushReturnAddress := by
  refine ⟨fun wd a bk => ⟨decodesAs_encode (i := .jsr a) rfl, decodesAs_encode (i := .jsl a bk) rfl⟩, fun s a bk => ?_⟩
  refine ⟨fun t h => ?jsr, fun f h => ?jsrFails, fun u t hu ht => ?jsl, fun f h => ?jslFails⟩
  case jsr => exact (exec_push_eq_next (i := .jsr a) rfl).2 ⟨t, push16_eq_ok.2 h, rfl⟩
  case jsrFails => exact exec_push_eq_fault (i := .jsr a) rfl (push16_eq_error.2 h)
  case jsl => exact (exec_push_eq_next (i := .jsl a bk) rfl).2 ⟨t, pushAll_cons_eq_ok.2 ⟨u, hu, push16_eq_ok.2 ht⟩, rfl⟩
  case jslFails =>
    refine exec_push_eq_fault (i := .jsl a bk) rfl (pushAll_cons_eq_error.2 (h.imp_right ?_))
    rintro ⟨u, hu, hf⟩
    exact ⟨u, hu, push16_eq_error.2 hf⟩

theorem length_bytesAt_le (w : Width) (v : Word) : (bytesAt w v).length ≤ 2 := by cases w <;> simp [bytesAt]

/-- No instruction pushes more than three bytes. -/
theorem length_pushedBytes_le (h : Spec.pushedBytes i s = some bytes) : bytes.length ≤ 3 := by
  cases i
  case pha =>
    rw [pushedBytes_pha, Option.some.injEq] at h
    exact h ▸ (length_bytesAt_le _ _).trans (by decide)
  case phx =>
    rw [pushedBytes_phx, Option.some.injEq] at h
    exact h ▸ (length_bytesAt_le _ _).trans (by decide)
  case php | phk | jsr | jsl =>
    cases h
    simp
  all_goals cases h

/-- Settles O26: the pushes complete (`pushAll_wram`), their bytes stand (`read_of_pushAll`), the rest of work RAM is kept. -/
theorem pushesToWorkRamComplete : Obligations.PushesToWorkRamComplete := by
  intro i s bytes hbytes hram
  obtain ⟨m, hm⟩ := pushAll_wram hram
  have hlen : bytes.length ≤ 256 := (length_pushedBytes_le hbytes).trans (by decide)
  have hwram (u : State) : (afterPush i u).wram = u.wram := by rw [afterPush_frame]
  refine ⟨_, (exec_push_eq_next hbytes).2 ⟨_, hm, rfl⟩, ?frame, fun a v hmem => ?bytes, fun b hb => ?rest, ?jsr, ?jsl, ?others⟩
  case frame => rw [afterPush_frame]; rfl
  case bytes =>
    rw [ret_wram, hwram]
    exact read_of_pushAll hlen hm hram hmem
  case rest =>
    rw [ret_wram, hwram]
    exact pushAll_wram_frame hm hb
  case jsr => rintro a rfl; exact ⟨rfl, rfl, rfl⟩
  case jsl => rintro a bk rfl; exact ⟨rfl, rfl, rfl⟩
  case others => rintro (rfl | rfl | rfl | rfl) <;> exact ⟨rfl, rfl⟩

/-- Settles O27: the frame of the pushes; a call then writes PC and PBR alone. -/
theorem pushesLeaveEverythingElse : Obligations.PushesLeaveEverythingElse := by
  intro i s t bytes hbytes h
  obtain ⟨u, hu, rfl⟩ := (exec_push_eq_next hbytes).1 h
  have hafter := afterPush_frame i u
  refine ⟨?frame, fun b hb => ?rest, fun hw bank b hb => ?reads⟩
  case frame =>
    rw [hafter, pushAll_frame hu]; rfl
  case rest =>
    rw [ret_wram, hafter]
    exact pushAll_wram_frame hu hb
  case reads =>
    rw [← busRead_of_pushAll hu hw bank hb]
    apply busRead_congr <;> rw [hafter] <;> rfl

/-! ### Pulling (R79, R81) -/

theorem pull8_of_pullsByte (h : Spec.PullsByte s s.sp b) : pull8 s = .ok ({ s with sp := Spec.up s.e s.sp }, b) := by
  rw [pull8, spUp_eq_up]
  exact bind_eq_ok.2 ⟨b, h, rfl⟩

theorem pull8_of_fails (h : busRead s 0x00 (Spec.up s.e s.sp) = .error f) : pull8 s = .error f := by
  rw [pull8, spUp_eq_up]
  exact bind_eq_error.2 (.inl h)

theorem pull16_of_pullsAt (h : Spec.PullsAt .w16 s v) : pull16 s = .ok ({ s with sp := Spec.pulledSp .w16 s }, v) := by
  obtain ⟨lo, hi, hlo, hhi, rfl⟩ := h
  exact bind_eq_ok.2 ⟨_, pull8_of_pullsByte hlo, bind_eq_ok.2 ⟨_, pull8_of_pullsByte hhi, rfl⟩⟩

theorem pull16_of_fails (h : Spec.PullAtFails .w16 s f) : pull16 s = .error f := by
  obtain h | ⟨_, ⟨lo, hlo⟩, hhi⟩ := h
  · exact bind_eq_error.2 (.inl (pull8_of_fails h))
  · exact bind_eq_error.2 (.inr ⟨_, pull8_of_pullsByte hlo, bind_eq_error.2 (.inl (pull8_of_fails hhi))⟩)

/-- A pulled byte is zero-extended (R79). -/
theorem zero_append_eq_zext16 (b : Byte) : 0x00#8 ++ b = zext16 b := (zext16_eq_joinBytes b).symm

theorem pullRegister_of_pullsAt {r : DataReg} (h : Spec.PullsAt (s.widthOfReg r) s v) :
    pullRegister s r = .ok ((writeBack { s with sp := Spec.pulledSp (s.widthOfReg r) s } r v).ret (byWidth (s.widthOfReg r) 4 5)) := by
  unfold pullRegister
  split <;> rename_i hw <;> rw [hw] at h ⊢
  · obtain ⟨lo, hlo, rfl⟩ := h
    rw [pull8_of_pullsByte hlo, ok_bind, zero_append_eq_zext16]; rfl
  · rw [pull16_of_pullsAt h]; rfl

theorem pullRegister_of_fails {r : DataReg} (h : Spec.PullAtFails (s.widthOfReg r) s f) : pullRegister s r = .error f := by
  unfold pullRegister
  split <;> rename_i hw <;> rw [hw] at h
  · obtain h | ⟨hw, _⟩ := h
    · rw [pull8_of_fails h, error_bind]
    · cases hw
  · rw [pull16_of_fails h, error_bind]

/-- An 8-bit pull fails with the error of its one read. -/
theorem pull8_of_pullAtFails (h : Spec.PullAtFails .w8 s f) : pull8 s = .error f := by
  obtain h | ⟨hw, _⟩ := h
  · exact pull8_of_fails h
  · cases hw

/-- Settles O28: the pulled value is written back at the register's width; PLB is one Pull8. -/
theorem pullInstructionsLoadTheirRegister : Obligations.PullInstructionsLoadTheirRegister := by
  refine ⟨fun wd => ⟨decodesAs_encode (i := .pla) rfl, decodesAs_encode (i := .plx) rfl, decodesAs_encode (i := .plb) rfl⟩,
    fun s => ⟨fun v h => ?pla, fun f h => ?plaFails, fun v h => ?plx, fun f h => ?plxFails, fun v h => ?plb, fun f h => ?plbFails⟩⟩
  case pla =>
    rw [← widthOfReg_a_eq_wA] at h
    rw [exec, execPla, pullRegister_of_pullsAt h, commit_ok, writeBack_a_eq_merged, widthOfReg_a_eq_wA, byWidth_eq_count]; rfl
  case plx =>
    rw [← widthOfReg_x_eq_wX] at h
    rw [exec, execPlx, pullRegister_of_pullsAt h, commit_ok, writeBack_x_eq_merged, widthOfReg_x_eq_wX, byWidth_eq_count]; rfl
  case plb =>
    rw [exec, execPlb, pull8_of_pullsByte h, ok_bind, ← setZN_eq_specWithZN, zero_append_eq_zext16]; rfl
  case plaFails =>
    rw [← widthOfReg_a_eq_wA] at h
    rw [exec, execPla, pullRegister_of_fails h, commit_error]
  case plxFails =>
    rw [← widthOfReg_x_eq_wX] at h
    rw [exec, execPlx, pullRegister_of_fails h, commit_error]
  case plbFails => rw [exec, execPlb, pull8_of_pullAtFails h, error_bind, commit_error]

/-- Settles O29: PLD is one Pull16, PLP one Pull8 and the settling of the index high bytes. -/
theorem pldAndPlpPull : Obligations.PldAndPlpPull := by
  refine ⟨fun wd => ⟨decodesAs_encode (i := .pld) rfl, decodesAs_encode (i := .plp) rfl⟩,
    fun s => ⟨fun v h => ?pld, fun f h => ?pldFails, fun v h => ?plp, fun f h => ?plpFails⟩⟩
  case pld => rw [exec, execPld, pull16_of_pullsAt h, ok_bind, ← setZN_eq_specWithZN]; rfl
  case plp =>
    rw [exec, execPlp, pull8_of_pullsByte h, ok_bind]
    exact congrArg (fun u : State => commit (.ok (u.ret 4))) (settleIndexHigh_eq_and_mask { s with sp := Spec.up s.e s.sp, p := v })
  case pldFails => rw [exec, execPld, pull16_of_fails h, error_bind, commit_error]
  case plpFails => rw [exec, execPlp, pull8_of_pullAtFails h, error_bind, commit_error]

theorem exec_rts (h : Spec.PullsAt .w16 s v) :
    exec .rts s = .next { s with sp := Spec.pulledSp .w16 s, pc := v + 1, cycles := 6 } := by
  rw [exec, execRts, pull16_of_pullsAt h]; rfl

theorem exec_rtl (h : Spec.PullsAt .w16 s v) (hb : Spec.PullsByte s (Spec.pulledSp .w16 s) b) :
    exec .rtl s = .next { s with sp := Spec.up s.e (Spec.pulledSp .w16 s), pbr := b, pc := v + 1, cycles := 6 } := by
  exact commit_eq_next.2 (bind_eq_ok.2 ⟨_, pull16_of_pullsAt h, bind_eq_ok.2 ⟨_, pull8_of_pullsByte hb, rfl⟩⟩)

/-- Settles O32: RTS is one Pull16, RTL a Pull8 more. -/
theorem returnsResumeAfterTheCall : Obligations.ReturnsResumeAfterTheCall := by
  refine ⟨fun wd => ⟨decodesAs_encode (i := .rts) rfl, decodesAs_encode (i := .rtl) rfl⟩,
    fun s => ⟨fun v h => exec_rts h, fun f h => ?rtsFails, fun v b h hb => exec_rtl h hb, fun f h => ?rtlFails⟩⟩
  case rtsFails => rw [exec, execRts, pull16_of_fails h, error_bind, commit_error]
  case rtlFails =>
    refine commit_eq_fault.2 (bind_eq_error.2 (h.imp pull16_of_fails ?_))
    rintro ⟨⟨v, h⟩, hb⟩
    exact ⟨_, pull16_of_pullsAt h, bind_eq_error.2 (.inl (pull8_of_fails hb))⟩

/-! ### Pulling what was pushed (R82) -/

/-- The high byte of a word as the mask 0xFF00. -/
theorem and_high_eq_joinBytes (v : Word) : v &&& 0xFF00 = joinBytes (hiByte v) 0 := by
  have hhi : hiByte (v &&& 0xFF00) = hiByte v &&& BitVec.allOnes 8 := BitVec.extractLsb'_and
  have hlo : loByte (v &&& 0xFF00) = loByte v &&& 0#8 := BitVec.extractLsb'_and
  rw [← joinBytes_hi_lo (v &&& 0xFF00), hhi, hlo, BitVec.and_allOnes, BitVec.and_zero]; rfl

theorem hiByte_eq_one_iff (v : Word) : hiByte v = 0x01 ↔ v &&& 0xFF00 = 0x0100 := by
  rw [and_high_eq_joinBytes]
  refine ⟨fun h => by rw [h]; rfl, fun h => ?_⟩
  exact (hiByte_joinBytes _ _).symm.trans (congrArg hiByte h)

theorem loByte_up (e : Bool) (sp : Word) : loByte (Spec.up e sp) = loByte sp + 1 := by
  have hadd : loByte (sp + 1) = loByte sp + 1 := by
    have hword : (sp + 1).toNat = (sp.toNat + 1) % 0x10000 := by bv_omega
    have hbyte : (loByte sp + 1).toNat = ((loByte sp).toNat + 1) % 0x100 := by bv_omega
    apply BitVec.eq_of_toNat_eq
    rw [hbyte, toNat_loByte, toNat_loByte, hword]
    omega
  rw [← spUp_eq_up, spUp]
  split
  · rw [loByte_pageOne, hadd]
  · exact hadd

/-- A pull moves S back to where a push left it, when S is in page one while E = 1. -/
theorem up_down {e : Bool} {sp : Word} (h : e = true → hiByte sp = 0x01) : Spec.up e (Spec.down e sp) = sp := by
  cases e with
  | false => exact BitVec.sub_add_cancel sp 1
  | true =>
    have hhi : hiByte (Spec.up true (Spec.down true sp)) = hiByte sp := by
      rw [← spUp_eq_up, spUp_pageOne rfl, h rfl]
    have hlo : loByte (Spec.up true (Spec.down true sp)) = loByte sp := by
      rw [loByte_up, loByte_down, BitVec.sub_add_cancel]
    rw [← joinBytes_hi_lo (Spec.up true (Spec.down true sp)), hhi, hlo, joinBytes_hi_lo]

theorem hiByte_down {e : Bool} (sp : Word) (h : e = true) : hiByte (Spec.down e sp) = 0x01 := by
  rw [← spDown_eq_down, spDown, if_pos h, hiByte_pageOne]

/-- The byte pushed at `sp` is the one pulled from below it. -/
theorem pullsByte_down {e : Bool} {sp : Word} (he : t.e = e) (hpage : e = true → hiByte sp = 0x01) (hram : sp.toNat < 0x2000)
    (hread : Cells.read t.wram sp.toNat = b) : Spec.PullsByte t (Spec.down e sp) b := by
  rw [Spec.PullsByte, he, up_down hpage, busRead_wram _ hram, hread]

/-- The word pushed at `sp` is the one pulled from below it, and S is back. -/
theorem pullsAt_down {sp : Word} (hsp : t.sp = Spec.down t.e (Spec.down t.e sp)) (hpage : t.e = true → hiByte sp = 0x01)
    (hhi : sp.toNat < 0x2000) (hlo : (Spec.down t.e sp).toNat < 0x2000) (hreadHi : Cells.read t.wram sp.toNat = hiByte v)
    (hreadLo : Cells.read t.wram (Spec.down t.e sp).toNat = loByte v) :
    Spec.PullsAt .w16 t v ∧ Spec.pulledSp .w16 t = sp := by
  have hback : Spec.up t.e t.sp = Spec.down t.e sp := by rw [hsp, up_down (hiByte_down sp)]
  refine ⟨⟨loByte v, hiByte v, ?_, ?_, (joinBytes_hi_lo v).symm⟩, ?_⟩
  · rw [hsp]
    exact pullsByte_down rfl (hiByte_down sp) hlo hreadLo
  · rw [hback]
    exact pullsByte_down rfl hpage hhi hreadHi
  · rw [Spec.pulledSp, hback, up_down hpage]

/-- A word pushed to work RAM is pulled again from any state with that work RAM and that S. -/
theorem pullsAt_of_pushed_word (hpage : s.e = true → hiByte s.sp = 0x01) (v : Word)
    (hram : ∀ a ∈ Spec.pushAddresses s.e 2 s.sp, a.toNat < 0x2000) :
    ∃ m, pushAll s [hiByte v, loByte v] = .ok { s with sp := Spec.down s.e (Spec.down s.e s.sp), wram := m } ∧
      ∀ t : State, t.e = s.e → t.sp = Spec.down s.e (Spec.down s.e s.sp) → t.wram = m →
        Spec.PullsAt .w16 t v ∧ Spec.pulledSp .w16 t = s.sp := by
  obtain ⟨m, hm⟩ := pushAll_wram (bytes := [hiByte v, loByte v]) hram
  refine ⟨m, hm, fun t he hsp hwram => ?_⟩
  have hread {a : Word} {b : Byte} := read_of_pushAll (a := a) (v := b) (by simp) hm hram
  simp only [List.length_cons, List.length_nil, Spec.pushAddresses, List.zip_cons_cons, List.mem_cons, Prod.mk.injEq] at hread
  simp only [Spec.pushAddresses, List.forall_mem_cons] at hram
  subst hwram
  rw [← he] at hpage hsp hram hread
  exact pullsAt_down hsp hpage hram.1 hram.2.1 (hread (.inl ⟨rfl, rfl⟩)) (hread (.inr (.inl ⟨rfl, rfl⟩)))

/-- Settles O30: the word pushed is pulled at once, by `pullsAt_of_pushed_word`. -/
theorem pushThenPullRestoresValueAndStackPointer : Obligations.PushThenPullRestoresValueAndStackPointer := by
  intro s v hpage hhi hlo
  obtain ⟨m, hm, hpull⟩ := pullsAt_of_pushed_word (fun he => (hiByte_eq_one_iff _).2 (hpage he)) v
    (by simp [Spec.pushAddresses, hhi, hlo])
  obtain ⟨hpulls, hsp⟩ := hpull { s with sp := Spec.down s.e (Spec.down s.e s.sp), wram := m } rfl rfl rfl
  exact ⟨_, (pushAll_word s v).symm.trans hm, rfl, (pull16_of_pullsAt hpulls).trans (by rw [hsp])⟩

/-- Settles O36: the return address stands below S as in O30, for RTL below the bank, and one past it is the address after the
call. -/
theorem returnUndoesCall : Obligations.ReturnUndoesCall := by
  intro s a bk hpage
  have hpage : s.e = true → hiByte s.sp = 0x01 := fun he => (hiByte_eq_one_iff _).2 (hpage he)
  have hresume : s.pc - 1 + 1 = s.pc := BitVec.sub_add_cancel s.pc 1
  refine ⟨fun hram => ?jsr, fun hram => ?jsl⟩
  case jsr =>
    obtain ⟨m, hm, hpull⟩ := pullsAt_of_pushed_word hpage (s.pc - 1) hram
    let t : State := { s with sp := Spec.down s.e (Spec.down s.e s.sp), wram := m, pc := a, cycles := 6 }
    obtain ⟨hpulls, hsp⟩ := hpull t rfl rfl rfl
    refine ⟨t, _, (exec_push_eq_next (i := .jsr a) rfl).2 ⟨_, hm, rfl⟩, exec_rts hpulls, ?_⟩
    rw [hsp, hresume]
  case jsl =>
    obtain ⟨m, hm⟩ := pushAll_wram (bytes := [s.pbr, hiByte (s.pc - 1), loByte (s.pc - 1)]) hram
    have hread {a : Word} {b : Byte} := read_of_pushAll (a := a) (v := b) (by simp) hm hram
    simp only [List.length_cons, List.length_nil, Spec.pushAddresses, List.zip_cons_cons, List.mem_cons, Prod.mk.injEq] at hread
    simp only [Spec.pushAddresses, List.forall_mem_cons] at hram
    obtain ⟨hbank, hhi, hlo, _⟩ := hram
    let t : State :=
      { s with sp := Spec.down s.e (Spec.down s.e (Spec.down s.e s.sp)), wram := m, pc := a, pbr := bk, cycles := 8 }
    obtain ⟨hpulls, hsp⟩ := pullsAt_down (v := s.pc - 1) (t := t) rfl (hiByte_down s.sp) hhi hlo
      (hread (.inr (.inl ⟨rfl, rfl⟩))) (hread (.inr (.inr (.inl ⟨rfl, rfl⟩))))
    have hpullsBank : Spec.PullsByte t (Spec.pulledSp .w16 t) s.pbr := by
      rw [hsp]
      exact pullsByte_down rfl hpage hbank (hread (.inl ⟨rfl, rfl⟩))
    refine ⟨t, _, (exec_push_eq_next (i := .jsl a bk) rfl).2 ⟨_, hm, rfl⟩, exec_rtl hpulls hpullsBank, ?_⟩
    rw [hsp, hresume, up_down hpage]

end Sys2Proof.Proofs.Stack
end

section
/-! PROOFS. What an instruction that completes can do, said once for all 45 (`Effect`), and what follows of every step: the cycle
counts (70_reset_and_hazards.md R351, R352) and which instructions write memory, a register and a flag (10_state.md R31 to R39, R43). -/

namespace Sys2Proof.Proofs.Effects

open Sys2Proof.Machine Sys2Proof.Laws Sys2Proof.Proofs.Stores Sys2Proof.Proofs.Stack

/-! ### What an instruction that completes can do -/

/-- `s` with what lies behind the bus taken from `u`. -/
def withMemory (s u : State) : State :=
  { s with wram := u.wram, ppu := u.ppu, nmitimen := u.nmitimen, hdmaen := u.hdmaen, memsel := u.memsel, dma := u.dma }

/-- What lies behind the bus in `u` comes from `s` by bus writes: canonical memories and a zero HDMAEN are kept. -/
structure MemoryStep (s u : State) : Prop where
  wram : Memory.wf s.wram = true → Memory.wf u.wram = true
  ppu : Cells.wf vramSize s.ppu.vram = true → Cells.wf cgramSize s.ppu.cgram = true →
    Cells.wf vramSize u.ppu.vram = true ∧ Cells.wf cgramSize u.ppu.cgram = true
  hdmaen : s.hdmaen = 0 → u.hdmaen = 0

/-- The flag that an instruction writes alone, and the value it takes (R200 to R202). -/
def flagSetting (i : Instr) : Option (Flag × Bool) :=
  match i with
  | .clc => some (.c, false)
  | .sei => some (.i, true)
  | .cli => some (.i, false)
  | _ => none

/-- The register that an instruction writes back at its width with Z and N: loads, increments and register pulls. -/
def resultReg (i : Instr) : Option DataReg :=
  match i with
  | .ldaImm _ | .ldaAbs _ | .ina | .pla => some .a
  | .ldxImm _ | .ldxAbs _ | .inx | .dex | .plx => some .x
  | .ldyImm _ => some .y
  | _ => none

/-- The compares (R238 to R241). -/
def isCompare (i : Instr) : Bool :=
  match i with
  | .cmpAbs _ | .cmpImm _ | .cpxAbs _ | .cpxImm _ => true
  | _ => false

/-- The state an instruction that completes leaves: what it writes and what it leaves unchanged, by the kind of instruction. -/
inductive Effect (s : State) : Instr → State → Prop
  | flag {i : Instr} {fl b} (hi : flagSetting i = some (fl, b)) : Effect s i (State.ret { s with p := setFlag s.p fl b } (cyclesOf i s))
  | xce : Effect s .xce
      { s with
        p := setFlag s.p .c s.e, e := getFlag s.p .c, sp := if getFlag s.p .c then pageOne s.sp else s.sp
        cycles := cyclesOf .xce s }
  | rep {m} : Effect s (.rep m) { s with p := s.p &&& ~~~m, cycles := cyclesOf (.rep m) s }
  | sep {m} : Effect s (.sep m) ((State.settleIndexHigh { s with p := s.p ||| m }).ret (cyclesOf (.sep m) s))
  | result {i : Instr} {r sp} (hi : resultReg i = some r) (hsp : sp = s.sp ∨ (Spec.writesSp i = true ∧ ∃ below, sp = spUp s.e below))
      (v : Word) : Effect s i ((writeBack { s with sp := sp } r v).ret (cyclesOf i s))
  | store {i : Instr} {w ea u} (hi : Spec.storeTarget i s = some (w, ea)) (hu : MemoryStep s u) :
      Effect s i { withMemory s u with p := storeStatus i s w, cycles := cyclesOf i s }
  | tcd : Effect s .tcd ((State.withZN { s with d := s.a } s.a .w16).ret (cyclesOf .tcd s))
  | tcs : Effect s .tcs { s with sp := if s.e then pageOne s.a else s.a, cycles := cyclesOf .tcs s }
  | txs {v w} : Effect s .txs ((State.withZN { s with sp := if s.e then pageOne v else v } v w).ret (cyclesOf .txs s))
  | xba {v} : Effect s .xba ((State.withZN { s with a := v } v .w8).ret (cyclesOf .xba s))
  | compare {i : Instr} (hi : isCompare i = true) (r m : Word) (w : Width) : Effect s i ((s.withCompare r m w).ret (cyclesOf i s))
  | push {i : Instr} {bytes u sp pc pbr} (hi : Spec.pushedBytes i s = some bytes) (hu : MemoryStep s u) (hsp : s.e = true → hiByte sp = 0x01)
      (hpc : pc = s.pc ∨ Spec.setsPc i = true) (hpbr : pbr = s.pbr ∨ ∃ a bk, i = .jsl a bk) :
      Effect s i { withMemory s u with sp := sp, pc := pc, pbr := pbr, cycles := cyclesOf i s }
  | pld {v below} : Effect s .pld ((State.withZN { s with sp := spUp s.e below, d := v } v .w16).ret (cyclesOf .pld s))
  | plb {v b below} : Effect s .plb ((State.withZN { s with sp := spUp s.e below, dbr := b } v .w8).ret (cyclesOf .plb s))
  | plp {b below} : Effect s .plp ((State.settleIndexHigh { s with sp := spUp s.e below, p := b }).ret (cyclesOf .plp s))
  | rts {a below} : Effect s .rts { s with sp := spUp s.e below, pc := a, cycles := cyclesOf .rts s }
  | rtl {a b below} : Effect s .rtl { s with sp := spUp s.e below, pbr := b, pc := a, cycles := cyclesOf .rtl s }
  | jump {i : Instr} {a} (hi : Spec.setsPc i = true) : Effect s i { s with pc := a, cycles := cyclesOf i s }

variable {i : Instr} {s t u : State} {fl : Flag}

theorem MemoryStep.of_byBusWrites (h : ByBusWrites s u) : MemoryStep s u := ⟨h.wram, h.ppu, h.hdmaen⟩

theorem MemoryStep.refl (s : State) : MemoryStep s s := of_byBusWrites (ByBusWrites.refl s)

theorem MemoryStep.trans (h : MemoryStep s t) (h' : MemoryStep t u) : MemoryStep s u where
  wram hw := h'.wram (h.wram hw)
  ppu hv hc := h'.ppu (h.ppu hv hc).1 (h.ppu hv hc).2
  hdmaen hz := h'.hdmaen (h.hdmaen hz)

theorem eq_withMemory_of_busOnly (h : BusOnly s u) : u = withMemory s u := h

theorem memoryStep_of_pushAll {bytes : List Byte} (h : pushAll s bytes = .ok u) : MemoryStep s u := by
  induction bytes generalizing s with
  | nil => cases h; exact .refl _
  | cons b bytes ih =>
    obtain ⟨t, ht, hrest⟩ := bind_eq_ok.1 h
    have hby := push8_by ht
    exact MemoryStep.trans ⟨hby.wram, hby.ppu, hby.hdmaen⟩ (ih hrest)

/-- A push leaves S in page one while E = 1. -/
theorem pageOne_of_pushAll {bytes : List Byte} (hne : bytes ≠ []) (h : pushAll s bytes = .ok u) (he : s.e = true) :
    hiByte u.sp = 0x01 := by
  obtain ⟨n, hn⟩ : ∃ n, bytes.length = n + 1 := Nat.exists_eq_succ_of_ne_zero (mt List.length_eq_zero_iff.1 hne)
  rw [pushAll_frame h, hn, Function.iterate_succ_apply']
  exact hiByte_down _ he

theorem pushedBytes_ne_nil {bytes : List Byte} (h : Spec.pushedBytes i s = some bytes) : bytes ≠ [] := by
  rintro rfl
  cases i
  case pha =>
    rw [pushedBytes_pha, Option.some.injEq] at h
    revert h
    cases s.widths.a <;> exact nofun
  case phx =>
    rw [pushedBytes_phx, Option.some.injEq] at h
    revert h
    cases s.widths.x <;> exact nofun
  all_goals cases h

theorem effect_of_store {w : Width} {ea : Word} (hi : Spec.storeTarget i s = some (w, ea)) (h : exec i s = .next t) :
    Effect s i t := by
  obtain ⟨u, hu, rfl⟩ := (exec_store_eq_next hi).1 h
  have hby := memWrite_by hu
  rw [eq_withMemory_of_busOnly hby.only]
  exact .store hi (.of_byBusWrites hby)

theorem afterPush_pc (i : Instr) (u : State) : (afterPush i u).pc = u.pc ∨ Spec.setsPc i = true := by
  cases i
  case jsr | jsl => exact .inr rfl
  all_goals exact .inl rfl

theorem afterPush_pbr (i : Instr) (u : State) : (afterPush i u).pbr = u.pbr ∨ ∃ a bk, i = .jsl a bk := by
  cases i
  case jsl a bk => exact .inr ⟨a, bk, rfl⟩
  all_goals exact .inl rfl

theorem effect_of_push {bytes : List Byte} (hi : Spec.pushedBytes i s = some bytes) (h : exec i s = .next t) : Effect s i t := by
  obtain ⟨u, hu, rfl⟩ := (exec_push_eq_next hi).1 h
  have hframe := pushAll_frame hu
  have hpc : (afterPush i u).pc = s.pc ∨ Spec.setsPc i = true := by
    rw [show s.pc = u.pc by rw [hframe]]
    exact afterPush_pc i u
  have hpbr : (afterPush i u).pbr = s.pbr ∨ ∃ a bk, i = .jsl a bk := by
    rw [show s.pbr = u.pbr by rw [hframe]]
    exact afterPush_pbr i u
  have heff := Effect.push hi (memoryStep_of_pushAll hu) (pageOne_of_pushAll (pushedBytes_ne_nil hi) hu) hpc hpbr
  rw [afterPush_frame]
  convert heff using 1
  rw [hframe]; rfl

/-- A register pull is a result written back above the pulled bytes. -/
theorem effect_of_pullRegister {r : DataReg} (hi : resultReg i = some r) (hsp : Spec.writesSp i = true)
    (hcycles : cyclesOf i s = byWidth (s.widthOfReg r) 4 5) (h : pullRegister s r = .ok t) : Effect s i t := by
  obtain ⟨v, sp, hpulled, rfl⟩ := pullRegister_spec h
  rw [← hcycles]
  refine .result hi (.inr ⟨hsp, ?_⟩) v
  rw [hpulled]
  cases s.widthOfReg r <;> exact ⟨_, rfl⟩

/-- Every instruction that completes has one of the effects. -/
theorem effect_of_exec (h : exec i s = .next t) : Effect s i t := by
  cases hstore : Spec.storeTarget i s with
  | some target => exact effect_of_store hstore h
  | none =>
  cases hpush : Spec.pushedBytes i s with
  | some bytes => exact effect_of_push hpush h
  | none =>
  cases i
  case clc | sei | cli => cases h; exact .flag rfl
  case xce => cases h; exact .xce
  case rep => cases h; exact .rep
  case sep => cases h; exact .sep
  case ldaImm | ldxImm | ldyImm => cases h; exact .result rfl (.inl rfl) _
  case ldaAbs | ldxAbs =>
    obtain ⟨v, _, rfl⟩ := loadAbsolute_eq_ok.1 (commit_eq_next.1 h)
    exact .result rfl (.inl rfl) v
  case inx | dex | ina => cases h; exact .result rfl (.inl rfl) _
  case tcd => cases h; exact .tcd
  case tcs => cases h; exact .tcs
  case txs => cases h; exact .txs
  case xba => cases h; exact .xba
  case cmpAbs | cpxAbs =>
    obtain ⟨m, _, rfl⟩ := compareAbsolute_eq_ok.1 (commit_eq_next.1 h)
    exact .compare rfl _ m _
  case cmpImm | cpxImm => cases h; exact .compare rfl _ _ _
  case pla | plx => exact effect_of_pullRegister rfl rfl rfl (commit_eq_next.1 h)
  case pld =>
    obtain ⟨⟨u, v⟩, hu, h⟩ := bind_eq_ok.1 (commit_eq_next.1 h)
    cases h
    rw [pull16_spec hu]
    exact .pld
  case plb =>
    obtain ⟨⟨u, b⟩, hu, h⟩ := bind_eq_ok.1 (commit_eq_next.1 h)
    cases h
    rw [pull8_spec hu]
    exact .plb
  case plp =>
    obtain ⟨⟨u, b⟩, hu, h⟩ := bind_eq_ok.1 (commit_eq_next.1 h)
    cases h
    rw [pull8_spec hu]
    exact .plp
  case rts =>
    obtain ⟨⟨u, v⟩, hu, h⟩ := bind_eq_ok.1 (commit_eq_next.1 h)
    cases h
    rw [pull16_spec hu]
    exact .rts
  case rtl =>
    obtain ⟨⟨u, v⟩, hu, h⟩ := bind_eq_ok.1 (commit_eq_next.1 h)
    obtain ⟨⟨u', b⟩, hu', h⟩ := bind_eq_ok.1 h
    cases h
    rw [pull8_spec hu', pull16_spec hu]
    exact .rtl
  case jmp | bne => cases h; exact .jump rfl
  case stp => cases h
  case staAbs | stxAbs | styAbs | staDp | stxDp | stzAbs | stzDpX => cases hstore
  case pha | phx | php | phk | jsr | jsl => cases hpush

/-- A step that completes is a fetch, which moves PC alone, and then the effect of the instruction fetched. -/
theorem effect_of_step (h : step s = .next t) : ∃ pc i, Effect { s with pc := pc } i t := by
  rw [step] at h
  split at h
  · rename_i u i hfetch
    rw [fetchInstr_spec hfetch] at h
    exact ⟨u.pc, i, effect_of_exec h⟩
  · cases h

/-! ### Cycle counts (R351, R352) -/

theorem cycles_of_effect (h : Effect s i t) : t.cycles = cyclesOf i s := by cases h <;> rfl

theorem byWidth_mem_Icc {lo hi n8 n16 : Nat} (w : Width) (h8 : lo ≤ n8 ∧ n8 ≤ hi) (h16 : lo ≤ n16 ∧ n16 ≤ hi) :
    lo ≤ byWidth w n8 n16 ∧ byWidth w n8 n16 ≤ hi := by
  cases w
  · exact h8
  · exact h16

theorem cycleCount_bounds {wd : Widths} {penalty : Nat} {z e : Bool} (hi : i ≠ .stp) (hp : penalty ≤ 1) :
    2 ≤ cycleCount i wd penalty z e ∧ cycleCount i wd penalty z e ≤ 8 := by
  cases i
  case ldaImm | ldaAbs | staAbs | pha | pla => exact byWidth_mem_Icc wd.a (by decide) (by decide)
  case ldxImm | ldyImm | ldxAbs | stxAbs | styAbs | stzAbs | stzDpX | cpxAbs | cpxImm | phx | plx =>
    exact byWidth_mem_Icc wd.x (by decide) (by decide)
  case staDp =>
    have hw := byWidth_mem_Icc (lo := 2) (hi := 7) (n8 := 3) (n16 := 4) wd.a (by decide) (by decide)
    exact ⟨hw.1.trans (Nat.le_add_right _ _), Nat.add_le_add hw.2 hp⟩
  case stxDp =>
    have hw := byWidth_mem_Icc (lo := 2) (hi := 7) (n8 := 3) (n16 := 4) wd.x (by decide) (by decide)
    exact ⟨hw.1.trans (Nat.le_add_right _ _), Nat.add_le_add hw.2 hp⟩
  case bne => cases z <;> cases e <;> simp [cycleCount]
  case stp => exact absurd rfl hi
  all_goals simp [cycleCount]

theorem directPagePenalty_le_one (s : State) : directPagePenalty s ≤ 1 := by
  unfold directPagePenalty
  split <;> decide

/-- STP never completes. -/
theorem ne_stp_of_effect (h : Effect s i t) : i ≠ .stp := by
  rintro rfl
  cases h with
  | flag hi | result hi | store hi | compare hi | push hi | jump hi => cases hi

/-- Settles O60: every effect sets `cycleCount`, whose arguments are the widths, the penalty of D, Z and E. -/
theorem cycleCountsDependOnWidthsDZeroAndEmulationOnly : Obligations.CycleCountsDependOnWidthsDZeroAndEmulationOnly := by
  refine ⟨fun s t h => ?bounds, fun i s s' t t' h h' hwidths hd hz he => ?same⟩
  case bounds =>
    obtain ⟨pc, i, heff⟩ := effect_of_step h
    rw [cycles_of_effect heff]
    exact cycleCount_bounds (ne_stp_of_effect heff) (directPagePenalty_le_one _)
  case same =>
    have hpenalty : directPagePenalty s = directPagePenalty s' := by simp only [directPagePenalty_eq, hd]
    rw [cycles_of_effect (effect_of_exec h), cycles_of_effect (effect_of_exec h'), cyclesOf, cyclesOf, hwidths, hpenalty, hz, he]

/-! ### Memory (R43, R70) -/

/-- Nothing behind the bus differs. -/
def SameMemory (s t : State) : Prop :=
  t.wram = s.wram ∧ t.ppu = s.ppu ∧ t.nmitimen = s.nmitimen ∧ t.hdmaen = s.hdmaen ∧ t.memsel = s.memsel ∧ t.dma = s.dma

theorem rom_config_of_effect (h : Effect s i t) : t.rom = s.rom ∧ t.config = s.config := by
  cases h <;> simp [writeBack, withMemory]

/-- Settles O56: no effect writes the image or the parameters. -/
theorem stepNeverChangesCartridgeOrParameters : Obligations.StepNeverChangesCartridgeOrParameters := by
  intro s t h
  obtain ⟨pc, i, heff⟩ := effect_of_step h
  have hkept := rom_config_of_effect heff
  exact hkept

theorem writesMemory_of_storeTarget {target : Width × Word} (h : Spec.storeTarget i s = some target) :
    Spec.writesMemory i = true := by
  cases i
  case staAbs | stxAbs | styAbs | staDp | stxDp | stzAbs | stzDpX => rfl
  all_goals cases h

theorem writesMemory_of_pushedBytes {bytes : List Byte} (h : Spec.pushedBytes i s = some bytes) : Spec.writesMemory i = true := by
  cases i
  case pha | phx | php | phk | jsr | jsl => rfl
  all_goals cases h

/-- Only a store or a push reaches memory; what it leaves there comes from bus writes. -/
theorem memory_of_effect (h : Effect s i t) : SameMemory s t ∨ (Spec.writesMemory i = true ∧ MemoryStep s t) := by
  cases h with
  | store hi hu => exact .inr ⟨writesMemory_of_storeTarget hi, hu.wram, hu.ppu, hu.hdmaen⟩
  | push hi hu => exact .inr ⟨writesMemory_of_pushedBytes hi, hu.wram, hu.ppu, hu.hdmaen⟩
  | _ => exact .inl (by simp [SameMemory, writeBack])

/-- Settles O59: the effects that are neither store nor push keep all that a bus read looks at. -/
theorem otherInstructionsLeaveMemory : Obligations.OtherInstructionsLeaveMemory := by
  intro i s t hi h
  have heff := effect_of_exec h
  obtain ⟨hrom, hconfig⟩ := rom_config_of_effect heff
  obtain ⟨hwram, hppu, hnmi, hhdma, hmemsel, hdma⟩ | ⟨hwrites, _⟩ := memory_of_effect heff
  · exact ⟨hwram, hppu, hnmi, hhdma, hmemsel, hdma, busRead_congr hwram hrom hconfig hdma⟩
  · rw [hi] at hwrites
    cases hwrites

/-! ### Which instructions write a register (R31 to R39) -/

theorem writesSp_of_pushedBytes {bytes : List Byte} (h : Spec.pushedBytes i s = some bytes) : Spec.writesSp i = true := by
  cases i
  case pha | phx | php | phk | jsr | jsl => rfl
  all_goals cases h

theorem of_resultReg_a (h : resultReg i = some .a) : i = .ina ∨ i = .pla ∨ ∃ v, i = .ldaImm v ∨ i = .ldaAbs v := by
  cases i
  case ina => exact .inl rfl
  case pla => exact .inr (.inl rfl)
  case ldaImm v => exact .inr (.inr ⟨v, .inl rfl⟩)
  case ldaAbs v => exact .inr (.inr ⟨v, .inr rfl⟩)
  all_goals cases h

theorem of_resultReg_x (h : resultReg i = some .x) :
    i = .inx ∨ i = .dex ∨ i = .plx ∨ ∃ v, i = .ldxImm v ∨ i = .ldxAbs v := by
  cases i
  case inx => exact .inl rfl
  case dex => exact .inr (.inl rfl)
  case plx => exact .inr (.inr (.inl rfl))
  case ldxImm v => exact .inr (.inr (.inr ⟨v, .inl rfl⟩))
  case ldxAbs v => exact .inr (.inr (.inr ⟨v, .inr rfl⟩))
  all_goals cases h

theorem of_resultReg_y (h : resultReg i = some .y) : ∃ v, i = .ldyImm v := by
  cases i
  case ldyImm v => exact ⟨v, rfl⟩
  all_goals cases h

theorem dbr_of_effect (h : Effect s i t) (hne : t.dbr ≠ s.dbr) : i = .plb := by
  cases h with
  | plb => rfl
  | _ => simp [writeBack, withMemory] at hne

theorem pbr_of_effect (h : Effect s i t) (hne : t.pbr ≠ s.pbr) : i = .rtl ∨ ∃ a bk, i = .jsl a bk := by
  cases h with
  | rtl => exact .inl rfl
  | push _ _ _ _ hpbr => exact .inr (hpbr.resolve_left hne)
  | _ => simp [writeBack, withMemory] at hne

theorem e_of_effect (h : Effect s i t) (hne : t.e ≠ s.e) : i = .xce := by
  cases h with
  | xce => rfl
  | _ => simp [writeBack, withMemory] at hne

theorem d_of_effect (h : Effect s i t) (hne : t.d ≠ s.d) : i = .tcd ∨ i = .pld := by
  cases h with
  | tcd => exact .inl rfl
  | pld => exact .inr rfl
  | _ => simp [writeBack, withMemory] at hne

theorem a_of_effect (h : Effect s i t) (hne : t.a ≠ s.a) : resultReg i = some .a ∨ i = .xba := by
  cases h with
  | xba => exact .inr rfl
  | @result _ r _ hi =>
    cases r with
    | a => exact .inl hi
    | _ => simp [writeBack] at hne
  | _ => simp [withMemory] at hne

/-- Only `X_FLAG_CLEARS_INDEX_HIGH` lets the index high bytes be cleared (R42). -/
theorem xFlagClears_of_settleIndexHigh_ne (h : s.settleIndexHigh.x ≠ s.x ∨ s.settleIndexHigh.y ≠ s.y) :
    s.config.xFlagClearsIndexHigh = true := by
  by_contra hcfg
  have hkept : s.settleIndexHigh = s := by
    rw [State.settleIndexHigh, Bool.eq_false_iff.2 hcfg, Bool.false_and, if_neg Bool.false_ne_true]
  rw [hkept] at h
  exact h.elim (absurd rfl) (absurd rfl)

theorem y_of_effect (h : Effect s i t) (hne : t.y ≠ s.y) :
    resultReg i = some .y ∨ (s.config.xFlagClearsIndexHigh = true ∧ (i = .plp ∨ ∃ m, i = .sep m)) := by
  cases h with
  | @result _ r _ hi =>
    cases r with
    | y => exact .inl hi
    | _ => simp [writeBack] at hne
  | @sep m =>
    have hcfg := xFlagClears_of_settleIndexHigh_ne (s := { s with p := s.p ||| m }) (.inr hne)
    exact .inr ⟨hcfg, .inr ⟨m, rfl⟩⟩
  | @plp b below =>
    have hcfg := xFlagClears_of_settleIndexHigh_ne (s := { s with sp := spUp s.e below, p := b }) (.inr hne)
    exact .inr ⟨hcfg, .inl rfl⟩
  | _ => simp [withMemory] at hne

theorem x_of_effect (h : Effect s i t) (hne : t.x ≠ s.x) :
    resultReg i = some .x ∨ (s.config.xFlagClearsIndexHigh = true ∧ (i = .plp ∨ ∃ m, i = .sep m)) := by
  cases h with
  | @result _ r _ hi =>
    cases r with
    | x => exact .inl hi
    | _ => simp [writeBack] at hne
  | @sep m =>
    have hcfg := xFlagClears_of_settleIndexHigh_ne (s := { s with p := s.p ||| m }) (.inl hne)
    exact .inr ⟨hcfg, .inr ⟨m, rfl⟩⟩
  | @plp b below =>
    have hcfg := xFlagClears_of_settleIndexHigh_ne (s := { s with sp := spUp s.e below, p := b }) (.inl hne)
    exact .inr ⟨hcfg, .inl rfl⟩
  | _ => simp [withMemory] at hne

theorem sp_of_effect (h : Effect s i t) (hne : t.sp ≠ s.sp) : Spec.writesSp i = true ∧ (i = .xce → t.e = true) := by
  cases h with
  | xce => exact ⟨rfl, fun _ => by by_contra hc; exact hne (if_neg hc)⟩
  | @result _ r sp hi hsp =>
    have hmoved : sp ≠ s.sp := by simpa [writeBack] using hne
    exact ⟨(hsp.resolve_left hmoved).1, by rintro rfl; cases hi⟩
  | push hi => exact ⟨writesSp_of_pushedBytes hi, by rintro rfl; cases hi⟩
  | tcs | txs | pld | plb | plp | rts | rtl => exact ⟨rfl, nofun⟩
  | _ => simp [withMemory] at hne

theorem pc_of_effect (h : Effect s i t) (hne : t.pc ≠ s.pc) : Spec.setsPc i = true := by
  cases h with
  | push _ _ _ hpc => exact hpc.resolve_left hne
  | jump hi => exact hi
  | rts | rtl => rfl
  | _ => simp [writeBack, withMemory] at hne

/-- Settles O57: register by register, the effects that write it. -/
theorem onlyListedInstructionsWriteARegister : Obligations.OnlyListedInstructionsWriteARegister := by
  intro i s t h
  have heff := effect_of_exec h
  refine ⟨dbr_of_effect heff, pbr_of_effect heff, e_of_effect heff, d_of_effect heff, fun hne => ?a, fun hne => ?y, fun hne => ?x,
    sp_of_effect heff, pc_of_effect heff⟩
  case a =>
    obtain hi | rfl := a_of_effect heff hne
    · exact (of_resultReg_a hi).imp_right .inr
    · exact .inr (.inl rfl)
  case y => exact (y_of_effect heff hne).imp_left of_resultReg_y
  case x =>
    obtain hi | hi := x_of_effect heff hne
    · exact (of_resultReg_x hi).imp_right (Or.imp_right (Or.imp_right .inl))
    · exact .inr (.inr (.inr (.inr hi)))

/-! ### Which instructions write a flag (R37) -/

/-- The row of R37 for each flag, REP, SEP and PLP left aside. -/
def writesFlag (cfg : Config) (i : Instr) (fl : Flag) : Bool :=
  match fl with
  | .z | .n => Spec.writesZN cfg i
  | .c => isCompare i || decide (i = .clc) || decide (i = .xce)
  | .i => decide (i = .sei) || decide (i = .cli)
  | .d | .v | .m | .x => false

theorem writesFlag_of_flagSetting {b : Bool} (h : flagSetting i = some (fl, b)) (cfg : Config) : writesFlag cfg i fl = true := by
  cases i
  case clc | sei | cli => cases h; rfl
  all_goals cases h

theorem writesZN_of_resultReg {r : DataReg} (h : resultReg i = some r) (cfg : Config) : Spec.writesZN cfg i = true := by
  cases i
  case ldaImm | ldaAbs | ina | pla | ldxImm | ldxAbs | inx | dex | plx | ldyImm => rfl
  all_goals cases h

theorem writesZN_of_isCompare (h : isCompare i = true) (cfg : Config) : Spec.writesZN cfg i = true := by
  cases i
  case cmpAbs | cmpImm | cpxAbs | cpxImm => rfl
  all_goals cases h

theorem getFlag_setFlag_of_ne {p : Byte} {f g : Flag} (b : Bool) (h : g ≠ f) : getFlag (setFlag p f b) g = getFlag p g := by
  rw [getFlag_setFlag, if_neg h]

/-- setZN keeps a flag that an instruction of the Z and N row does not write. -/
theorem getFlag_setZN_of_writesFlag {cfg : Config} (hzn : Spec.writesZN cfg i = true) (hf : writesFlag cfg i fl = false)
    (p : Byte) (v : Word) (w : Width) : getFlag (setZN p v w) fl = getFlag p fl := by
  refine getFlag_setZN_of_ne ?_ ?_ p v w <;>
  · rintro rfl
    rw [writesFlag, hzn] at hf
    cases hf

theorem getFlag_storeStatus_of_writesFlag (w : Width) (hf : writesFlag s.config i fl = false) :
    getFlag (storeStatus i s w) fl = getFlag s.p fl := by
  unfold storeStatus
  split
  · rename_i hzn
    exact getFlag_setZN_of_writesFlag hzn hf _ _ _
  · rfl

/-- A flag outside an instruction's rows of R37 is kept. -/
theorem getFlag_of_effect (h : Effect s i t) (hi : i ≠ .plp ∧ (∀ m, i ≠ .rep m) ∧ ∀ m, i ≠ .sep m)
    (hf : writesFlag s.config i fl = false) : getFlag t.p fl = getFlag s.p fl := by
  cases h with
  | flag hset =>
    refine getFlag_setFlag_of_ne _ ?_
    rintro rfl
    rw [writesFlag_of_flagSetting hset] at hf
    cases hf
  | xce =>
    refine getFlag_setFlag_of_ne _ ?_
    rintro rfl
    cases hf
  | rep => exact absurd rfl (hi.2.1 _)
  | sep => exact absurd rfl (hi.2.2 _)
  | plp => exact absurd rfl hi.1
  | result hr => simpa [writeBack] using getFlag_setZN_of_writesFlag (writesZN_of_resultReg hr _) hf _ _ _
  | store => exact getFlag_storeStatus_of_writesFlag _ hf
  | tcd | txs | xba | pld | plb => exact getFlag_setZN_of_writesFlag (cfg := s.config) rfl hf _ _ _
  | compare hc =>
    rw [ret_p, withCompare_p, compareFlags, getFlag_setZN_of_writesFlag (writesZN_of_isCompare hc _) hf]
    refine getFlag_setFlag_of_ne _ ?_
    rintro rfl
    rw [writesFlag, hc] at hf
    cases hf
  | tcs | push | rts | rtl | jump => rfl

theorem writesFlag_c_iff (cfg : Config) : writesFlag cfg i .c = true ↔
    i = .clc ∨ i = .xce ∨ ∃ v, i = .cmpAbs v ∨ i = .cmpImm v ∨ i = .cpxAbs v ∨ i = .cpxImm v := by
  cases i <;> simp [writesFlag, isCompare]

theorem writesFlag_i_iff (cfg : Config) : writesFlag cfg i .i = true ↔ i = .sei ∨ i = .cli := by
  simp [writesFlag]

/-- An instruction outside every row of R37 keeps P. -/
theorem p_of_effect (h : Effect s i t) (hi : i ≠ .plp ∧ (∀ m, i ≠ .rep m) ∧ ∀ m, i ≠ .sep m)
    (hf : ∀ fl, writesFlag s.config i fl = false) : t.p = s.p :=
  byte_ext_flags fun fl => getFlag_of_effect h hi (hf fl)

/-- Settles O58: flag by flag, the row of R37 (`getFlag_of_effect`); an instruction outside every row keeps P. -/
theorem onlyListedInstructionsWriteAFlag : Obligations.OnlyListedInstructionsWriteAFlag := by
  intro i s t h hi
  have heff := effect_of_exec h
  have hwritten {fl : Flag} (hne : getFlag t.p fl ≠ getFlag s.p fl) : writesFlag s.config i fl = true := by
    by_contra hf
    exact hne (getFlag_of_effect heff hi (Bool.eq_false_iff.2 hf))
  have hkept (fl : Flag) (hf : writesFlag s.config i fl = false) := getFlag_of_effect heff hi hf
  refine ⟨hkept .v rfl, hkept .d rfl, hkept .m rfl, hkept .x rfl, fun hne => (writesFlag_i_iff _).1 (hwritten hne),
    fun hne => (writesFlag_c_iff _).1 (hwritten hne), fun hne => hne.elim (hwritten (fl := .z)) (hwritten (fl := .n)), ?stores, ?others⟩
  case stores =>
    intro hstore hzn
    refine p_of_effect heff hi fun fl => ?_
    cases fl with
    | z | n => obtain ⟨a, rfl | rfl | rfl⟩ | ⟨dp, rfl | rfl⟩ := hstore <;> exact hzn
    | _ => obtain ⟨a, rfl | rfl | rfl⟩ | ⟨dp, rfl | rfl⟩ := hstore <;> rfl
  case others =>
    intro hlist
    refine p_of_effect heff hi fun fl => ?_
    obtain rfl | rfl | rfl | rfl | rfl | rfl | rfl | ⟨a, rfl | rfl | rfl⟩ | ⟨b, rfl | rfl⟩ | ⟨a, bk, rfl⟩ := hlist <;>
      cases fl <;> rfl

end Sys2Proof.Proofs.Effects
end

section
/-! PROOFS. The machine invariant (10_state.md R35, R42, R50): every step keeps it, and power-on and reset meet it
(70_reset_and_hazards.md R340, R341); with them reset, power-on and the header of the cartridge (20_memory.md R100). -/

namespace Sys2Proof.Proofs.Invariant

open Sys2Proof.Machine Sys2Proof.Laws Sys2Proof.Proofs.Fetch Sys2Proof.Proofs.Stores Sys2Proof.Proofs.Stack Sys2Proof.Proofs.Effects

variable {i : Instr} {s t : State}

/-! ### The parts of the invariant -/

theorem memoriesCanonical_iff : Safety.memoriesCanonical s = true ↔
    Memory.wf s.wram = true ∧ Cells.wf vramSize s.ppu.vram = true ∧ Cells.wf cgramSize s.ppu.cgram = true ∧
      Cells.wf s.rom.length s.rom.bytes = true := by
  simp only [Safety.memoriesCanonical, Bool.and_eq_true, and_assoc]

theorem stackInPageOne_iff : Safety.stackInPageOne s = true ↔ (s.e = true → hiByte s.sp = 0x01) := by
  cases he : s.e <;> simp [Safety.stackInPageOne, he]

theorem hdmaDisabled_iff : Safety.hdmaDisabled s = true ↔ s.hdmaen = 0x00 := by
  simp only [Safety.hdmaDisabled, beq_iff_eq]

/-- The index high bytes are clear. -/
def IndexHighClear (s : State) : Prop := hiByte s.x = 0x00 ∧ hiByte s.y = 0x00

theorem indexHighSettled_iff : Safety.indexHighSettled s = true ↔
    (s.config.xFlagClearsIndexHigh = true → getFlag s.p .x = true → IndexHighClear s) := by
  cases hc : s.config.xFlagClearsIndexHigh <;> cases hx : getFlag s.p .x <;>
    simp [Safety.indexHighSettled, IndexHighClear, hc, hx]

/-! ### Every effect keeps each part -/

theorem memoriesCanonical_of_effect (h : Effect s i t) (hs : Safety.memoriesCanonical s = true) :
    Safety.memoriesCanonical t = true := by
  rw [memoriesCanonical_iff] at hs ⊢
  obtain ⟨hwram, hvram, hcgram, hrom⟩ := hs
  rw [(rom_config_of_effect h).1]
  obtain ⟨hw, hp, _⟩ | ⟨_, hstep⟩ := memory_of_effect h
  · rw [hw, hp]
    exact ⟨hwram, hvram, hcgram, hrom⟩
  · obtain ⟨hv, hc⟩ := hstep.ppu hvram hcgram
    exact ⟨hstep.wram hwram, hv, hc, hrom⟩

theorem hdmaDisabled_of_effect (h : Effect s i t) (hs : Safety.hdmaDisabled s = true) : Safety.hdmaDisabled t = true := by
  rw [hdmaDisabled_iff] at hs ⊢
  obtain ⟨_, _, _, hh, _⟩ | ⟨_, hstep⟩ := memory_of_effect h
  · rw [hh, hs]
  · exact hstep.hdmaen hs

/-- A value put in page one while E = 1. -/
theorem hiByte_ite_pageOne {e : Bool} (v w : Word) (he : e = true) : hiByte (if e then pageOne v else w) = 0x01 := by
  rw [if_pos he, hiByte_pageOne]

theorem stackInPageOne_of_effect (h : Effect s i t) (hs : Safety.stackInPageOne s = true) : Safety.stackInPageOne t = true := by
  rw [stackInPageOne_iff] at hs ⊢
  cases h with
  | xce => exact hiByte_ite_pageOne _ _
  | tcs | txs => exact hiByte_ite_pageOne _ _
  | @result _ r sp hi hsp =>
    simp only [writeBack, ret_e, withZN_e, setLow_e, ret_sp, withZN_sp, setLow_sp]
    obtain rfl | ⟨_, below, rfl⟩ := hsp
    · exact hs
    · exact fun he => spUp_pageOne he below
  | push _ _ hsp => exact hsp
  | pld | plb | rts | rtl => exact fun he => spUp_pageOne he _
  | plp =>
    simp only [ret_e, settleIndexHigh_e, ret_sp, settleIndexHigh_sp]
    exact fun he => spUp_pageOne he _
  | sep => simpa using hs
  | flag | rep | store | tcd | xba | compare | jump => exact hs

/-- Settling leaves the index high bytes clear where the invariant asks for it. -/
theorem indexHighClear_settleIndexHigh {s : State} (hc : s.config.xFlagClearsIndexHigh = true)
    (hx : getFlag s.settleIndexHigh.p .x = true) : IndexHighClear s.settleIndexHigh := by
  rw [settleIndexHigh_p] at hx
  rw [State.settleIndexHigh, hc, hx]
  exact ⟨hiByte_zext16 _, hiByte_zext16 _⟩

/-- While P.X = 1 the index registers are written at 8 bits, which keeps their high bytes. -/
theorem indexHighClear_setLow {r : DataReg} (hx : getFlag s.p .x = true) (v : Word) (h : IndexHighClear s) :
    IndexHighClear (s.setLow r (s.widthOfReg r) v) := by
  have hw : s.widths.x = .w8 := by simp [State.widths, widthOf, hx]
  cases r with
  | a => exact h
  | x =>
    refine ⟨?_, h.2⟩
    rw [State.widthOfReg, hw, setLow_x_x, setLow_w8, hiByte_joinBytes, h.1]
  | y =>
    refine ⟨h.1, ?_⟩
    rw [State.widthOfReg, hw, setLow_y_y, setLow_w8, hiByte_joinBytes, h.2]

theorem indexHighSettled_of_effect (h : Effect s i t) (hs : Safety.indexHighSettled s = true) :
    Safety.indexHighSettled t = true := by
  rw [indexHighSettled_iff] at hs ⊢
  rw [(rom_config_of_effect h).2]
  intro hc hx
  cases h with
  | sep => exact indexHighClear_settleIndexHigh hc hx
  | plp => exact indexHighClear_settleIndexHigh hc hx
  | rep =>
    refine hs hc ?_
    rw [getFlag, BitVec.getLsbD_and, Bool.and_eq_true] at hx
    exact hx.1
  | @flag _ fl b hset =>
    have hne : Flag.x ≠ fl := by
      rintro rfl
      exact Bool.false_ne_true (writesFlag_of_flagSetting hset s.config)
    exact hs hc ((getFlag_setFlag_of_ne b hne).symm.trans hx)
  | xce => exact hs hc ((getFlag_setFlag_of_ne s.e (by decide)).symm.trans hx)
  | @result _ r sp _ _ v =>
    have hx : getFlag s.p .x = true := by simpa [writeBack, getFlag_setZN] using hx
    exact indexHighClear_setLow (s := { s with sp := sp }) hx v (hs hc hx)
  | store => exact hs hc ((getFlag_storeStatus (by decide) (by decide) _ _ _).symm.trans hx)
  | tcd | txs | xba | pld | plb => exact hs hc ((getFlag_setZN_of_ne (by decide) (by decide) _ _ _).symm.trans hx)
  | compare => exact hs hc ((getFlag_compareFlags s.p _ _ _ .x).symm.trans hx)
  | tcs | push | rts | rtl | jump => exact hs hc hx

theorem inv_of_effect (h : Effect s i t) (hs : Safety.Inv s) : Safety.Inv t :=
  ⟨memoriesCanonical_of_effect h hs.canonical, stackInPageOne_of_effect h hs.pageOne, hdmaDisabled_of_effect h hs.hdma,
    indexHighSettled_of_effect h hs.indexHigh⟩

/-- Settles O54: the fetch moves PC, which no part of the invariant reads, and every effect keeps each part. -/
theorem everyStepKeepsTheInvariant : Obligations.EveryStepKeepsTheInvariant := by
  intro s t hs h
  obtain ⟨pc, i, heff⟩ := effect_of_step h
  exact inv_of_effect heff ⟨hs.canonical, hs.pageOne, hs.hdma, hs.indexHigh⟩

/-! ### Power-on -/

theorem inBounds_iff (cfg : Config) : Config.inBounds cfg = true ↔ Spec.parametersInBounds cfg := by
  simp only [Config.inBounds, Spec.parametersInBounds, Bool.and_eq_true, beq_iff_eq, hiByte_eq_one_iff, List.all_map,
    List.all_eq_true, Function.comp_apply, Option.isNone_iff_eq_none, opcodeRow?_eq_none_iff, decide_eq_true_eq, and_assoc]

/-- The machine that power-on resets (R341). -/
def unpowered (cfg : Config) (rom : Rom) (wramInit : Memory) : State :=
  { State.reset with wram := wramInit, rom := rom, config := cfg }

section
variable {cfg : Config} {rom : Rom} {wram : Memory}

theorem powerOn_of_inBounds (hlen : 0x8000 ≤ rom.length) (hcfg : Spec.parametersInBounds cfg) :
    powerOn cfg rom wram = .next (unpowered cfg rom wram).applyReset := by
  rw [powerOn, if_neg (Nat.not_lt.2 hlen), (inBounds_iff cfg).2 hcfg]; rfl

theorem powerOn_of_short (hlen : rom.length < 0x8000) : powerOn cfg rom wram = .refused (.romTooShort rom.length) := by
  rw [powerOn, if_pos hlen]

theorem powerOn_of_not_inBounds (hlen : 0x8000 ≤ rom.length) (hcfg : ¬ Spec.parametersInBounds cfg) :
    powerOn cfg rom wram = .refused .parametersOutOfBounds := by
  rw [powerOn, if_neg (Nat.not_lt.2 hlen), Bool.eq_false_iff.2 (mt (inBounds_iff cfg).1 hcfg)]; rfl

/-- Power-on answers a state only from an image long enough and parameters in bounds. -/
theorem powerOn_eq_next (h : powerOn cfg rom wram = .next t) :
    Spec.parametersInBounds cfg ∧ t = (unpowered cfg rom wram).applyReset := by
  by_cases hlen : rom.length < 0x8000
  · rw [powerOn_of_short hlen] at h
    cases h
  by_cases hcfg : Spec.parametersInBounds cfg
  · rw [powerOn_of_inBounds (Nat.not_lt.1 hlen) hcfg] at h
    exact ⟨hcfg, (Host.Outcome.next.inj h).symm⟩
  · rw [powerOn_of_not_inBounds (Nat.not_lt.1 hlen) hcfg] at h
    cases h

end

/-- Reset meets the invariant wherever the memories are canonical and `RESET_SP` is in page one. -/
theorem inv_applyReset (hmem : Safety.memoriesCanonical s = true) (hsp : hiByte s.config.resetSp = 0x01) :
    Safety.Inv s.applyReset :=
  have hzero : hiByte 0x0000#16 = 0x00 := by decide
  ⟨hmem, stackInPageOne_iff.2 fun _ => hsp, rfl, indexHighSettled_iff.2 fun _ _ => ⟨hzero, hzero⟩⟩

/-- Settles O55: both states are resets, with canonical memories and `RESET_SP` in page one. -/
theorem resetMeetsTheInvariant : Obligations.ResetMeetsTheInvariant := by
  refine ⟨⟨by decide, by decide, by decide, by decide⟩, fun cfg rom wram t hrom hwram h => ?_⟩
  obtain ⟨hcfg, rfl⟩ := powerOn_eq_next h
  exact inv_applyReset (memoriesCanonical_iff.2 ⟨hwram, rfl, rfl, hrom⟩) ((hiByte_eq_one_iff _).2 hcfg.1)

/-- Settles O50: field by field. -/
theorem resetSetsWhatItLists : Obligations.ResetSetsWhatItLists := fun _ => rfl

/-- Settles O52: the three branches of power-on; the defaults and the blank image give State.reset by evaluation. -/
theorem powerOnZeroesThenResets : Obligations.PowerOnZeroesThenResets := by
  refine ⟨fun _ _ _ hlen => powerOn_of_short hlen, fun _ _ _ hlen hcfg => powerOn_of_not_inBounds hlen hcfg,
    fun cfg rom wram hlen hcfg => ?_, rfl⟩
  exact ⟨_, powerOn_of_inBounds hlen hcfg, rfl, rfl, rfl, rfl, rfl, rfl⟩

/-! ### The header -/

theorem parsedSize_eq_shiftLeft (b : Byte) : parsedSize b = 0x400 <<< b.toNat := by
  rw [parsedSize, Nat.shiftLeft_eq]

/-- Settles O53: the sizes by `parsedSize_eq_shiftLeft`, the vector by its two bytes. -/
theorem headerSizesAreShifted : Obligations.HeaderSizesAreShifted := by
  refine fun r => ⟨parsedSize_eq_shiftLeft _, parsedSize_eq_shiftLeft _, fun h => ?_, rfl⟩
  have hbyte : r.header.romSizeByte = 0x05 := h
  rw [Header.romSize, hbyte]; rfl

end Sys2Proof.Proofs.Invariant
end

section
/-! PROOFS. The DMA sequencer (20_memory.md section 7, R104 to R112): its validation and order, its transfer as ordinary bus
accesses, and what it copies from work RAM to the palette and to VRAM. -/

namespace Sys2Proof.Proofs.Dma

open Sys2Proof.Machine Sys2Proof.Laws Sys2Proof.Proofs.RegisterStores Sys2Proof.Proofs.Bus

variable {s t u : State} {n : Fin 7} {ch : DmaChannel} {a b : Word} {f : Fault}

/-! ### The fields of CTRL in the spec's masks (R48) -/

theorem supported_iff (ch : DmaChannel) : ch.supported = true ↔ Spec.runs ch.ctrl := by
  have hctrl : ∀ c : Byte,
      (!c.getLsbD 7 && (c.extractLsb' 0 3 == 0 || c.extractLsb' 0 3 == 1)) = true ↔ c &&& 0x87 = 0x00 ∨ c &&& 0x87 = 0x01 := by
    decide
  exact hctrl ch.ctrl

theorem pattern_eq_zero_iff (ch : DmaChannel) : ch.pattern = 0 ↔ ch.ctrl &&& 0x07 = 0x00 := by
  have hctrl : ∀ c : Byte, c.extractLsb' 0 3 = 0 ↔ c &&& 0x07 = 0x00 := by decide
  exact hctrl ch.ctrl

theorem destination_eq (ch : DmaChannel) (i : Nat) : ch.destination i = Spec.destination ch i := by
  simp only [DmaChannel.destination, Spec.destination, pattern_eq_zero_iff]

/-- ADJ as bits 3 and 4 of CTRL. -/
theorem adjust_cases : ∀ c : Byte,
    (c.extractLsb' 3 2).toNat = if c &&& 0x18 = 0x00 then 0 else if c &&& 0x18 = 0x10 then 2 else if c &&& 0x18 = 0x08 then 1 else 3 := by
  decide

theorem adjustSource_eq (ch : DmaChannel) (a : Word) : adjustSource a ch.adjust = Spec.adjusted ch.ctrl a := by
  rw [adjustSource, DmaChannel.adjust, adjust_cases, Spec.adjusted]
  split_ifs <;> rfl

theorem count_eq (cfg : Config) (ch : DmaChannel) : ch.count cfg = Spec.byteCount cfg ch := by
  unfold DmaChannel.count Spec.byteCount
  split_ifs with h0 hz
  · rw [hz]
  · cases hc : cfg.dmaZeroSizeCount with
    | none => rfl
    | all64K => exact absurd hc hz
  · rfl

theorem dmaAddress_eq (reg : Byte) : dmaAddress reg = 0x2100 ||| reg.setWidth 16 := rfl

/-! ### A transfer as ordinary bus accesses (R108 to R111) -/

theorem dmaRunBytes_eq_ok {k i : Nat} : dmaRunBytes ch k i a s = .ok (t, b) ↔ Spec.Transfers ch k i a s t b := by
  induction k generalizing i a s with
  | zero => simp only [dmaRunBytes, Spec.Transfers, Except.ok.injEq, Prod.mk.injEq, @eq_comm _ s, @eq_comm _ a]
  | succ k ih =>
    simp only [dmaRunBytes, Spec.Transfers, bind_eq_ok, dmaWriteByte_eq_busWrite, destination_eq, adjustSource_eq, dmaAddress_eq, ih,
      exists_and_left]

/-- A byte moved by an ordinary read and an ordinary write makes a transfer one longer. -/
theorem transfers_succ {k i : Nat} {v : Byte} (h : Spec.Transfers ch k i a s t b) (hread : busRead t ch.sbank b = .ok v)
    (hwrite : busWrite t (0x2100 ||| (Spec.destination ch (i + k)).setWidth 16) v = .ok u) :
    Spec.Transfers ch (k + 1) i a s u (Spec.adjusted ch.ctrl b) := by
  induction k generalizing i a s with
  | zero =>
    obtain ⟨rfl, rfl⟩ := h
    exact ⟨v, u, hread, hwrite, rfl, rfl⟩
  | succ k ih =>
    obtain ⟨v', u', hread', hwrite', h⟩ := h
    exact ⟨v', u', hread', hwrite', ih h (by rw [Nat.add_right_comm, Nat.add_assoc]; exact hwrite)⟩

/-- The access that raises error `f` for byte `i` of a transfer, a source read before a destination write. -/
def AccessFails (ch : DmaChannel) (u : State) (b : Word) (i : Nat) (f : Fault) : Prop :=
  busRead u ch.sbank b = .error f ∨
    ∃ v, busRead u ch.sbank b = .ok v ∧ busWrite u (0x2100 ||| (Spec.destination ch i).setWidth 16) v = .error f

/-- The first access that raises ends the transfer with its error (R303). -/
theorem dmaRunBytes_eq_error {m k i : Nat} (hk : k < m) (h : Spec.Transfers ch k i a s u b) (hfail : AccessFails ch u b (i + k) f) :
    dmaRunBytes ch m i a s = .error f := by
  induction k generalizing m i a s with
  | zero =>
    obtain ⟨rfl, rfl⟩ := h
    cases m with
    | zero => exact absurd hk (Nat.not_lt_zero _)
    | succ m =>
      rw [Nat.add_zero] at hfail
      obtain hread | ⟨v, hread, hwrite⟩ := hfail
      · rw [dmaRunBytes, hread, error_bind]
      · rw [dmaRunBytes, hread, ok_bind, dmaWriteByte_eq_busWrite, destination_eq, dmaAddress_eq, hwrite, error_bind]
  | succ k ih =>
    obtain ⟨v, t, hread, hwrite, h⟩ := h
    cases m with
    | zero => exact absurd hk (Nat.not_lt_zero _)
    | succ m =>
      rw [dmaRunBytes, hread, ok_bind, dmaWriteByte_eq_busWrite, destination_eq, dmaAddress_eq, hwrite, ok_bind, adjustSource_eq]
      exact ih (Nat.lt_of_succ_lt_succ hk) h (by rw [Nat.add_right_comm, Nat.add_assoc]; exact hfail)

/-- What a channel's transfer leaves: the write-back of the source address and size when `DMA_WRITEBACK` is set (R110). -/
def afterTransfer (s : State) (n : Fin 7) (t : State) (b : Word) : State :=
  if s.config.dmaWriteback then { t with dma := t.dma.set n { s.dma[n] with src := b, size := 0 } } else t

theorem dmaRunChannel_eq (s : State) (n : Fin 7) :
    dmaRunChannel s n = dmaRunBytes s.dma[n] (Spec.byteCount s.config s.dma[n]) 0 s.dma[n].src s >>= fun r =>
      .ok (afterTransfer s n r.1 r.2) := by
  rw [← count_eq, dmaRunChannel]
  refine congrArg (dmaRunBytes _ _ _ _ _ >>= ·) (funext fun r => ?_)
  simp only [afterTransfer]
  split <;> rfl

theorem busWrite_trigger (s : State) (v : Byte) : busWrite s 0x420B v = dmaTrigger s v :=
  busWrite_sys (r := .mdmaen) (by decide)

theorem dmaTrigger_of_bit7 {v : Byte} (h : v.getLsbD 7 = true) : dmaTrigger s v = .error (.unsupportedDmaMode 7) := by
  rw [dmaTrigger, if_pos h, raise]

theorem dmaTrigger_eq {v : Byte} (h : v.getLsbD 7 = false) :
    dmaTrigger s v = dmaValidate s (selectedChannels v) >>= fun _ => dmaRunChannels s (selectedChannels v) := by
  rw [dmaTrigger, h, if_neg Bool.false_ne_true]

/-- The enable value of one channel selects that channel alone. -/
theorem selectedChannels_single :
    ∀ n : Fin 7, selectedChannels (1#8 <<< n.val) = [n] ∧ (1#8 <<< n.val).getLsbD 7 = false := by decide

/-- The trigger of one channel that can run is that channel's transfer. -/
theorem busWrite_trigger_single (h : Spec.runs s.dma[n].ctrl) : busWrite s 0x420B (1#8 <<< n.val) = dmaRunChannel s n := by
  obtain ⟨hselected, hbit⟩ := selectedChannels_single n
  rw [busWrite_trigger, dmaTrigger_eq hbit, hselected, dmaValidate, (supported_iff _).2 h, if_pos rfl, dmaValidate, ok_bind,
    dmaRunChannels]
  cases dmaRunChannel s n <;> rfl

theorem trigger_of_transfers (hruns : Spec.runs s.dma[n].ctrl)
    (h : Spec.Transfers s.dma[n] (Spec.byteCount s.config s.dma[n]) 0 s.dma[n].src s t b) :
    busWrite s 0x420B (1#8 <<< n.val) = .ok (afterTransfer s n t b) := by
  rw [busWrite_trigger_single hruns, dmaRunChannel_eq, dmaRunBytes_eq_ok.2 h, ok_bind]

/-- Settles O47: a whole transfer by `dmaRunBytes_eq_ok`, a failing one by `dmaRunBytes_eq_error`. -/
theorem dmaTransferIsOrdinaryBusAccesses : Obligations.DmaTransferIsOrdinaryBusAccesses := by
  refine fun s n hruns => ⟨fun t b h => trigger_of_transfers hruns h, fun k u b f hk h hfail => ?_⟩
  have herror := dmaRunBytes_eq_error hk h (by rw [Nat.zero_add]; exact hfail)
  rw [busWrite_trigger_single hruns, dmaRunChannel_eq, herror, error_bind]

/-! ### The order of a trigger (R105, R106) -/

theorem pairwise_selectedChannels (v : Byte) : (selectedChannels v).Pairwise (· < ·) :=
  List.Pairwise.filter _ (by decide)

theorem mem_selectedChannels {v : Byte} : n ∈ selectedChannels v ↔ v.getLsbD n.val = true := by
  have hall : n ∈ dmaChannels := by revert n; decide
  rw [selectedChannels, List.mem_filter, and_iff_right hall]

theorem dmaValidate_eq_ok {ns : List (Fin 7)} (h : ∀ n ∈ ns, Spec.runs s.dma[n].ctrl) : dmaValidate s ns = .ok () := by
  induction ns with
  | nil => rfl
  | cons n ns ih =>
    rw [List.forall_mem_cons] at h
    rw [dmaValidate, if_pos ((supported_iff _).2 h.1), ih h.2]

/-- The lowest channel of a rising list that cannot run is the one reported. -/
theorem dmaValidate_eq_error {ns : List (Fin 7)} (hsorted : ns.Pairwise (· < ·)) (hn : n ∈ ns) (hnot : ¬ Spec.runs s.dma[n].ctrl)
    (hbelow : ∀ m ∈ ns, m < n → Spec.runs s.dma[m].ctrl) : dmaValidate s ns = .error (.unsupportedDmaMode n.val) := by
  induction ns with
  | nil => cases hn
  | cons m ns ih =>
    rw [List.pairwise_cons] at hsorted
    rw [List.forall_mem_cons] at hbelow
    obtain rfl | hn := List.mem_cons.1 hn
    · rw [dmaValidate, if_neg (mt (supported_iff _).1 hnot), raise]
    · rw [dmaValidate, if_pos ((supported_iff _).2 (hbelow.1 (hsorted.1 n hn))), ih hsorted.2 hn hbelow.2]

/-- A transfer keeps the control byte of every channel. -/
theorem ctrl_of_dmaRunChannel (h : dmaRunChannel s n = .ok t) (m : Fin 7) : t.dma[m].ctrl = s.dma[m].ctrl := by
  rw [dmaRunChannel_eq] at h
  obtain ⟨⟨u, b⟩, hu, h⟩ := bind_eq_ok.1 h
  cases h
  have hdma : u.dma = s.dma := by rw [(dmaRunBytes_spec hu).1]
  unfold afterTransfer
  split
  · simp only [Fin.getElem_fin, hdma, Vector.getElem_set]
    split
    · rename_i heq
      simp only [heq]
    · rfl
  · exact congrArg (fun dma : Vector DmaChannel 7 => dma[m].ctrl) hdma

/-- Channels that can all run do so one after the other, each as its own trigger would. -/
theorem dmaRunChannels_eq_triggerEach (v : Byte) {ns : List (Fin 7)}
    (h : ∀ n ∈ ns, v.getLsbD n.val = true → Spec.runs s.dma[n].ctrl) :
    dmaRunChannels s (ns.filter (fun n => v.getLsbD n.val)) = Spec.triggerEach v ns s := by
  induction ns generalizing s with
  | nil => rfl
  | cons n ns ih =>
    rw [List.forall_mem_cons] at h
    cases hv : v.getLsbD n.val with
    | false => rw [List.filter_cons_of_neg (by simp [hv]), Spec.triggerEach, hv, if_neg Bool.false_ne_true, ih h.2]
    | true =>
      rw [List.filter_cons_of_pos (p := fun n : Fin 7 => v.getLsbD n.val) hv, dmaRunChannels, Spec.triggerEach, if_pos hv, busWrite_trigger_single (h.1 hv)]
      cases hrun : dmaRunChannel s n with
      | error f => rfl
      | ok t => exact ih fun m hm hvm => by rw [ctrl_of_dmaRunChannel hrun m]; exact h.2 m hm hvm

/-- Settles O46: bit 7 first, then the validation in rising order, then the channels in that order. -/
theorem dmaTriggerValidatesThenRunsInOrder : Obligations.DmaTriggerValidatesThenRunsInOrder := by
  intro s v
  rw [busWrite_trigger]
  refine ⟨fun h => dmaTrigger_of_bit7 h, fun n h hn hnot hbelow => ?invalid, fun h hruns => ?run, ?zero⟩
  case invalid =>
    have herror := dmaValidate_eq_error (pairwise_selectedChannels v) (mem_selectedChannels.2 hn) hnot
      fun m hm hlt => hbelow m hlt (mem_selectedChannels.1 hm)
    rw [dmaTrigger_eq h, herror, error_bind]
  case run =>
    have hok := dmaValidate_eq_ok fun n hn => hruns n (mem_selectedChannels.1 hn)
    rw [dmaTrigger_eq h, hok, ok_bind]
    exact dmaRunChannels_eq_triggerEach v fun n _ => hruns n
  case zero => rintro rfl; rfl

/-! ### Copies from work RAM -/

theorem toNat_add_ofNat {k : Nat} (h : a.toNat + k < 0x10000) : (a + BitVec.ofNat 16 k).toNat = a.toNat + k := by
  rw [BitVec.toNat_add, BitVec.toNat_ofNat, Nat.add_mod_mod, Nat.mod_eq_of_lt h]

/-- A transfer from work RAM with rising source addresses, one byte longer. -/
theorem transfers_wram_succ {k : Nat} (hadj : ch.ctrl &&& 0x18 = 0) (hfit : a.toNat + k < 0x2000)
    (h : Spec.Transfers ch k 0 a s t (a + BitVec.ofNat 16 k))
    (hwrite : busWrite t (0x2100 ||| (Spec.destination ch k).setWidth 16) (Cells.read t.wram (a.toNat + k)) = .ok u) :
    Spec.Transfers ch (k + 1) 0 a s u (a + BitVec.ofNat 16 (k + 1)) := by
  have haddr : (a + BitVec.ofNat 16 k).toNat = a.toNat + k := toNat_add_ofNat (by omega)
  have hnext : Spec.adjusted ch.ctrl (a + BitVec.ofNat 16 k) = a + BitVec.ofNat 16 (k + 1) := by
    rw [Spec.adjusted, if_pos hadj, BitVec.add_assoc, BitVec.ofNat_add]; rfl
  rw [← hnext]
  refine transfers_succ h (busRead_wram ch.sbank (by rw [haddr]; exact hfit)) ?_
  rw [haddr, Nat.zero_add]
  exact hwrite

theorem afterTransfer_of_no_writeback (h : s.config.dmaWriteback = false) (n : Fin 7) (t : State) (b : Word) :
    afterTransfer s n t b = t := by
  rw [afterTransfer, h, if_neg Bool.false_ne_true]

/-- The bits of CTRL that decide how a channel moves bytes, DIR, ADJ and PAT, are those of the mask 0x9F. -/
theorem ctrl_fields : ∀ c : Byte,
    c &&& 0x87 = (c &&& 0x9F) &&& 0x87 ∧ c &&& 0x18 = (c &&& 0x9F) &&& 0x18 ∧ c &&& 0x07 = (c &&& 0x9F) &&& 0x07 := by decide

theorem byteCount_of_ne_zero {cfg : Config} (h : ch.size ≠ 0) : Spec.byteCount cfg ch = ch.size.toNat := by
  rw [Spec.byteCount, if_neg h]

/-! ### To the palette (R96) -/

/-- `t` is `s` with `k` bytes of work RAM from `src` on copied to the palette at successive indexes from CGIDX on. -/
def PaletteCopied (s t : State) (src k : Nat) : Prop :=
  t = { s with ppu := { s.ppu with cgram := t.ppu.cgram, cgidx := BitVec.ofNat 10 (s.ppu.cgidx.toNat + k) } } ∧
    (∀ i < k, Cells.read t.ppu.cgram ((s.ppu.cgidx.toNat + i) % 1024) = Cells.read s.wram (src + i)) ∧
    ∀ j, (∀ i < k, j ≠ (s.ppu.cgidx.toNat + i) % 1024) → Cells.read t.ppu.cgram j = Cells.read s.ppu.cgram j

theorem paletteCopied_zero (s : State) (src : Nat) : PaletteCopied s s src 0 := by
  refine ⟨?_, fun _ h => absurd h (Nat.not_lt_zero _), fun _ _ => rfl⟩
  rw [Nat.add_zero, BitVec.ofNat_toNat, BitVec.setWidth_eq]

/-- One more byte to the palette port; within 1024 bytes it falls on none of those before it. -/
theorem paletteCopied_succ {src k : Nat} (hk : k < 1024) (h : PaletteCopied s t src k) :
    ∃ u, busWrite t 0x2122 (Cells.read t.wram (src + k)) = .ok u ∧ PaletteCopied s u src (k + 1) := by
  obtain ⟨ht, hcopied, hkept⟩ := h
  have hidx : t.ppu.cgidx.toNat = (s.ppu.cgidx.toNat + k) % 1024 := by rw [ht]; exact BitVec.toNat_ofNat _ _
  have hnext : t.ppu.cgidx + 1 = BitVec.ofNat 10 (s.ppu.cgidx.toNat + (k + 1)) := by
    rw [ht]
    exact (BitVec.ofNat_add _ 1).symm
  have hwram : t.wram = s.wram := by rw [ht]
  refine ⟨_, busWrite_ppu (r := .cgdata) (by decide) rfl, ?state, fun i hi => ?copied, fun j hj => ?kept⟩
  case state =>
    rw [← hnext, ht]
  case copied =>
    rw [hidx, hwram, read_write]
    obtain rfl | hlt := Nat.eq_or_lt_of_le (Nat.le_of_lt_succ hi)
    · rw [if_pos rfl]
    · rw [if_neg (by omega), hcopied i hlt]
  case kept =>
    rw [hidx, read_write_other _ _ (hj k (Nat.lt_succ_self k))]
    exact hkept j fun i hi => hj i (Nat.lt_succ_of_lt hi)

theorem destination_of_one_register (hpat : ch.ctrl &&& 0x07 = 0) (hdest : ch.dest = 0x22) (k : Nat) :
    0x2100 ||| (Spec.destination ch k).setWidth 16 = 0x2122#16 := by
  rw [Spec.destination, if_pos hpat, hdest]; rfl

theorem transfers_palette (hadj : ch.ctrl &&& 0x18 = 0) (hpat : ch.ctrl &&& 0x07 = 0) (hdest : ch.dest = 0x22) {k : Nat}
    (hk : k ≤ 1024) (hfit : a.toNat + k ≤ 0x2000) :
    ∃ t, Spec.Transfers ch k 0 a s t (a + BitVec.ofNat 16 k) ∧ PaletteCopied s t a.toNat k := by
  induction k with
  | zero => exact ⟨s, ⟨rfl, BitVec.add_zero a⟩, paletteCopied_zero s _⟩
  | succ k ih =>
    obtain ⟨t, ht, hcopied⟩ := ih (by omega) (by omega)
    obtain ⟨u, hu, hcopied⟩ := paletteCopied_succ hk hcopied
    refine ⟨u, transfers_wram_succ hadj (by omega) ht ?_, hcopied⟩
    rw [destination_of_one_register hpat hdest]
    exact hu

/-- Settles O48: the transfer byte by byte (`transfers_palette`), with no write-back after it. -/
theorem dmaCopiesWorkRamToPalette : Obligations.DmaCopiesWorkRamToPalette := by
  intro s n hwriteback hctrl hdest hsize hle hfit
  obtain ⟨hruns, hadj, hpat⟩ := ctrl_fields s.dma[n].ctrl
  rw [hctrl] at hruns hadj hpat
  obtain ⟨t, ht, hcopied⟩ := transfers_palette (s := s) hadj hpat hdest hle hfit
  rw [← byteCount_of_ne_zero (cfg := s.config) hsize] at ht
  have htrigger := trigger_of_transfers (.inl hruns) ht
  rw [afterTransfer_of_no_writeback hwriteback] at htrigger
  exact ⟨t, htrigger, hcopied⟩

/-! ### To VRAM (R94) -/

/-- A write to the low port keeps VADDR while TRIG selects the high one. -/
theorem busWrite_vramLow (h : s.ppu.vmain = 0x80) (v : Byte) :
    busWrite s 0x2118 v = .ok { s with ppu := { s.ppu with
      vram := Cells.write s.ppu.vram s.ppu.vaddr.toNat (joinBytes (hiByte (Cells.read s.ppu.vram s.ppu.vaddr.toNat)) v) } } := by
  refine busWrite_ppu (r := .vmdatal) (by decide) ?_
  have htrigger : vramTrigger s.ppu.vmain ≠ false := by rw [h]; decide
  rw [ppuWrite, vramDataWrite_eq_ok (by rw [h]; rfl), if_neg htrigger]; rfl

/-- A write to the high port advances VADDR by one when VMAIN is 0x80. -/
theorem busWrite_vramHigh (h : s.ppu.vmain = 0x80) (v : Byte) :
    busWrite s 0x2119 v = .ok { s with ppu := { s.ppu with
      vram := Cells.write s.ppu.vram s.ppu.vaddr.toNat (joinBytes v (loByte (Cells.read s.ppu.vram s.ppu.vaddr.toNat)))
      vaddr := s.ppu.vaddr + 1 } } := by
  refine busWrite_ppu (r := .vmdatah) (by decide) ?_
  have htrigger : vramTrigger s.ppu.vmain = true := by rw [h]; decide
  have hstep : Spec.vramStep s.ppu.vmain = 1 := by rw [h]; rfl
  rw [ppuWrite, vramDataWrite_eq_ok (by rw [h]; rfl), if_pos htrigger, ← add_eq_ofNat, hstep]; rfl

/-- With VMAIN 0x80 the two bytes of a word written to the data ports are stored at VADDR, which advances by one. -/
theorem busWrite_vram_word (hvmain : s.ppu.vmain = 0x80) (lo hi : Byte) :
    ∃ u t, busWrite s 0x2118 lo = .ok u ∧ u.wram = s.wram ∧ busWrite u 0x2119 hi = .ok t ∧
      t = { s with ppu := { s.ppu with vram := t.ppu.vram, vaddr := s.ppu.vaddr + 1 } } ∧
      ∀ j, Cells.read t.ppu.vram j = if j = s.ppu.vaddr.toNat then hi ++ lo else Cells.read s.ppu.vram j := by
  refine ⟨_, _, busWrite_vramLow hvmain lo, rfl, busWrite_vramHigh (by exact hvmain) hi, rfl, fun j => ?_⟩
  simp only [read_write, if_true, loByte_joinBytes]
  split <;> rfl

/-- `t` is `s` with `k` words of work RAM from `src` on, low byte first, copied to VRAM at successive addresses from VADDR on. -/
def VramCopied (s t : State) (src k : Nat) : Prop :=
  t = { s with ppu := { s.ppu with vram := t.ppu.vram, vaddr := BitVec.ofNat 16 (s.ppu.vaddr.toNat + k) } } ∧
    (∀ i < k, Cells.read t.ppu.vram ((s.ppu.vaddr.toNat + i) % 0x10000) =
      Cells.read s.wram (src + 2 * i + 1) ++ Cells.read s.wram (src + 2 * i)) ∧
    ∀ j, (∀ i < k, j ≠ (s.ppu.vaddr.toNat + i) % 0x10000) → Cells.read t.ppu.vram j = Cells.read s.ppu.vram j

theorem vramCopied_zero (s : State) (src : Nat) : VramCopied s s src 0 := by
  refine ⟨?_, fun _ h => absurd h (Nat.not_lt_zero _), fun _ _ => rfl⟩
  rw [Nat.add_zero, BitVec.ofNat_toNat, BitVec.setWidth_eq]

/-- One more word to the data ports; within 2^16 words it falls on none of those before it. -/
theorem vramCopied_succ {src k : Nat} (hvmain : s.ppu.vmain = 0x80) (hk : k < 0x10000) (h : VramCopied s t src k) :
    ∃ u v, busWrite t 0x2118 (Cells.read t.wram (src + 2 * k)) = .ok u ∧
      busWrite u 0x2119 (Cells.read u.wram (src + 2 * k + 1)) = .ok v ∧ VramCopied s v src (k + 1) := by
  obtain ⟨ht, hcopied, hkept⟩ := h
  have hidx : t.ppu.vaddr.toNat = (s.ppu.vaddr.toNat + k) % 0x10000 := by rw [ht]; exact BitVec.toNat_ofNat _ _
  have hnext : t.ppu.vaddr + 1 = BitVec.ofNat 16 (s.ppu.vaddr.toNat + (k + 1)) := by
    rw [ht]
    exact (BitVec.ofNat_add _ 1).symm
  have hwram : t.wram = s.wram := by rw [ht]
  have hvmain : t.ppu.vmain = 0x80 := by rw [ht]; exact hvmain
  obtain ⟨u, v, hu, huwram, hv, hstate, hread⟩ :=
    busWrite_vram_word hvmain (Cells.read t.wram (src + 2 * k)) (Cells.read t.wram (src + 2 * k + 1))
  rw [hidx] at hread
  refine ⟨u, v, hu, by rw [huwram]; exact hv, ?state, fun i hi => ?copied, fun j hj => ?kept⟩
  case state => rw [hstate, hnext, ht]
  case copied =>
    rw [hread, hwram]
    obtain rfl | hlt := Nat.eq_or_lt_of_le (Nat.le_of_lt_succ hi)
    · rw [if_pos rfl]
    · rw [if_neg (by omega), hcopied i hlt]
  case kept =>
    rw [hread, if_neg (hj k (Nat.lt_succ_self k))]
    exact hkept j fun i hi => hj i (Nat.lt_succ_of_lt hi)

/-- The bytes of a two-register transfer go to the low and the high port in turn. -/
theorem destination_of_two_registers (hpat : ch.ctrl &&& 0x07 = 0x01) (hdest : ch.dest = 0x18) (k : Nat) :
    0x2100 ||| (Spec.destination ch (2 * k)).setWidth 16 = 0x2118#16 ∧
      0x2100 ||| (Spec.destination ch (2 * k + 1)).setWidth 16 = 0x2119#16 := by
  have hne : ch.ctrl &&& 0x07 ≠ 0 := by rw [hpat]; decide
  have heven : 2 * k % 2 = 0 := by omega
  have hodd : (2 * k + 1) % 2 = 1 := by omega
  rw [Spec.destination, Spec.destination, if_neg hne, if_neg hne, hdest, heven, hodd]
  exact ⟨rfl, rfl⟩

theorem transfers_vram (hvmain : s.ppu.vmain = 0x80) (hadj : ch.ctrl &&& 0x18 = 0) (hpat : ch.ctrl &&& 0x07 = 0x01)
    (hdest : ch.dest = 0x18) {k : Nat} (hfit : a.toNat + 2 * k ≤ 0x2000) :
    ∃ t, Spec.Transfers ch (2 * k) 0 a s t (a + BitVec.ofNat 16 (2 * k)) ∧ VramCopied s t a.toNat k := by
  induction k with
  | zero => exact ⟨s, ⟨rfl, BitVec.add_zero a⟩, vramCopied_zero s _⟩
  | succ k ih =>
    obtain ⟨t, ht, hcopied⟩ := ih (by omega)
    obtain ⟨u, v, hu, hv, hcopied⟩ := vramCopied_succ hvmain (by omega) hcopied
    obtain ⟨hlow, hhigh⟩ := destination_of_two_registers hpat hdest k
    have hfirst := transfers_wram_succ hadj (by omega) ht (by rw [hlow]; exact hu)
    have hsecond := transfers_wram_succ hadj (by omega) hfirst (by rw [hhigh]; exact hv)
    exact ⟨v, hsecond, hcopied⟩

/-- Settles O49: the transfer word by word (`transfers_vram`), with no write-back after it. -/
theorem dmaCopiesWorkRamToVramWords : Obligations.DmaCopiesWorkRamToVramWords := by
  intro s n k hwriteback hctrl hdest hvmain hk hsize hfit
  obtain ⟨hruns, hadj, hpat⟩ := ctrl_fields s.dma[n].ctrl
  rw [hctrl] at hruns hadj hpat
  have hne : s.dma[n].size ≠ 0 := fun h => by rw [h] at hsize; change 0 = 2 * k at hsize; omega
  obtain ⟨t, ht, hcopied⟩ := transfers_vram hvmain hadj hpat hdest hfit
  rw [← hsize, ← byteCount_of_ne_zero (cfg := s.config) hne] at ht
  have htrigger := trigger_of_transfers (.inr hruns) ht
  rw [afterTransfer_of_no_writeback hwriteback] at htrigger
  exact ⟨t, htrigger, hcopied⟩

end Sys2Proof.Proofs.Dma
end
